-- ==== Sys2Proof/Word.lean ====
section
/-! DEFINITION. The words of the block and the shapes of a transaction on its bus. -/

namespace Sys2Proof

/-- One byte of bus memory (20_memory.md R70). -/
abbrev Byte := BitVec 8

/-- A pixel is 16 bits (00_scope.md R15). -/
abbrev Pixel := BitVec 16

/-- A register, a command word, a bus address or a packed pair of pixels: 32 bits (R15, R17, R32). -/
abbrev Word := BitVec 32

/-- The widths of an access, `n` of `MemRead(addr, n)` (00_scope.md R22). -/
inductive Size where
  | byte
  | half
  | word
  deriving DecidableEq, Repr

/-- How many bytes an access of that width takes. -/
def Size.bytes : Size → Nat
  | .byte => 1
  | .half => 2
  | .word => 4

/-- The direction of an access and, for a write, its data (30_encoding.md R100). -/
inductive Access where
  | read
  | write (data : Word)
  deriving DecidableEq, Repr

/-- One access a host makes on the bus: an address, a width, and a direction with its data. -/
structure BusAccess where
  addr : Word
  size : Size
  access : Access
  deriving DecidableEq, Repr

/-- The two kinds of operation with which the host drives the block (30_encoding.md R100): a command
statement, which is the 32-bit word it writes to CMD, and a bus access. -/
inductive PortInput where
  | command (word : Word)
  | access (t : BusAccess)
  deriving DecidableEq, Repr

end Sys2Proof
end

