-- ==== Sys2Proof/Config.lean ====
section
/-! DEFINITION. What an implementation of the block fixes (00_scope.md, section 4), and the free values. -/

namespace Sys2Proof

/-- The two source formats (00_scope.md R10). -/
inductive Format where
  | indexed8
  | packed16
  deriving DecidableEq, Repr

/-- The three destination geometries (00_scope.md R11). Code 3 is reserved and is no geometry. -/
inductive Geometry where
  | native
  | g400
  | g480
  deriving DecidableEq, Repr

/-- The three routes of a SCALE (43_packer.md R200). -/
inductive Route where
  | native
  | h54
  | h32
  deriving DecidableEq, Repr

namespace Config

/-- `SRC_H`, the lines of a source frame (00_scope.md R12). -/
def srcHeight : Nat := 240

/-- Source words of a line: 320 pixels in pairs (20_memory.md R74). -/
def srcWords : Nat := 160

/-- The bytes of the register window (10_state.md R32). -/
def windowBytes : Nat := 64

/-- The bytes of bus memory (20_memory.md R70). -/
def busBytes : Nat := 4294967296

/-- The upper 26 bits of REG_BASE in `State.reset`. The spec leaves REG_BASE open as a parameter the
model takes as an argument (00_scope.md R17): `State.resetAt` takes it, every state carries its own, and
no statement rests on this value. DESIGN CHOICE, unsafe for claims about runs from `State.reset` alone:
notes/assumptions/5.md. -/
def regWindow : BitVec 26 := 0x3C00000#26

/-- FREE VALUE: the bytes of the destination region of a SCALE that reset abandons
(70_reset_and_hazards.md R291: "A model sets each byte of that region to an arbitrary value") or that
met an index out of range (60_exceptions.md R271). It is applied to a counter of the state, so no two of them are tied: notes/assumptions/8.md. -/
opaque abandonedByte : Nat → BitVec 8

end Config

end Sys2Proof
end

