-- ==== Sys2Proof/Syntax.lean ====
section
/-! DEFINITION. The host operations of the block: one constructor per row of spec/opcode_table.json. -/

namespace Sys2Proof

/-- The operations of 30_encoding.md. The reserved bits of a command word are kept in its term, because
a word that sets one is an operation with an effect of its own (the error RESERVED, R109). -/
inductive Instr where
  /-- SETPAL: COUNT `c[12:4]`, reserved `c[31:13]` (R102). -/
  | setpal (count : BitVec 9) (reserved : BitVec 19)
  /-- SETFMT: FMT `c[4]`, reserved `c[31:5]` (R103). -/
  | setfmt (fmt : Format) (reserved : BitVec 27)
  /-- SELGEOM: SCALE_EN `c[4]`, NPREF `c[6:5]`, PREF0 to PREF2 `c[9:8]`, `c[11:10]`, `c[13:12]`, SUPP
  `c[18:16]`, and the reserved fields `c[7]`, `c[15:14]`, `c[31:19]` (R104). -/
  | selgeom (scaleEn : Bool) (npref pref0 pref1 pref2 : BitVec 2) (supp : BitVec 3)
      (reserved7 : BitVec 1) (reserved14 : BitVec 2) (reserved19 : BitVec 13)
  /-- SCALE: reserved `c[31:4]` (R105). -/
  | scale (reserved : BitVec 28)
  /-- CLRERR: reserved `c[31:4]` (R106). -/
  | clrerr (reserved : BitVec 28)
  /-- A word whose OPCODE is 0x0 or 0x6 to 0xF, with its other bits (R108). -/
  | illegal (opcode : BitVec 4) (rest : BitVec 28)
  /-- WR CMD (44_commands.md R230). -/
  | wrCmd (c : Word)
  /-- RD CMD (R220). -/
  | rdCmd
  /-- RD STATUS (R224). -/
  | rdStatus
  /-- WR STATUS (R225). -/
  | wrStatus (v : Word)
  /-- RD SRC_BASE (R221). -/
  | rdSrcBase
  /-- WR SRC_BASE (R226). -/
  | wrSrcBase (v : Word)
  /-- RD DST_BASE (R221). -/
  | rdDstBase
  /-- WR DST_BASE (R226). -/
  | wrDstBase (v : Word)
  /-- RD VCFG (R221). -/
  | rdVcfg
  /-- WR VCFG (R227). -/
  | wrVcfg (v : Word)
  /-- RD PAL_ADDR (R221). -/
  | rdPalAddr
  /-- WR PAL_ADDR (R228). -/
  | wrPalAddr (v : Word)
  /-- RD PAL_DATA (R220). -/
  | rdPalData
  /-- WR PAL_DATA (R229). -/
  | wrPalData (v : Word)
  /-- RD or WR of an unmapped offset, 0x1C to 0x3C (R223). -/
  | rdWrUnmapped (offset : BitVec 6) (access : Access)
  deriving DecidableEq, Repr

end Sys2Proof
end

