-- ==== Sys2Proof/WellFormed.lean ====
section
/-! DEFINITION. Which terms of `Instr` stand for an operation of the spec. -/

namespace Sys2Proof

/-- The OPCODE values that name a command (30_encoding.md R101). -/
def legalOpcode (op : BitVec 4) : Bool :=
  op == 1#4 || op == 2#4 || op == 3#4 || op == 4#4 || op == 5#4

/-- The unmapped offsets: 0x1C to 0x3C, multiples of 4 (10_state.md R32, R51). -/
def unmappedOffset (off : BitVec 6) : Bool :=
  0x1C#6 ≤ off && off.extractLsb' 0 2 == 0#2

/-- Well-formed: the illegal row holds no legal opcode, the unmapped row no mapped or unaligned offset.
Every other field may hold every value of its width (30_encoding.md R107). -/
def Instr.wf : Instr → Bool
  | .illegal opcode _ => !legalOpcode opcode
  | .rdWrUnmapped offset _ => unmappedOffset offset
  | .setpal _ _ | .setfmt _ _ | .selgeom _ _ _ _ _ _ _ _ _ | .scale _ | .clrerr _ => true
  | .wrCmd _ | .rdCmd | .rdStatus | .wrStatus _ | .rdSrcBase | .wrSrcBase _ => true
  | .rdDstBase | .wrDstBase _ | .rdVcfg | .wrVcfg _ => true
  | .rdPalAddr | .wrPalAddr _ | .rdPalData | .wrPalData _ => true

end Sys2Proof
end

