-- ==== Sys2Proof/Decode.lean ====
section
/-! DEFINITION. Decoding a host operation, and after it the encoder (30_encoding.md). -/

namespace Sys2Proof

/-- The FMT bit of SETFMT and of STATUS (30_encoding.md R103, 10_state.md R34). -/
def Format.ofBit (b : BitVec 1) : Format :=
  if b = 0#1 then .indexed8 else .packed16

/-- See `Format.ofBit`. -/
def Format.bit : Format → BitVec 1
  | .indexed8 => 0#1
  | .packed16 => 1#1

/-- A command word. It is total: an opcode the spec does not assign is the operation ILLEGAL, which the
block refuses with an error code (R100 to R110). -/
def decodeCommand (c : Word) : Instr :=
  match c.extractLsb' 0 4 with
  | 1#4 => .setpal (c.extractLsb' 4 9) (c.extractLsb' 13 19)
  | 2#4 => .setfmt (Format.ofBit (c.extractLsb' 4 1)) (c.extractLsb' 5 27)
  | 3#4 => .selgeom (c.extractLsb' 4 1 == 1#1) (c.extractLsb' 5 2)
      (c.extractLsb' 8 2) (c.extractLsb' 10 2) (c.extractLsb' 12 2) (c.extractLsb' 16 3)
      (c.extractLsb' 7 1) (c.extractLsb' 14 2) (c.extractLsb' 19 13)
  | 4#4 => .scale (c.extractLsb' 4 28)
  | 5#4 => .clrerr (c.extractLsb' 4 28)
  | op => .illegal op (c.extractLsb' 4 28)

/-- A register access, by offset and direction (R111; offsets are those of 10_state.md R32). -/
def decodeRegister (off : BitVec 6) : Access → Instr
  | .read =>
    match off with
    | 0x00#6 => .rdCmd
    | 0x04#6 => .rdStatus
    | 0x08#6 => .rdSrcBase
    | 0x0C#6 => .rdDstBase
    | 0x10#6 => .rdVcfg
    | 0x14#6 => .rdPalAddr
    | 0x18#6 => .rdPalData
    | off => .rdWrUnmapped off .read
  | .write v =>
    match off with
    | 0x00#6 => .wrCmd v
    | 0x04#6 => .wrStatus v
    | 0x08#6 => .wrSrcBase v
    | 0x0C#6 => .wrDstBase v
    | 0x10#6 => .wrVcfg v
    | 0x14#6 => .wrPalAddr v
    | 0x18#6 => .wrPalData v
    | off => .rdWrUnmapped off (.write v)

/-- Why a bus access is no operation of the block. -/
inductive DecodeError where
  /-- It touches no byte of the register window: it is an access to bus memory. -/
  | outsideWindow
  /-- It touches the window but is not a 32-bit access at a multiple of 4 in it (44_commands.md R219). -/
  | accessShape
  deriving DecidableEq, Repr

/-- The access shares a byte with the window at `base`. -/
def touchesWindow (base : Word) (t : BusAccess) : Bool :=
  decide (t.addr.toNat < base.toNat + Config.windowBytes) &&
    decide (base.toNat < t.addr.toNat + t.size.bytes)

/-- A bus access, with the window at `base` (R111: `offset = address - REG_BASE`; R219: its shape).
DEDUCED: an access that reaches into the window from below is an access to it: notes/assumptions/15.md. -/
def decodeAccess (base : Word) (t : BusAccess) : Except DecodeError Instr :=
  if touchesWindow base t then
    if t.size = .word ∧ base.toNat ≤ t.addr.toNat ∧ (t.addr - base).extractLsb' 0 2 = 0#2 then
      .ok (decodeRegister ((t.addr - base).extractLsb' 0 6) t.access)
    else .error .accessShape
  else .error .outsideWindow

/-- What stands on the port, as an operation (R100). -/
def decode (base : Word) : PortInput → Except DecodeError Instr
  | .command c => .ok (decodeCommand c)
  | .access t => decodeAccess base t

/-! ## The encoder -/

/-- An aligned 32-bit access to the register at `off`. -/
def registerAccess (base : Word) (off : BitVec 6) (a : Access) : PortInput :=
  .access { addr := base + off.setWidth 32, size := .word, access := a }

/-- What a host puts on the port for an operation: for a CMD32 row its command word, from the field
tables of R102 to R106 with the most significant field first; for an MMIO32 row the access to its
register (R111). -/
def encode (base : Word) : Instr → PortInput
  | .setpal count r => .command (r ++ count ++ 1#4)
  | .setfmt fmt r => .command (r ++ fmt.bit ++ 2#4)
  | .selgeom en n p0 p1 p2 supp r7 r14 r19 =>
      .command (r19 ++ supp ++ r14 ++ p2 ++ p1 ++ p0 ++ r7 ++ n ++ BitVec.ofBool en ++ 3#4)
  | .scale r => .command (r ++ 4#4)
  | .clrerr r => .command (r ++ 5#4)
  | .illegal op rest => .command (rest ++ op)
  | .wrCmd c => registerAccess base 0x00#6 (.write c)
  | .rdCmd => registerAccess base 0x00#6 .read
  | .rdStatus => registerAccess base 0x04#6 .read
  | .wrStatus v => registerAccess base 0x04#6 (.write v)
  | .rdSrcBase => registerAccess base 0x08#6 .read
  | .wrSrcBase v => registerAccess base 0x08#6 (.write v)
  | .rdDstBase => registerAccess base 0x0C#6 .read
  | .wrDstBase v => registerAccess base 0x0C#6 (.write v)
  | .rdVcfg => registerAccess base 0x10#6 .read
  | .wrVcfg v => registerAccess base 0x10#6 (.write v)
  | .rdPalAddr => registerAccess base 0x14#6 .read
  | .wrPalAddr v => registerAccess base 0x14#6 (.write v)
  | .rdPalData => registerAccess base 0x18#6 .read
  | .wrPalData v => registerAccess base 0x18#6 (.write v)
  | .rdWrUnmapped off a => registerAccess base off a

/-! ## The opcode table's words -/

/-- What stands on the port for a word of spec/opcode_table.json. A CMD32 row is a command word. An
MMIO32 row gives six bits, the register's offset, and no bit for the direction or the data, so its words
do not tell RD from WR, and the words 0x00 and 0x04 are CMD32 words too. DESIGN CHOICE: a word of at
most 8 bits that is the offset of a register from 0x08 on is a write of 0 to it, every other word is a
command word: notes/assumptions/3.md. -/
def tableInput (base : Word) (nbits w : Nat) : PortInput :=
  if nbits ≤ 8 ∧ 8 ≤ w ∧ w < 64 ∧ w % 4 = 0 then
    registerAccess base (BitVec.ofNat 6 w) (.write 0#32)
  else .command (BitVec.ofNat 32 w)

/-- The instruction the decoder reads from a word of spec/opcode_table.json. -/
def decodeTableWord (nbits w : Nat) : Option Instr :=
  match decode (Config.regWindow ++ 0#6) (tableInput (Config.regWindow ++ 0#6) nbits w) with
  | .ok i => some i
  | .error _ => none

end Sys2Proof
end

