-- ==== Sys2Proof/Machine/State.lean ====
section
/-! DEFINITION. The state of the block (10_state.md), the reasons it stops, and its reset values. -/

namespace Sys2Proof.Machine

/-- The error codes of 60_exceptions.md R261. Codes 11 to 15 are never produced (93 U16): there is no
constructor for them. -/
inductive ErrorCode where
  | none
  | illegalOp
  | reserved
  | cmdBusy
  | writeBusy
  | badCount
  | noGeometry
  | geomUnset
  | palUnset
  | misaligned
  | badVcfg
  deriving DecidableEq, Repr

/-- The kinds of contract fault (60_exceptions.md R270). -/
inductive ContractKind where
  | regAccess
  | indexRange
  | addrWrap
  | overlap
  | race
  deriving DecidableEq, Repr

/-- The record a SCALE latches at acceptance (10_state.md R49, 44_commands.md R248). -/
structure FrameRecord where
  route : Route
  fmt : Format
  geom : Geometry
  srcBase : Word
  dstBase : Word
  topskip : BitVec 8
  vinc : BitVec 9
  thr : BitVec 3
  palN : BitVec 9
  deriving DecidableEq, Repr

/-- `INFLIGHT` (10_state.md R49). -/
inductive InFlight where
  | none
  | palette (n : BitVec 9)
  | scale (p : FrameRecord)
  deriving DecidableEq, Repr

/-- What one agent does next (00_scope.md R29): an operation of a host on the port or the bus, the
pseudo-instruction WAIT of a host (30_encoding.md R117), a turn of the engine (44_commands.md R258), the
platform's reset input (70_reset_and_hazards.md R290). -/
inductive HostOp where
  | port (p : PortInput)
  | wait
  | engine
  | reset
  deriving DecidableEq, Repr

/-- A table whose entries are a value or undef (00_scope.md R21): the defined entries with their
indices, strictly rising. An index that is not listed holds undef: notes/assumptions/7.md. -/
abbrev Table (w : Nat) := List (Nat × BitVec w)

/-- Bus memory (20_memory.md R70): the bytes that are not 0, addresses strictly rising. An address that
is not listed reads 0. DESIGN CHOICE, unsafe: notes/assumptions/4.md. -/
abbrev Memory := List Host.Cell

/-- Everything 10_state.md R30 gives the block, bus memory, the parameter REG_BASE, and the model's own
fields. STATUS.BUSY is no field: R35 makes it a view of `inflight`. -/
structure State where
  /-- STATUS.PAL_VALID (R36). -/
  palValid : Bool
  /-- STATUS.GEOM_VALID (R37). -/
  geomValid : Bool
  /-- STATUS.ERR (R38). -/
  err : Bool
  /-- STATUS.ERR_CODE (R38). -/
  errCode : ErrorCode
  /-- ACT_GEOM (R48). -/
  actGeom : Geometry
  /-- ACT_SCALE_EN (R48). -/
  actScaleEn : Bool
  /-- ACT_FMT (R48). -/
  actFmt : Format
  /-- PAL_N (R39). -/
  palN : BitVec 9
  /-- SRC_BASE (R41). -/
  srcBase : Word
  /-- DST_BASE (R42). -/
  dstBase : Word
  /-- VCFG.TOPSKIP (R40). -/
  topskip : BitVec 8
  /-- VCFG.VINC (R40). -/
  vinc : BitVec 9
  /-- VCFG.THR (R40). -/
  thr : BitVec 3
  /-- PAL_ADDR (R43). -/
  palAddr : BitVec 8
  /-- STAGE (R45). -/
  stage : Table 32
  /-- PAL16 (R46). -/
  pal16 : Table 16
  /-- PAIR (R47). -/
  pair : Table 32
  /-- INFLIGHT (R49). -/
  inflight : InFlight
  /-- Bus memory (20_memory.md R70). -/
  mem : Memory
  /-- FAULTED with its kind (R52): notes/assumptions/6.md. -/
  faulted : Option ContractKind
  /-- The upper 26 bits of REG_BASE, a multiple of 64 (00_scope.md R17): notes/assumptions/5.md. -/
  regWindow : BitVec 26
  /-- MODEL FIELD: what the agents do next, in the order the platform serializes it
  (60_exceptions.md R266, R278): notes/assumptions/1.md. -/
  inputs : List HostOp
  /-- MODEL FIELD: the value the latest read answered to the host (30_encoding.md R114):
  notes/assumptions/12.md. -/
  lastRead : Option Word
  /-- MODEL FIELD: how many free bytes the run has used: notes/assumptions/8.md. -/
  freeIndex : Nat
  deriving DecidableEq, Repr

/-- Why the machine stops. -/
inductive Fault where
  /-- `fault Contract(kind)` (00_scope.md R23, 60_exceptions.md R270): a host broke a precondition the
  block does not check, and the behaviour of the hardware is undefined from here. `stopped` is the state
  with FAULTED set. Raised by an access of the wrong shape, by a host's access that races a SCALE, by
  the acceptance of a SCALE, and by the completion of an INDEXED8 SCALE. Safe. -/
  | contract (kind : ContractKind) (stopped : State)
  /-- A host's access to bus memory reaches past address 2^32 - 1, where there is no memory
  (20_memory.md R70). Raised by the host's memory accesses. Safe. -/
  | noSuchAddress
  deriving DecidableEq, Repr

/-- Why a step is refused. -/
inductive Refusal where
  /-- The instruction has no meaning yet. Raised by no arm of `exec` now. Safe. -/
  | notModelled (mnemonic : String)
  deriving DecidableEq, Repr

/-- REG_BASE (00_scope.md R17). -/
def State.regBase (s : State) : Word := s.regWindow ++ 0#6

/-- The state after reset with the window where `regWindow` says (10_state.md R53). -/
def State.resetAt (regWindow : BitVec 26) : State where
  palValid := false
  geomValid := false
  err := false
  errCode := .none
  actGeom := .native
  actScaleEn := false
  actFmt := .packed16
  palN := 0
  srcBase := 0
  dstBase := 0
  topskip := 8
  vinc := 224
  thr := 3
  palAddr := 0
  stage := []
  pal16 := []
  pair := []
  inflight := .none
  mem := []
  faulted := none
  regWindow := regWindow
  inputs := []
  lastRead := none
  freeIndex := 0

/-- The machine right after reset. -/
def State.reset : State := State.resetAt Config.regWindow

end Sys2Proof.Machine
end

