-- ==== Sys2Proof/Machine/Flags.lean ====
section
/-! DEFINITION. STATUS: its fields and the word a read returns (10_state.md R34 to R39). -/

namespace Sys2Proof.Machine

/-- STATUS.BUSY: 1 exactly while INFLIGHT is not NONE (10_state.md R35). -/
def State.busy (s : State) : Bool :=
  match s.inflight with
  | .none => false
  | .palette _ => true
  | .scale _ => true

/-- ERR_CODE as a number (60_exceptions.md R261). -/
def ErrorCode.bits : ErrorCode → BitVec 4
  | .none => 0#4
  | .illegalOp => 1#4
  | .reserved => 2#4
  | .cmdBusy => 3#4
  | .writeBusy => 4#4
  | .badCount => 5#4
  | .noGeometry => 6#4
  | .geomUnset => 7#4
  | .palUnset => 8#4
  | .misaligned => 9#4
  | .badVcfg => 10#4

/-- The geometry codes (00_scope.md R11). -/
def geometryCode : Geometry → BitVec 2
  | .native => 0#2
  | .g400 => 1#2
  | .g480 => 2#2

/-- A one-bit field in bit 0 of a word. -/
def bitWord (b : Bool) : Word := (BitVec.ofBool b).setWidth 32

/-- The word `RD STATUS` returns (44_commands.md R224). -/
def statusWord (s : State) : Word :=
  bitWord s.busy ||| bitWord s.palValid <<< 1 ||| bitWord s.geomValid <<< 2 ||| bitWord s.err <<< 3
    ||| s.errCode.bits.setWidth 32 <<< 4
    ||| (if s.geomValid then (geometryCode s.actGeom).setWidth 32 else 0#32) <<< 8
    ||| bitWord s.actScaleEn <<< 10 ||| s.actFmt.bit.setWidth 32 <<< 11 ||| s.palN.setWidth 32 <<< 12

end Sys2Proof.Machine
end

