-- ==== Sys2Proof/Machine/Operands.lean ====
section
/-! DEFINITION. The operands of the operations: register words and their fields, reserved-bit masks,
geometries, addresses of lines, and the regions of a SCALE. -/

namespace Sys2Proof.Machine

/-! ## Registers as words -/

/-- VCFG as a read returns it: THR in 30:28, VINC in 24:16, TOPSKIP in 7:0, the rest 0 (10_state.md R40). -/
def vcfgWord (s : State) : Word :=
  s.thr.setWidth 32 <<< 28 ||| s.vinc.setWidth 32 <<< 16 ||| s.topskip.setWidth 32

/-- PAL_ADDR as a read returns it: bits 31:8 are 0 (10_state.md R43). -/
def palAddrWord (s : State) : Word := s.palAddr.setWidth 32

/-- The reserved bits of each command format (30_encoding.md R109). -/
def reservedMask (op : BitVec 4) : Word :=
  match op with
  | 1#4 => 0xFFFFE000#32
  | 2#4 => 0xFFFFFFE0#32
  | 3#4 => 0xFFF8C080#32
  | 4#4 => 0xFFFFFFF0#32
  | 5#4 => 0xFFFFFFF0#32
  | _ => 0#32

/-! ## Geometries and routes -/

/-- The geometry a code names; code 3 names none (00_scope.md R11). -/
def geometryOfCode (code : BitVec 2) : Option Geometry :=
  match code with
  | 0#2 => some .native
  | 1#2 => some .g400
  | 2#2 => some .g480
  | _ => none

/-- `DW` (00_scope.md R11). -/
def destWidth : Geometry → Nat
  | .native => 320
  | .g400 => 400
  | .g480 => 480

/-- `DH` (00_scope.md R11). -/
def destHeight : Geometry → Nat
  | .native => 240
  | .g400 => 240
  | .g480 => 272

/-- `Route(geom, scale_en)` (43_packer.md R200). -/
def selectRoute (geom : Geometry) (scaleEn : Bool) : Route :=
  if scaleEn then
    match geom with
    | .native => .native
    | .g400 => .h54
    | .g480 => .h32
  else .native

/-! ## Addresses and regions of a SCALE -/

/-- `SRC_PITCH` (20_memory.md R74). -/
def srcPitch : Format → Nat
  | .indexed8 => 320
  | .packed16 => 640

/-- `DST_PITCH = 2 * DW` (20_memory.md R76, 43_packer.md R203). -/
def destPitch (g : Geometry) : Nat := 2 * destWidth g

/-- The address of byte 0 of frame line `L` (20_memory.md R74). -/
def srcLineAddr (p : FrameRecord) (l : Nat) : Nat := p.srcBase.toNat + l * srcPitch p.fmt

/-- The address of pixel 0 of destination line `y` (20_memory.md R76). -/
def destLineAddr (p : FrameRecord) (y : Nat) : Nat := p.dstBase.toNat + y * destPitch p.geom

/-- A range of bus addresses. -/
structure Region where
  base : Nat
  bytes : Nat
  deriving DecidableEq, Repr

/-- The region holds the address. -/
def Region.holds (r : Region) (a : Nat) : Bool := decide (r.base ≤ a) && decide (a < r.base + r.bytes)

/-- Two regions share a byte. -/
def Region.meets (r q : Region) : Bool :=
  decide (0 < r.bytes) && decide (0 < q.bytes)
    && decide (r.base < q.base + q.bytes) && decide (q.base < r.base + r.bytes)

/-- The region extends past address 2^32 - 1 (20_memory.md R82). -/
def Region.wraps (r : Region) : Bool := decide (Config.busBytes < r.base + r.bytes)

/-- The source region of a SCALE (20_memory.md R75). -/
def srcRegion (p : FrameRecord) : Region :=
  { base := p.srcBase.toNat, bytes := Config.srcHeight * srcPitch p.fmt }

/-- The destination region of a SCALE (20_memory.md R77). -/
def destRegion (p : FrameRecord) : Region :=
  { base := p.dstBase.toNat, bytes := destHeight p.geom * destPitch p.geom }

/-- The register window (10_state.md R32). -/
def windowRegion (s : State) : Region :=
  { base := s.regBase.toNat, bytes := Config.windowBytes }

/-- The record a SCALE accepted now latches (44_commands.md R248). -/
def latchedRecord (s : State) : FrameRecord where
  route := selectRoute s.actGeom s.actScaleEn
  fmt := s.actFmt
  geom := s.actGeom
  srcBase := s.srcBase
  dstBase := s.dstBase
  topskip := s.topskip
  vinc := s.vinc
  thr := s.thr
  palN := s.palN

end Sys2Proof.Machine
end

