-- ==== Sys2Proof/Machine/Ops.lean ====
section
/-! DEFINITION. The named operations over tables, bus memory and registers, the error record (what this
block has in the place of an exception entry, 60_exceptions.md R262, R268) with the way out of it, and
the contract fault. -/

namespace Sys2Proof.Machine

/-- The outcome of an operation. -/
abbrev Result := Host.Outcome State Fault Refusal

/-! ## Tables -/

/-- The entry at an index; `none` is undef. -/
def tableGet {w : Nat} : Table w → Nat → Option (BitVec w)
  | [], _ => none
  | (k, v) :: rest, i => if k = i then some v else tableGet rest i

/-- The table with one entry given a value. It keeps the indices rising. -/
def tablePut {w : Nat} : Table w → Nat → BitVec w → Table w
  | [], i, x => [(i, x)]
  | (k, v) :: rest, i, x =>
    if i < k then (i, x) :: (k, v) :: rest
    else if i = k then (i, x) :: rest
    else (k, v) :: tablePut rest i x

/-- Indices strictly rising, each below `n`. -/
abbrev tableWf {w : Nat} (t : Table w) (n : Nat) : Prop :=
  t.Pairwise (fun a b => a.1 < b.1) ∧ ∀ e ∈ t, e.1 < n

/-! ## Bus memory -/

/-- What an address that is not listed reads as. DESIGN CHOICE: notes/assumptions/4.md. -/
def unlistedByte : Byte := 0#8

/-- The canonical form: addresses strictly rising, inside the bus, and no listed byte that an unlisted
address would read as. -/
abbrev Memory.wf (m : Memory) : Prop :=
  m.Pairwise (fun a b => a.1 < b.1) ∧ ∀ c ∈ m, c.1 < Config.busBytes ∧ c.2 ≠ unlistedByte

/-- `MemRead(a, 1)` (00_scope.md R22). -/
def Memory.read (m : Memory) (a : Nat) : Byte := (tableGet m a).getD unlistedByte

/-- The listed cells in `[a, a + n)`: reading inside that range gives the same bytes from them. -/
def Memory.window (m : Memory) (a n : Nat) : Memory :=
  m.filter (fun c => decide (a ≤ c.1) && decide (c.1 < a + n))

/-- The cells that hold `bs` at `a`, `a + 1`, …. -/
def cellsAt (a : Nat) : List Byte → Memory
  | [] => []
  | b :: bs => if b = unlistedByte then cellsAt (a + 1) bs else (a, b) :: cellsAt (a + 1) bs

/-- The memory with the bytes `bs` stored at `a`, `a + 1`, …. It is the one write of the model. -/
def Memory.write (m : Memory) (a : Nat) (bs : List Byte) : Memory :=
  m.filter (fun c => decide (c.1 < a)) ++ cellsAt a bs
    ++ m.filter (fun c => decide (a + bs.length ≤ c.1))

/-- `MemRead(a, n)`, little-endian (20_memory.md R72), in 32 bits: a 2-byte value is
`MemRead(a,1) | (MemRead(a+1,1) << 8)`, a 4-byte value is `MemRead(a,2) | (MemRead(a+2,2) << 16)`. -/
def Memory.readLE (m : Memory) (a : Nat) : Size → Word
  | .byte => (m.read a).setWidth 32
  | .half => (m.read a).setWidth 32 ||| (m.read (a + 1)).setWidth 32 <<< 8
  | .word =>
      ((m.read a).setWidth 32 ||| (m.read (a + 1)).setWidth 32 <<< 8)
        ||| ((m.read (a + 2)).setWidth 32 ||| (m.read (a + 3)).setWidth 32 <<< 8) <<< 16

/-- The bytes of an `n`-byte value, the one at the lowest address first (20_memory.md R72). -/
def bytesLE (v : Word) : Size → List Byte
  | .byte => [v.extractLsb' 0 8]
  | .half => [v.extractLsb' 0 8, v.extractLsb' 8 8]
  | .word => [v.extractLsb' 0 8, v.extractLsb' 8 8, v.extractLsb' 16 8, v.extractLsb' 24 8]

/-- The state in which every byte of the destination region of a SCALE that will not complete is a free
value: after reset abandons it (70_reset_and_hazards.md R291), and after it met an index out of range
(60_exceptions.md R271, "what the destination holds is not specified"): notes/assumptions/8.md. -/
def freeDestination (p : FrameRecord) (s : State) : State :=
  { s with
    mem := s.mem.write (destRegion p).base
      ((List.range (destRegion p).bytes).map fun i => Config.abandonedByte (s.freeIndex + i))
    freeIndex := s.freeIndex + (destRegion p).bytes }

/-! ## Errors and contract faults -/

/-- The error record (60_exceptions.md R262): the first error since ERR was clear is kept. -/
def recordError (code : ErrorCode) (s : State) : State :=
  if s.err then s else { s with err := true, errCode := code }

/-- `raise Error(code)` (60_exceptions.md R262): the access that raised it changes nothing but the error
record (R263). -/
def raiseError (code : ErrorCode) (s : State) : Result := .next (recordError code s)

/-- The way out of the error state (60_exceptions.md R269): ERR and ERR_CODE are cleared, nothing is
restored. -/
def clearError (s : State) : State := { s with err := false, errCode := .none }

/-- `fault Contract(kind)` (60_exceptions.md R270): FAULTED is set with the kind, STATUS is not touched
(R272), and there is no further step. -/
def faultContract (kind : ContractKind) (s : State) : Result :=
  .fault (.contract kind { s with faulted := some kind })

/-- The value a read answers to the host. It changes no state of the block. -/
def answer (v : Word) (s : State) : Result := .next { s with lastRead := some v }

/-- The guard of a register write (44_commands.md R222): refused with WRITE_BUSY while BUSY is 1. -/
def writeWhenIdle (s : State) (s' : State) : Result :=
  if s.busy then raiseError .writeBusy s else .next s'

/-- The first checks of a write to CMD whose OPCODE is legal (44_commands.md R230): CMD_BUSY while BUSY
is 1, then RESERVED if a reserved bit is set; then the command's own effect. -/
def commandWhenIdle (reservedSet : Bool) (accept : State → Result) (s : State) : Result :=
  if s.busy then raiseError .cmdBusy s
  else if reservedSet then raiseError .reserved s
  else accept s

end Sys2Proof.Machine
end

