-- ==== Sys2Proof/Machine/Palette.lean ====
section
/-! DEFINITION. The Palette Resolver (40_palette.md). -/

namespace Sys2Proof.Machine

/-- `pair(lo, hi)` (00_scope.md R20). -/
def pairWord (lo hi : Pixel) : Word := lo.setWidth 32 ||| hi.setWidth 32 <<< 16

/-- `pack16(e)` (R130). The spec marks the truncation as general knowledge: notes/assumptions/14.md. -/
def pack16 (e : Word) : Pixel :=
  (e.extractLsb' 19 5).setWidth 16 <<< 11 ||| (e.extractLsb' 10 6).setWidth 16 <<< 5
    ||| (e.extractLsb' 3 5).setWidth 16

/-- The single-table rebuild (R131): entries below `n` from the staging palette, the rest undef. -/
def rebuildPal16 (stage : Table 32) (n : Nat) : Table 16 :=
  (List.range 256).filterMap fun i =>
    if i < n then (tableGet stage i).map (fun e => (i, pack16 e)) else none

/-- The paired-table rebuild (R132): `PAIR[i*256 + j]` holds `PAL16[j]` low and `PAL16[i]` high, and is
undef where either is. -/
def rebuildPair (pal16 : Table 16) : Table 32 :=
  (List.range 256).flatMap fun i =>
    match tableGet pal16 i with
    | none => []
    | some ci => (List.range 256).filterMap fun j =>
        (tableGet pal16 j).map fun cj => (i * 256 + j, pairWord cj ci)

/-- `Pal(p)` (R137); `none` is `fault Contract(INDEX_RANGE)`. -/
def palLookup (pal16 : Table 16) (palN : BitVec 9) (p : Byte) : Option Pixel :=
  if p.toNat < palN.toNat then tableGet pal16 p.toNat else none

/-- `PairLookup(key)` (R138); `none` is `fault Contract(INDEX_RANGE)`. -/
def pairLookup (pair : Table 32) (palN : BitVec 9) (key : BitVec 16) : Option Word :=
  if (key.extractLsb' 0 8).toNat < palN.toNat ∧ (key.extractLsb' 8 8).toNat < palN.toNat then
    tableGet pair key.toNat
  else none

end Sys2Proof.Machine
end

