-- ==== Sys2Proof/Machine/Horizontal.lean ====
section
/-! DEFINITION. The Horizontal Interpolator (41_horizontal.md). The spec marks the expressions of
AVERAGEHI, AVERAGELO, H54Group and H32Group as its reconstruction: notes/assumptions/14.md. -/

namespace Sys2Proof.Machine

/-- `lo(w)`, the pixel at the lower address (00_scope.md R20). -/
def loPixel (w : Word) : Pixel := w.extractLsb' 0 16

/-- `hi(w)` (00_scope.md R20). -/
def hiPixel (w : Word) : Pixel := w.extractLsb' 16 16

/-- `even16(p)` (R153), with MASK16 (00_scope.md R16). -/
def even16 (p : Pixel) : Pixel := p &&& 0xF7DE#16

/-- `even32(w)` (R153), with MASK32 (00_scope.md R16). -/
def even32 (w : Word) : Word := w &&& 0xF7DEF7DE#32

/-- `avg16(u, v)` (R151). -/
def avg16 (u v : Pixel) : Pixel := (u &&& 0xF7DE#16) >>> 1 + (v &&& 0xF7DE#16) >>> 1

/-- `AVERAGE(z, x)` (R152). -/
def average (z x : Word) : Word := (z &&& 0xF7DEF7DE#32) >>> 1 + (x &&& 0xF7DEF7DE#32) >>> 1

/-- `AVERAGEHI(w)` (R154). -/
def averageHi (w : Word) : Word := (w &&& 0xF7DE0000#32) >>> 1 + (w &&& 0xF7DE#32) <<< 15

/-- `AVERAGELO(w)` (R155). -/
def averageLo (w : Word) : Word := (w &&& 0xF7DE#32) >>> 1 + (w &&& 0xF7DE0000#32) >>> 17

/-- `H54Group(ab, cd, ef, gh)` (R157). -/
def h54Group (ab cd ef gh : Word) : List Word :=
  [ab,
   ab >>> 17 + (cd &&& 0xFFFF#32) >>> 1 + cd <<< 16,
   cd >>> 16 + ef <<< 16,
   ef >>> 16 + (ef &&& 0xFFFF0000#32) >>> 1 + (gh &&& 0xFFFF#32) <<< 15,
   gh]

/-- `H54Line(S)` (R159): groups of 4 source words. A line has 160 words, so none is left over. -/
def h54Line : List Word → List Word
  | ab :: cd :: ef :: gh :: rest => h54Group ab cd ef gh ++ h54Line rest
  | _ => []

/-- `H32Group(ab, cd)` (R160). -/
def h32Group (ab cd : Word) : List Word :=
  [(ab &&& 0xFFFF#32) + averageHi ab,
   ab >>> 16 + (cd &&& 0xFFFF#32) <<< 16,
   (cd &&& 0xFFFF0000#32) + averageLo cd]

/-- `H32Line(S)` (R162): groups of 2 source words. -/
def h32Line : List Word → List Word
  | ab :: cd :: rest => h32Group ab cd ++ h32Line rest
  | _ => []

end Sys2Proof.Machine
end

