-- ==== Sys2Proof/Machine/Vertical.lean ====
section
/-! DEFINITION. The Vertical Resampler (42_vertical.md). -/

namespace Sys2Proof.Machine

/-- The engine's working variables E, dh and y (10_state.md R50). They live inside the completion of a
SCALE only (R53). -/
structure VState where
  e : Nat
  dh : Nat
  y : Nat
  deriving DecidableEq, Repr

/-- `midh` (R180). -/
def midHeight (p : FrameRecord) : Nat := destHeight p.geom * p.thr.toNat / 4

/-- The tests of `VcfgCheck` (R181): true where it raises no error. -/
def vcfgLegal (p : FrameRecord) : Bool :=
  decide (1 ≤ p.vinc.toNat) && decide (p.vinc.toNat ≤ destHeight p.geom)
    && decide (p.thr.toNat ≤ 4)
    && decide (p.topskip.toNat + (destHeight p.geom - 1) * p.vinc.toNat / destHeight p.geom + 1 ≤ 239)

/-- `SrcWordIdx(L, k)` (40_palette.md R139); `none` is the fault INDEX_RANGE. -/
def srcWordIdx (p : FrameRecord) (pal16 : Table 16) (m : Memory) (l k : Nat) : Option Word :=
  let a := srcLineAddr p l + 2 * k
  match palLookup pal16 p.palN (m.read a), palLookup pal16 p.palN (m.read (a + 1)) with
  | some c0, some c1 => some (pairWord c0 c1)
  | _, _ => none

/-- `SrcWord(L, k)` (R182); `none` is the fault INDEX_RANGE. -/
def srcWord (p : FrameRecord) (pal16 : Table 16) (m : Memory) (l k : Nat) : Option Word :=
  match p.fmt with
  | .packed16 => some (m.readLE (srcLineAddr p l + 4 * k) .word)
  | .indexed8 => srcWordIdx p pal16 m l k

/-- All the values, or `none` if one is missing. -/
def collect {α : Type} : List (Option α) → Option (List α)
  | [] => some []
  | none :: _ => none
  | some x :: rest => (collect rest).map (x :: ·)

/-- `SrcWord(L, k)` for k in 0..159. The words are read from the part of memory that holds the line,
which reads the same there (`Sys2Proof.Laws.srcLine_eq`). -/
def srcLine (p : FrameRecord) (pal16 : Table 16) (m : Memory) (l : Nat) : Option (List Word) :=
  let line := m.window (srcLineAddr p l) (srcPitch p.fmt)
  collect ((List.range Config.srcWords).map (srcWord p pal16 line l))

/-- One word of a blended line (R184). -/
def blendWord (w next : Word) : Word := even32 (average (even32 w) next)

/-- `VLine(y)` (R184) at the current E, dh and y: line `L + 1` is read only when the line blends. -/
def vLine (p : FrameRecord) (pal16 : Table 16) (m : Memory) (v : VState) : Option (List Word) :=
  let l := p.topskip.toNat + v.dh
  match srcLine p pal16 m l with
  | none => none
  | some ws =>
    if midHeight p ≤ v.e then
      (srcLine p pal16 m (l + 1)).map (fun next => List.zipWith blendWord ws next)
    else some (ws.map even32)

/-- `VStep` (R185). -/
def vStep (p : FrameRecord) (v : VState) : VState :=
  let e := v.e + p.vinc.toNat
  if destHeight p.geom ≤ e then { e := e - destHeight p.geom, dh := v.dh + 1, y := v.y + 1 }
  else { e := e, dh := v.dh, y := v.y + 1 }

/-- E, dh and y at the start of a frame (R183). -/
def vStart : VState := { e := 0, dh := 0, y := 0 }

end Sys2Proof.Machine
end

