-- ==== Sys2Proof/Machine/Commands.lean ====
section
/-! DEFINITION. The commands, and WR CMD which issues one (44_commands.md R230 and section 2). -/

namespace Sys2Proof.Machine

/-- SETPAL at acceptance (R236). -/
def acceptSetpal (count : BitVec 9) (s : State) : Result :=
  if count.toNat < 1 ∨ 256 < count.toNat then raiseError .badCount s
  else .next { s with palValid := false, inflight := .palette count }

/-- SETFMT (R239). -/
def acceptSetfmt (fmt : Format) (s : State) : Result := .next { s with actFmt := fmt }

/-- `supp[p[k]] = 1`: the geometry of a slot is reported supported (30_encoding.md R104). -/
def supported (supp : BitVec 3) (g : Geometry) : Bool := supp.getLsbD (geometryCode g).toNat

/-- The used preference slots: those below NPREF (30_encoding.md R104). -/
def usedSlots (npref pref0 pref1 pref2 : BitVec 2) : List (BitVec 2) :=
  [pref0, pref1, pref2].take npref.toNat

/-- SELGEOM (R241): a used slot with code 3 is RESERVED before any slot is matched; then the first
supported preference wins; none is NO_GEOMETRY. -/
def acceptSelgeom (scaleEn : Bool) (npref pref0 pref1 pref2 : BitVec 2) (supp : BitVec 3)
    (s : State) : Result :=
  let slots := (usedSlots npref pref0 pref1 pref2).map geometryOfCode
  if none ∈ slots then raiseError .reserved s
  else
    match (slots.filterMap id).find? (supported supp) with
    | some g => .next { s with actGeom := g, actScaleEn := scaleEn, geomValid := true }
    | none => raiseError .noGeometry s

/-- `RegionCheck(P)` (20_memory.md R82): the contract a SCALE would break, ADDR_WRAP before OVERLAP
(60_exceptions.md R265). -/
def regionCheck (p : FrameRecord) (s : State) : Option ContractKind :=
  if (srcRegion p).wraps ∨ (destRegion p).wraps then some .addrWrap
  else if (srcRegion p).meets (destRegion p) ∨ (srcRegion p).meets (windowRegion s)
      ∨ (destRegion p).meets (windowRegion s) then some .overlap
  else none

/-- SCALE at acceptance (R248). -/
def acceptScale (s : State) : Result :=
  if s.geomValid = false then raiseError .geomUnset s
  else if s.actFmt = .indexed8 ∧ s.palValid = false then raiseError .palUnset s
  else if s.srcBase.extractLsb' 0 2 ≠ 0#2 ∨ s.dstBase.extractLsb' 0 2 ≠ 0#2 then
    raiseError .misaligned s
  else if (latchedRecord s).route ≠ .native ∧ vcfgLegal (latchedRecord s) = false then
    raiseError .badVcfg s
  else
    match regionCheck (latchedRecord s) s with
    | some kind => faultContract kind s
    | none => .next { s with inflight := .scale (latchedRecord s) }

/-- CLRERR (R253). -/
def acceptClrerr (s : State) : Result := .next (clearError s)

/-- SETPAL (R230, R236). -/
def execSetpal (count : BitVec 9) (reserved : BitVec 19) (s : State) : Result :=
  commandWhenIdle (reserved != 0#19) (acceptSetpal count) s

/-- SETFMT (R230, R239). -/
def execSetfmt (fmt : Format) (reserved : BitVec 27) (s : State) : Result :=
  commandWhenIdle (reserved != 0#27) (acceptSetfmt fmt) s

/-- SELGEOM (R230, R241). -/
def execSelgeom (scaleEn : Bool) (npref pref0 pref1 pref2 : BitVec 2) (supp : BitVec 3)
    (reserved7 : BitVec 1) (reserved14 : BitVec 2) (reserved19 : BitVec 13) (s : State) : Result :=
  commandWhenIdle (reserved7 != 0#1 || reserved14 != 0#2 || reserved19 != 0#13)
    (acceptSelgeom scaleEn npref pref0 pref1 pref2 supp) s

/-- SCALE (R230, R248). -/
def execScale (reserved : BitVec 28) (s : State) : Result :=
  commandWhenIdle (reserved != 0#28) acceptScale s

/-- CLRERR (R230, R253). -/
def execClrerr (reserved : BitVec 28) (s : State) : Result :=
  commandWhenIdle (reserved != 0#28) acceptClrerr s

/-- A word with an illegal OPCODE (R230, 30_encoding.md R108): refused, CMD_BUSY before ILLEGAL_OP. -/
def execIllegal (_opcode : BitVec 4) (_rest : BitVec 28) (s : State) : Result :=
  if s.busy then raiseError .cmdBusy s else raiseError .illegalOp s

/-- WR CMD (R230), as the rule writes it: on the word, with its OPCODE and its reserved mask. -/
def execWrCmd (c : Word) (s : State) : Result :=
  let op : BitVec 4 := c.extractLsb' 0 4
  if s.busy then raiseError .cmdBusy s
  else if legalOpcode op = false then raiseError .illegalOp s
  else if c &&& reservedMask op ≠ 0#32 then raiseError .reserved s
  else
    match op with
    | 1#4 => acceptSetpal (c.extractLsb' 4 9) s
    | 2#4 => acceptSetfmt (Format.ofBit (c.extractLsb' 4 1)) s
    | 3#4 => acceptSelgeom (c.extractLsb' 4 1 == 1#1) (c.extractLsb' 5 2) (c.extractLsb' 8 2)
        (c.extractLsb' 10 2) (c.extractLsb' 12 2) (c.extractLsb' 16 3) s
    | 4#4 => acceptScale s
    | _ => acceptClrerr s

end Sys2Proof.Machine
end

