-- ==== Sys2Proof/Machine/Registers.lean ====
section
/-! DEFINITION. The register accesses but WR CMD (44_commands.md, section 1). -/

namespace Sys2Proof.Machine

/-- RD CMD (R220). -/
def execRdCmd (s : State) : Result := answer 0#32 s

/-- RD STATUS (R224). -/
def execRdStatus (s : State) : Result := answer (statusWord s) s

/-- WR STATUS (R225): ignored, whatever BUSY is. -/
def execWrStatus (_v : Word) (s : State) : Result := .next s

/-- RD SRC_BASE (R221). -/
def execRdSrcBase (s : State) : Result := answer s.srcBase s

/-- WR SRC_BASE (R226). -/
def execWrSrcBase (v : Word) (s : State) : Result := writeWhenIdle s { s with srcBase := v }

/-- RD DST_BASE (R221). -/
def execRdDstBase (s : State) : Result := answer s.dstBase s

/-- WR DST_BASE (R226). -/
def execWrDstBase (v : Word) (s : State) : Result := writeWhenIdle s { s with dstBase := v }

/-- RD VCFG (R221). -/
def execRdVcfg (s : State) : Result := answer (vcfgWord s) s

/-- WR VCFG (R227): bits 7:0, 24:16 and 30:28 are stored, legal or not. -/
def execWrVcfg (v : Word) (s : State) : Result :=
  writeWhenIdle s
    { s with topskip := v.extractLsb' 0 8, vinc := v.extractLsb' 16 9, thr := v.extractLsb' 28 3 }

/-- RD PAL_ADDR (R221). -/
def execRdPalAddr (s : State) : Result := answer (palAddrWord s) s

/-- WR PAL_ADDR (R228). -/
def execWrPalAddr (v : Word) (s : State) : Result :=
  writeWhenIdle s { s with palAddr := v.extractLsb' 0 8 }

/-- RD PAL_DATA (R220). -/
def execRdPalData (s : State) : Result := answer 0#32 s

/-- WR PAL_DATA (R229): `STAGE[PAL_ADDR]` takes the value and PAL_ADDR advances, modulo 256. -/
def execWrPalData (v : Word) (s : State) : Result :=
  writeWhenIdle s
    { s with stage := tablePut s.stage s.palAddr.toNat v, palAddr := s.palAddr + 1#8 }

/-- RD and WR of an unmapped offset (R223): a read answers 0, a write does nothing, whatever BUSY is. -/
def execRdWrUnmapped (_offset : BitVec 6) (access : Access) (s : State) : Result :=
  match access with
  | .read => answer 0#32 s
  | .write _ => .next s

end Sys2Proof.Machine
end

