-- ==== Sys2Proof/Machine/Dispatch.lean ====
section
/-! DEFINITION. Which meaning each operation has. -/

namespace Sys2Proof.Machine

def exec (i : Instr) (s : State) : Host.Outcome State Fault Refusal :=
  match i with
  | .setpal count r => Sys2Proof.Machine.execSetpal count r s
  | .setfmt fmt r => Sys2Proof.Machine.execSetfmt fmt r s
  | .selgeom en n p0 p1 p2 supp r7 r14 r19 => Sys2Proof.Machine.execSelgeom en n p0 p1 p2 supp r7 r14 r19 s
  | .scale r => Sys2Proof.Machine.execScale r s
  | .clrerr r => Sys2Proof.Machine.execClrerr r s
  | .illegal op rest => Sys2Proof.Machine.execIllegal op rest s
  | .wrCmd c => Sys2Proof.Machine.execWrCmd c s
  | .rdCmd => Sys2Proof.Machine.execRdCmd s
  | .rdStatus => Sys2Proof.Machine.execRdStatus s
  | .wrStatus v => Sys2Proof.Machine.execWrStatus v s
  | .rdSrcBase => Sys2Proof.Machine.execRdSrcBase s
  | .wrSrcBase v => Sys2Proof.Machine.execWrSrcBase v s
  | .rdDstBase => Sys2Proof.Machine.execRdDstBase s
  | .wrDstBase v => Sys2Proof.Machine.execWrDstBase v s
  | .rdVcfg => Sys2Proof.Machine.execRdVcfg s
  | .wrVcfg v => Sys2Proof.Machine.execWrVcfg v s
  | .rdPalAddr => Sys2Proof.Machine.execRdPalAddr s
  | .wrPalAddr v => Sys2Proof.Machine.execWrPalAddr v s
  | .rdPalData => Sys2Proof.Machine.execRdPalData s
  | .wrPalData v => Sys2Proof.Machine.execWrPalData v s
  | .rdWrUnmapped off a => Sys2Proof.Machine.execRdWrUnmapped off a s

end Sys2Proof.Machine
end

