-- ==== Sys2Proof/Machine/Packer.lean ====
section
/-! DEFINITION. The Output Packer (43_packer.md): the frames of the three routes. `none` is the fault
INDEX_RANGE inside the frame (60_exceptions.md R271). -/

namespace Sys2Proof.Machine

/-- The bytes of a line of words, in the order they lie in memory. -/
def lineBytes (d : List Word) : List Byte := d.flatMap (fun w => bytesLE w .word)

/-- `EmitLine(y, D)` (R207): the words of a line stored in ascending order at its address. -/
def emitLine (p : FrameRecord) (y : Nat) (d : List Word) (m : Memory) : Memory :=
  m.write (destLineAddr p y) (lineBytes d)

/-- One line of the NATIVE route: the words of `NativeCopy/Packed16` (R204) or, through the paired
table, of `NativeCopy/Indexed8` (R205). -/
def nativeLine (p : FrameRecord) (pair : Table 32) (m : Memory) (l : Nat) : Option (List Word) :=
  let line := m.window (srcLineAddr p l) (srcPitch p.fmt)
  match p.fmt with
  | .packed16 =>
    some ((List.range Config.srcWords).map fun k => line.readLE (srcLineAddr p l + 4 * k) .word)
  | .indexed8 =>
    collect ((List.range Config.srcWords).map fun k =>
      pairLookup pair p.palN ((line.readLE (srcLineAddr p l + 2 * k) .half).setWidth 16))

/-- `n` lines of the NATIVE route, from line `l` on (R204, R205). -/
def nativeLines (p : FrameRecord) (pair : Table 32) : Nat → Nat → Memory → Option Memory
  | 0, _, m => some m
  | n + 1, l, m =>
    match nativeLine p pair m l with
    | none => none
    | some d => nativeLines p pair n (l + 1) (emitLine p l d m)

/-- The line function of a scaled route (R206). -/
def scaleLine (route : Route) (s : List Word) : List Word :=
  match route with
  | .h54 => h54Line s
  | .h32 => h32Line s
  | .native => s

/-- `n` lines of a scaled route, from the current E, dh and y on (R206, 42_vertical.md R186). -/
def scaledLines (p : FrameRecord) (pal16 : Table 16) : Nat → VState → Memory → Option Memory
  | 0, _, m => some m
  | n + 1, v, m =>
    match vLine p pal16 m v with
    | none => none
    | some s => scaledLines p pal16 n (vStep p v) (emitLine p v.y (scaleLine p.route s) m)

/-- The whole frame of a SCALE (44_commands.md R250). -/
def frame (p : FrameRecord) (pal16 : Table 16) (pair : Table 32) (m : Memory) : Option Memory :=
  match p.route with
  | .native => nativeLines p pair Config.srcHeight 0 m
  | .h54 | .h32 => scaledLines p pal16 (destHeight p.geom) vStart m

end Sys2Proof.Machine
end

