-- ==== Sys2Proof/Machine/Engine.lean ====
section
/-! DEFINITION. The engine's completion step (44_commands.md R237, R250, R258). -/

namespace Sys2Proof.Machine

/-- Completion of `PALETTE(n)` (R237). -/
def completePalette (n : BitVec 9) (s : State) : State :=
  let pal16 := rebuildPal16 s.stage n.toNat
  { s with pal16 := pal16, pair := rebuildPair pal16, palN := n, palValid := true, inflight := .none }

/-- Completion of `SCALE(P)` (R250), one atomic step (20_memory.md R87). A frame that meets an index out
of range is the fault INDEX_RANGE as a whole, and what the destination then holds is not specified
(60_exceptions.md R271). -/
def completeScale (p : FrameRecord) (s : State) : Result :=
  match frame p s.pal16 s.pair s.mem with
  | none => faultContract .indexRange (freeDestination p s)
  | some m => .next { s with mem := m, inflight := .none }

/-- A turn of the engine (R258). With nothing in flight the completion step is not enabled and the turn
passes: notes/assumptions/10.md. -/
def engineTurn (s : State) : Result :=
  match s.inflight with
  | .none => .next s
  | .palette n => .next (completePalette n s)
  | .scale p => completeScale p s

end Sys2Proof.Machine
end

