-- ==== Sys2Proof/Machine/HostPort.lean ====
section
/-! DEFINITION. What each agent's turn does: an operation on the port, a host's own access to bus memory,
the pseudo-instruction WAIT, a turn of the engine, the reset input. -/

namespace Sys2Proof.Machine

/-- The state with the turns to come replaced. -/
def State.withInputs (s : State) (inputs : List HostOp) : State := { s with inputs := inputs }

/-- The bytes a bus access touches. -/
def accessRegion (t : BusAccess) : Region := { base := t.addr.toNat, bytes := t.size.bytes }

/-- The race rule (20_memory.md R84): while a SCALE is in flight, a host write to its source region, or
a host read or write of its destination region. -/
def races (t : BusAccess) (s : State) : Bool :=
  match s.inflight with
  | .none => false
  | .palette _ => false
  | .scale p =>
    match t.access with
    | .read => (accessRegion t).meets (destRegion p)
    | .write _ => (accessRegion t).meets (srcRegion p) || (accessRegion t).meets (destRegion p)

/-- A host's own access to bus memory (00_scope.md R29). The byte order is the bus's (20_memory.md R72),
at any alignment: notes/assumptions/11.md. DESIGN CHOICE: an access that passes the last address is
`noSuchAddress` even where it races a SCALE too; the spec gives no order (60_exceptions.md R270):
notes/assumptions/19.md. -/
def hostMemory (t : BusAccess) (s : State) : Result :=
  if (accessRegion t).wraps then .fault .noSuchAddress
  else if races t s then faultContract .race s
  else
    match t.access with
    | .read => answer (s.mem.readLE t.addr.toNat t.size) s
    | .write v => .next { s with mem := s.mem.write t.addr.toNat (bytesLE v t.size) }

/-- An operation on the port: a command (30_encoding.md R100), a register access (R111), an access of
another shape to the window (44_commands.md R219), or an access to bus memory. DESIGN CHOICE: an access
that shares a byte with the window is REG_ACCESS even where it races a SCALE or passes the last address
too; the spec gives no order (60_exceptions.md R270): notes/assumptions/19.md. -/
def runPort (p : PortInput) (s : State) : Result :=
  match p with
  | .command c => exec (decodeCommand c) s
  | .access t =>
    match decodeAccess s.regBase t with
    | .ok i => exec i s
    | .error .accessShape => faultContract .regAccess s
    | .error .outsideWindow => hostMemory t s

/-- One turn of the loop WAIT expands to (30_encoding.md R117): RD STATUS, and again while bit 0 of what
was read is 1. DESIGN CHOICE: after a poll that reads BUSY = 1 the engine has its turn before the next
poll: notes/assumptions/9.md. -/
def waitPoll (s : State) : Result :=
  let polled := { s with lastRead := some (statusWord s) }
  if (statusWord s).getLsbD 0 then .next { polled with inputs := .engine :: .wait :: s.inputs }
  else .next polled

/-- What a reset leaves of a command in flight (70_reset_and_hazards.md R291, R292): nothing, but for the
free bytes in the destination region of a SCALE. -/
def abandon (s : State) : State :=
  match s.inflight with
  | .none => s
  | .palette _ => s
  | .scale p => freeDestination p s

/-- The reset input (70_reset_and_hazards.md R290 to R292): the state of 10_state.md R53, whatever the
block was doing. FAULTED, REG_BASE, and what is not the block's (the host's last value, the turns to
come) stay. -/
def platformReset (s : State) : State :=
  { State.resetAt s.regWindow with
    mem := (abandon s).mem
    faulted := s.faulted
    inputs := s.inputs
    lastRead := s.lastRead
    freeIndex := (abandon s).freeIndex }

/-- One agent's turn. -/
def perform (op : HostOp) (s : State) : Result :=
  match op with
  | .port p => runPort p s
  | .wait => waitPoll s
  | .engine => engineTurn s
  | .reset => .next (platformReset s)

end Sys2Proof.Machine
end

