-- ==== Sys2Proof/Machine/Step.lean ====
section
/-! DEFINITION. One step of the machine, and how an instruction is placed where the step takes it. -/

namespace Sys2Proof.Machine

/-- One step. A FAULTED state takes none (60_exceptions.md R270). The next turn of `inputs` is taken off
and performed; when no turn is left the engine completes what is in flight (44_commands.md R259), and
with nothing in flight the block holds its state (60_exceptions.md R280). -/
def step (s : State) : Host.Outcome State Fault Refusal :=
  match s.faulted with
  | some kind => .fault (.contract kind s)
  | none =>
    match s.inputs with
    | [] => engineTurn s
    | op :: rest => perform op (s.withInputs rest)

/-- `s` with the operation that a word of spec/opcode_table.json names placed first among the turns, so
that the next step runs it: notes/assumptions/1.md. -/
def State.withFetchWord (s : State) (nbits w : Nat) : State :=
  s.withInputs (.port (tableInput s.regBase nbits w) :: s.inputs)

end Sys2Proof.Machine
end

