-- ==== Sys2Proof/Machine/Listing.lean ====
section
/-! DEFINITION. Host listings: the statements and pseudo-instructions of 30_encoding.md, sections 5 and
6, as the turns they stand for. -/

namespace Sys2Proof.Machine

/-- `WR REG, value` and `RD REG` (R114), at the register's offset. -/
def wrReg (base : Word) (off : BitVec 6) (v : Word) : HostOp := .port (registerAccess base off (.write v))

/-- See `wrReg`. -/
def rdReg (base : Word) (off : BitVec 6) : HostOp := .port (registerAccess base off .read)

/-- `SETPAL n` (R113). -/
def setpalStatement (n : BitVec 9) : HostOp := .port (.command (0#19 ++ n ++ 1#4))

/-- `SETFMT f` (R113). -/
def setfmtStatement (f : Format) : HostOp := .port (.command (0#27 ++ f.bit ++ 2#4))

/-- The code of the k-th preference, 0 in an unused slot (R113). -/
def slotCode (prefs : List Geometry) (k : Nat) : BitVec 2 :=
  match prefs[k]? with
  | some g => geometryCode g
  | none => 0#2

/-- `SELGEOM scale, [p0, p1, p2], supp` (R113). -/
def selgeomStatement (scaleEn : Bool) (prefs : List Geometry) (supp : BitVec 3) : HostOp :=
  .port (.command (0#13 ++ supp ++ 0#2 ++ slotCode prefs 2 ++ slotCode prefs 1 ++ slotCode prefs 0
    ++ 0#1 ++ BitVec.ofNat 2 prefs.length ++ BitVec.ofBool scaleEn ++ 3#4))

/-- `SCALE` (R113). -/
def scaleStatement : HostOp := .port (.command 0x4#32)

/-- `CLRERR` (R113). -/
def clrerrStatement : HostOp := .port (.command 0x5#32)

/-- `LOADPAL c0, …, c(n-1)` (R118). -/
def loadpal (base : Word) (colours : List Word) : List HostOp :=
  wrReg base 0x14#6 0#32 :: colours.map (wrReg base 0x18#6)
    ++ [setpalStatement (BitVec.ofNat 9 colours.length), .wait]

/-- `FRAME src, dst` (R119). -/
def frameStatement (base src dst : Word) : List HostOp :=
  [wrReg base 0x08#6 src, wrReg base 0x0C#6 dst, scaleStatement, .wait]

/-- `MODE fmt, scale, [prefs], supp` (R120). -/
def modeStatement (f : Format) (scaleEn : Bool) (prefs : List Geometry) (supp : BitVec 3) :
    List HostOp :=
  [setfmtStatement f, selgeomStatement scaleEn prefs supp]

end Sys2Proof.Machine
end

