-- ==== Sys2Proof/Safety.lean ====
section
/-! DEFINITION. The terms in which claims about the machine are stated: the invariant of the state, what a
SCALE asks of it, what counts as a safe run, and the picture a SCALE must produce, pixel by pixel. -/

namespace Sys2Proof.Machine

/-! ## The invariant -/

/-- What the paired table holds, given the single table (40_palette.md R132, R134). -/
def PairMatches (pal16 : Table 16) (pair : Table 32) : Prop :=
  ∀ i j, i < 256 → j < 256 →
    tableGet pair (i * 256 + j) =
      match tableGet pal16 i, tableGet pal16 j with
      | some ci, some cj => some (pairWord cj ci)
      | _, _ => none

/-- What holds while a command is in flight: the count of a SETPAL is legal and PAL_VALID is 0
(44_commands.md R236); the record of a SCALE is what its acceptance checked and latched, and the
registers and the mode still say the same (44_commands.md R248, 70_reset_and_hazards.md R301). -/
def InFlightOk (s : State) : Prop :=
  match s.inflight with
  | .none => True
  | .palette n => 1 ≤ n.toNat ∧ n.toNat ≤ 256 ∧ s.palValid = false
  | .scale p =>
    p = latchedRecord s ∧ s.geomValid = true ∧ (p.fmt = .indexed8 → s.palValid = true)
      ∧ p.srcBase.extractLsb' 0 2 = 0#2 ∧ p.dstBase.extractLsb' 0 2 = 0#2
      ∧ (p.route ≠ .native → vcfgLegal p = true) ∧ regionCheck p s = none

/-- The invariant that every step keeps. -/
structure State.Inv (s : State) : Prop where
  memory : s.mem.wf
  stage : tableWf s.stage 256
  pal16 : tableWf s.pal16 s.palN.toNat
  pair : tableWf s.pair 65536
  pairMatches : PairMatches s.pal16 s.pair
  palN : s.palN.toNat ≤ 256
  error : s.err = false ↔ s.errCode = .none
  geometry : s.geomValid = false → s.actGeom = .native ∧ s.actScaleEn = false
  inflight : InFlightOk s
  running : s.faulted = none

/-! ## What a SCALE asks of the state -/

/-- The tests of `VcfgCheck` hold where they are made, on the scaled routes (42_vertical.md R181,
44_commands.md R248). -/
abbrev VcfgPasses (s : State) : Prop :=
  s.actScaleEn = true → s.actGeom ≠ .native →
    1 ≤ s.vinc.toNat ∧ s.vinc.toNat ≤ destHeight s.actGeom ∧ s.thr.toNat ≤ 4 ∧
    s.topskip.toNat + (destHeight s.actGeom - 1) * s.vinc.toNat / destHeight s.actGeom + 1 ≤ 239

/-- `[a, a + m)` and `[b, b + n)` share no address. -/
abbrev Apart (a m b n : Nat) : Prop := a + m ≤ b ∨ b + n ≤ a

/-- Every check of 44_commands.md R248 passes, the preconditions of 20_memory.md R82 with them. -/
structure ScaleReady (s : State) : Prop where
  geometry : s.geomValid = true
  palette : s.actFmt = .indexed8 → s.palValid = true
  aligned : s.srcBase.toNat % 4 = 0 ∧ s.dstBase.toNat % 4 = 0
  vcfg : VcfgPasses s
  top : s.srcBase.toNat + 240 * srcPitch s.actFmt ≤ 2 ^ 32 ∧
    s.dstBase.toNat + destHeight s.actGeom * (2 * destWidth s.actGeom) ≤ 2 ^ 32
  apart : Apart s.srcBase.toNat (240 * srcPitch s.actFmt)
    s.dstBase.toNat (destHeight s.actGeom * (2 * destWidth s.actGeom))
  window : Apart s.srcBase.toNat (240 * srcPitch s.actFmt) s.regBase.toNat 64 ∧
    Apart s.dstBase.toNat (destHeight s.actGeom * (2 * destWidth s.actGeom)) s.regBase.toNat 64

/-! ## Safe runs -/

/-- A run of `k` steps is safe if it stops with no fault and no refusal. -/
def SafeFor (k : Nat) (s : State) : Prop := ∃ t, Sys2Proof.core.run k s = .next t

/-! ## Pixels -/

/-- `R(p)`, `G(p)`, `B(p)` (00_scope.md R26). -/
def redOf (p : Pixel) : Nat := (p.extractLsb' 11 5).toNat

/-- See `redOf`. -/
def greenOf (p : Pixel) : Nat := (p.extractLsb' 5 6).toNat

/-- See `redOf`. -/
def blueOf (p : Pixel) : Nat := (p.extractLsb' 0 5).toNat

/-- The 16-bit value at an address, little-endian (20_memory.md R72). -/
def memPixel (m : Memory) (a : Nat) : Pixel := m.read (a + 1) ++ m.read a

/-- The index byte of source pixel `(x, l)` of an INDEXED8 frame (20_memory.md R74). -/
def sourceIndex (s : State) (p : FrameRecord) (l x : Nat) : Nat :=
  (s.mem.read (p.srcBase.toNat + l * 320 + x)).toNat

/-- The colour of source pixel `(x, l)`: the value in memory, or the palette's entry (20_memory.md R74,
40_palette.md R137). -/
def sourcePixel (s : State) (p : FrameRecord) (l x : Nat) : Pixel :=
  match p.fmt with
  | .packed16 => memPixel s.mem (p.srcBase.toNat + l * 640 + 2 * x)
  | .indexed8 => (tableGet s.pal16 (sourceIndex s p l x)).getD 0#16

/-- Destination pixel `(x, y)` (20_memory.md R76). -/
def destPixel (m : Memory) (p : FrameRecord) (y x : Nat) : Pixel :=
  memPixel m (p.dstBase.toNat + y * (2 * destWidth p.geom) + 2 * x)

/-- Every index byte of line `l` is below PAL_N and names a defined entry (40_palette.md R136). -/
def LineIndicesLegal (s : State) (p : FrameRecord) (l : Nat) : Prop :=
  p.fmt = .indexed8 → ∀ x, x < 320 →
    sourceIndex s p l x < p.palN.toNat ∧ (tableGet s.pal16 (sourceIndex s p l x)).isSome = true

/-- The first frame line that destination line `y` is made from (42_vertical.md R187, R188). -/
def firstLine (p : FrameRecord) (y : Nat) : Nat :=
  p.topskip.toNat + y * p.vinc.toNat / destHeight p.geom

/-- Destination line `y` blends with the next frame line (42_vertical.md R187). -/
def blends (p : FrameRecord) (y : Nat) : Bool :=
  decide (destHeight p.geom * p.thr.toNat / 4 ≤ y * p.vinc.toNat % destHeight p.geom)

/-- Every line that a scaled frame reads has legal indices. -/
def ReadLinesLegal (s : State) (p : FrameRecord) : Prop :=
  ∀ y, y < destHeight p.geom →
    LineIndicesLegal s p (firstLine p y) ∧ (blends p y = true → LineIndicesLegal s p (firstLine p y + 1))

/-- Pixel `x` of the line that the vertical stage makes for destination line `y` (42_vertical.md R184),
from one source line, even-masked, or from two, averaged and even-masked. -/
def verticalPixel (s : State) (p : FrameRecord) (y x : Nat) : Pixel :=
  if blends p y then
    even16 (avg16 (even16 (sourcePixel s p (firstLine p y) x))
      (sourcePixel s p (firstLine p y + 1) x))
  else even16 (sourcePixel s p (firstLine p y) x)

/-- Pixel `x` of destination line `y` on a scaled route, by the lane forms of 41_horizontal.md R158 and
R161. -/
def scaledPixel (s : State) (p : FrameRecord) (y x : Nat) : Pixel :=
  match p.route with
  | .native => sourcePixel s p y x
  | .h54 =>
    let v := fun j => verticalPixel s p y (8 * (x / 10) + j)
    match x % 10 with
    | 0 => v 0
    | 1 => v 1
    | 2 => avg16 (v 1) (v 2)
    | 3 => v 2
    | 4 => v 3
    | 5 => v 4
    | 6 => v 5
    | 7 => avg16 (v 5) (v 6)
    | 8 => v 6
    | _ => v 7
  | .h32 =>
    let v := fun j => verticalPixel s p y (4 * (x / 6) + j)
    match x % 6 with
    | 0 => v 0
    | 1 => avg16 (v 0) (v 1)
    | 2 => v 1
    | 3 => v 2
    | 4 => avg16 (v 2) (v 3)
    | _ => v 3

end Sys2Proof.Machine
end

