-- ==== Sys2Proof/Certificates/Slice0/Obligations.lean ====
section
/-! DEFINITION. The statements for the provers. Each docstring names the rules of spec/ it formalises; a
clause that rests on a choice of the model says so and names its log entry. -/

open Sys2Proof Sys2Proof.Machine

/-! ## Encoding -/

/-- Decoding what a host puts on the port for a well-formed operation gives the operation back, wherever
the register window lies (30_encoding.md R100 to R111). That the operation stands in the port's two
forms, command statement and bus access, is the model's choice (notes/assumptions/2.md). -/
def Obligations.DecodeInvertsEncode : Prop :=
  ∀ (w : BitVec 26) (i : Instr), i.wf = true → decode (w ++ 0#6) (encode (w ++ 0#6) i) = .ok i

/-- The other direction: what decodes is the encoding of what it decodes to, and that is well-formed, so
no bit of a command word and no register access is dropped. -/
def Obligations.EncodeInvertsDecode : Prop :=
  ∀ (w : BitVec 26) (p : PortInput) (i : Instr), decode (w ++ 0#6) p = .ok i →
    i.wf = true ∧ encode (w ++ 0#6) i = p

/-- The ten words of 30_encoding.md R121 decode to their statements, and their statements encode to
them. -/
def Obligations.ReferenceCommandWords : Prop :=
  ∀ e ∈ [(0x00001001#32, Instr.setpal 256#9 0#19), (0x00000031#32, .setpal 3#9 0#19),
      (0x00000002#32, .setfmt .indexed8 0#27), (0x00000012#32, .setfmt .packed16 0#27),
      (0x00070673#32, .selgeom true 3#2 2#2 1#2 0#2 7#3 0#1 0#2 0#13),
      (0x00030673#32, .selgeom true 3#2 2#2 1#2 0#2 3#3 0#1 0#2 0#13),
      (0x00010023#32, .selgeom false 1#2 0#2 0#2 0#2 1#3 0#1 0#2 0#13),
      (0x00040013#32, .selgeom true 0#2 0#2 0#2 0#2 4#3 0#1 0#2 0#13),
      (0x00000004#32, .scale 0#28), (0x00000005#32, .clrerr 0#28)],
    decodeCommand e.1 = e.2 ∧ encode 0#32 e.2 = .command e.1

/-- A step runs the decoded operation: when the next turn is an operation that decodes to `i`, the step
is `exec i`, with that turn taken off the list (the list of turns is the model's,
notes/assumptions/1.md). -/
def Obligations.StepRunsTheDecodedOperation : Prop :=
  ∀ (s : State) (p : PortInput) (rest : List HostOp) (i : Instr),
    s.faulted = none → s.inputs = .port p :: rest → decode s.regBase p = .ok i → i.wf = true →
    step s = exec i { s with inputs := rest }

/-- A turn of the engine, or no turn left, runs the engine (44_commands.md R258, R259). That the engine
goes on when no turn is left is the model's choice (notes/assumptions/1.md). -/
def Obligations.StepRunsTheEngine : Prop :=
  ∀ s : State, s.faulted = none →
    (s.inputs = [] → step s = engineTurn s) ∧
    (∀ rest, s.inputs = .engine :: rest → step s = engineTurn { s with inputs := rest })

/-- WR CMD of a word does what the command statement of that word does, for every word, in every state
(44_commands.md R230 with the reserved masks of 30_encoding.md R109 against the field tables of R102 to
R106). -/
def Obligations.WrCmdIsTheCommandOfItsWord : Prop :=
  ∀ (s : State) (c : Word), exec (.wrCmd c) s = exec (decodeCommand c) s

/-- An access that touches the register window and is not a 32-bit access at a multiple of 4 in it is
the contract fault REG_ACCESS (44_commands.md R219); one that is decodes to a register access. That an access reaching into the window
from below is one to it is deduced (notes/assumptions/15.md), and that it is REG_ACCESS even where it
also races a SCALE or passes the last address is the model's choice (notes/assumptions/19.md). -/
def Obligations.WindowAccessShape : Prop :=
  ∀ (s : State) (a : BusAccess) (rest : List HostOp),
    s.faulted = none → s.inputs = .port (.access a) :: rest →
    (∃ x, a.addr.toNat ≤ x ∧ x < a.addr.toNat + a.size.bytes ∧
      s.regBase.toNat ≤ x ∧ x < s.regBase.toNat + 64) →
    ((a.size = .word ∧ ∃ k, k < 16 ∧ a.addr.toNat = s.regBase.toNat + 4 * k) →
      ∃ i, decode s.regBase (.access a) = .ok i) ∧
    (¬ (a.size = .word ∧ ∃ k, k < 16 ∧ a.addr.toNat = s.regBase.toNat + 4 * k) →
      step s = .fault (.contract .regAccess
        { s with inputs := rest, faulted := some .regAccess }))

/-! ## Errors -/

/-- `raise Error(code)` as 60_exceptions.md R262 writes it, and no more (R263). -/
def Obligations.ErrorRecordKeepsTheFirst : Prop :=
  ∀ (s : State) (code : ErrorCode),
    (s.err = true → raiseError code s = .next s) ∧
    (s.err = false → raiseError code s = .next { s with err := true, errCode := code })

/-- ERR and ERR_CODE change in two ways only: from clear to set with a code, or to clear, by a reset or
by a CLRERR accepted while BUSY is 0 (10_state.md R38, 60_exceptions.md R262). -/
def Obligations.OnlyClrerrAndResetClearTheError : Prop :=
  ∀ s t : State, step s = .next t →
    (t.err = s.err ∧ t.errCode = s.errCode) ∨
    (s.err = false ∧ t.err = true ∧ t.errCode ≠ .none) ∨
    (t.err = false ∧ t.errCode = .none ∧
      (s.inputs.head? = some .reset ∨
       (s.busy = false ∧ ∃ p i, s.inputs.head? = some (.port p) ∧ decode s.regBase p = .ok i ∧
          (i = .clrerr 0#28 ∨ i = .wrCmd 5#32))))

/-- A command written while BUSY is 1 is refused with CMD_BUSY before any other check, whatever its
word, and nothing but the error record changes (44_commands.md R230, 60_exceptions.md R263, R265). -/
def Obligations.CommandWhileBusyIsRefused : Prop :=
  ∀ (s : State) (c : Word), s.busy = true →
    exec (.wrCmd c) s = .next (recordError .cmdBusy s) ∧
    exec (decodeCommand c) s = .next (recordError .cmdBusy s)

/-- Writes while busy (44_commands.md R222): the five registers refuse with WRITE_BUSY and nothing but
the error record changes; a write to CMD is refused with CMD_BUSY (R230); STATUS and unmapped offsets
ignore a write whatever BUSY is. -/
def Obligations.RegisterWriteWhileBusyIsRefused : Prop :=
  ∀ (s : State) (v : Word),
    (s.busy = true →
      exec (.wrSrcBase v) s = .next (recordError .writeBusy s) ∧
      exec (.wrDstBase v) s = .next (recordError .writeBusy s) ∧
      exec (.wrVcfg v) s = .next (recordError .writeBusy s) ∧
      exec (.wrPalAddr v) s = .next (recordError .writeBusy s) ∧
      exec (.wrPalData v) s = .next (recordError .writeBusy s) ∧
      exec (.wrCmd v) s = .next (recordError .cmdBusy s)) ∧
    exec (.wrStatus v) s = .next s ∧
    ∀ off, unmappedOffset off = true → exec (.rdWrUnmapped off (.write v)) s = .next s

/-- An OPCODE of 0x0 or 0x6 to 0xF, written while BUSY is 0, is refused with ILLEGAL_OP and changes
nothing else (30_encoding.md R108). -/
def Obligations.IllegalOpcodeIsRefused : Prop :=
  ∀ (s : State) (op : BitVec 4) (rest : BitVec 28), s.busy = false →
    (op = 0#4 ∨ 6 ≤ op.toNat) →
    exec (.illegal op rest) s = .next (recordError .illegalOp s) ∧
    exec (.wrCmd (rest ++ op)) s = .next (recordError .illegalOp s)

/-- A legal OPCODE with a reserved bit of its format set, or a SELGEOM with geometry code 3 in a used
slot, is refused with RESERVED while BUSY is 0 (30_encoding.md R109). -/
def Obligations.ReservedBitsAreRefused : Prop :=
  ∀ (s : State) (c : Word), s.busy = false →
    ((c.extractLsb' 0 4 = 1#4 ∧ c &&& 0xFFFFE000#32 ≠ 0#32) ∨
     (c.extractLsb' 0 4 = 2#4 ∧ c &&& 0xFFFFFFE0#32 ≠ 0#32) ∨
     (c.extractLsb' 0 4 = 3#4 ∧ c &&& 0xFFF8C080#32 ≠ 0#32) ∨
     (c.extractLsb' 0 4 = 4#4 ∧ c &&& 0xFFFFFFF0#32 ≠ 0#32) ∨
     (c.extractLsb' 0 4 = 5#4 ∧ c &&& 0xFFFFFFF0#32 ≠ 0#32) ∨
     (c.extractLsb' 0 4 = 3#4 ∧
       ∃ k, k < (c.extractLsb' 5 2).toNat ∧ c.extractLsb' (8 + 2 * k) 2 = 3#2)) →
    exec (.wrCmd c) s = .next (recordError .reserved s) ∧
    exec (decodeCommand c) s = .next (recordError .reserved s)

/-! ## Register accesses -/

/-- RD CMD, RD PAL_DATA, RD SRC_BASE, RD DST_BASE and RD PAL_ADDR answer, whatever BUSY is, and change
nothing of the block (44_commands.md R220, R221). -/
def Obligations.PlainReadsAnswer : Prop :=
  ∀ s : State,
    exec .rdCmd s = .next { s with lastRead := some 0#32 } ∧
    exec .rdPalData s = .next { s with lastRead := some 0#32 } ∧
    exec .rdSrcBase s = .next { s with lastRead := some s.srcBase } ∧
    exec .rdDstBase s = .next { s with lastRead := some s.dstBase } ∧
    exec .rdPalAddr s = .next { s with lastRead := some (0#24 ++ s.palAddr) }

/-- RD VCFG answers the three fields in their places and 0 in the reserved bits (10_state.md R40,
44_commands.md R221), and changes nothing of the block. -/
def Obligations.VcfgReadsBackItsFields : Prop :=
  ∀ s : State, ∃ v : Word, exec .rdVcfg s = .next { s with lastRead := some v } ∧
    v.extractLsb' 0 8 = s.topskip ∧ v.extractLsb' 8 8 = 0#8 ∧ v.extractLsb' 16 9 = s.vinc ∧
    v.extractLsb' 25 3 = 0#3 ∧ v.extractLsb' 28 3 = s.thr ∧ v.extractLsb' 31 1 = 0#1

/-- RD STATUS answers every field of 10_state.md R34 in its place (44_commands.md R224), and changes
nothing of the block. -/
def Obligations.StatusReadsItsFields : Prop :=
  ∀ s : State, ∃ v : Word, exec .rdStatus s = .next { s with lastRead := some v } ∧
    (v.getLsbD 0 = true ↔ s.inflight ≠ .none) ∧
    v.getLsbD 1 = s.palValid ∧ v.getLsbD 2 = s.geomValid ∧ v.getLsbD 3 = s.err ∧
    v.extractLsb' 4 4 = s.errCode.bits ∧
    v.extractLsb' 8 2 = (if s.geomValid = true then geometryCode s.actGeom else 0#2) ∧
    v.getLsbD 10 = s.actScaleEn ∧ (v.getLsbD 11 = true ↔ s.actFmt = .packed16) ∧
    v.extractLsb' 12 9 = s.palN ∧ v.extractLsb' 21 11 = 0#11

/-- The numbers of the error codes (60_exceptions.md R261): these eleven, and no number above 10. -/
def Obligations.ErrorCodeNumbers : Prop :=
  ErrorCode.none.bits = 0#4 ∧ ErrorCode.illegalOp.bits = 1#4 ∧ ErrorCode.reserved.bits = 2#4 ∧
  ErrorCode.cmdBusy.bits = 3#4 ∧ ErrorCode.writeBusy.bits = 4#4 ∧ ErrorCode.badCount.bits = 5#4 ∧
  ErrorCode.noGeometry.bits = 6#4 ∧ ErrorCode.geomUnset.bits = 7#4 ∧
  ErrorCode.palUnset.bits = 8#4 ∧ ErrorCode.misaligned.bits = 9#4 ∧ ErrorCode.badVcfg.bits = 10#4 ∧
  ∀ c : ErrorCode, c.bits.toNat ≤ 10

/-- WR SRC_BASE and WR DST_BASE (44_commands.md R226): refused while busy, otherwise the register takes
the value, any value, and nothing else changes. -/
def Obligations.BaseRegisterWrites : Prop :=
  ∀ (s : State) (v : Word),
    (s.busy = true → exec (.wrSrcBase v) s = .next (recordError .writeBusy s) ∧
      exec (.wrDstBase v) s = .next (recordError .writeBusy s)) ∧
    (s.busy = false → exec (.wrSrcBase v) s = .next { s with srcBase := v } ∧
      exec (.wrDstBase v) s = .next { s with dstBase := v })

/-- WR VCFG (44_commands.md R227): refused while busy, otherwise bits 7:0, 24:16 and 30:28 are stored,
legal or not, nothing else changes, and a read then answers the value without its reserved bits. -/
def Obligations.VcfgWriteStoresThreeFields : Prop :=
  ∀ (s : State) (v : Word),
    (s.busy = true → exec (.wrVcfg v) s = .next (recordError .writeBusy s)) ∧
    (s.busy = false → ∃ t, exec (.wrVcfg v) s = .next t ∧
      t = { s with topskip := v.extractLsb' 0 8, vinc := v.extractLsb' 16 9,
                   thr := v.extractLsb' 28 3 } ∧
      exec .rdVcfg t = .next { t with lastRead := some (v &&& 0x71FF00FF#32) })

/-- WR PAL_ADDR (44_commands.md R228): refused while busy, otherwise bits 7:0 are the new index. -/
def Obligations.PalAddrWrite : Prop :=
  ∀ (s : State) (v : Word),
    (s.busy = true → exec (.wrPalAddr v) s = .next (recordError .writeBusy s)) ∧
    (s.busy = false → exec (.wrPalAddr v) s = .next { s with palAddr := v.extractLsb' 0 8 })

/-- WR PAL_DATA (44_commands.md R229): refused while busy, otherwise the staging entry at PAL_ADDR takes
the value, every other entry keeps its own, PAL_ADDR advances modulo 256, and nothing else changes. -/
def Obligations.PalDataWrite : Prop :=
  ∀ (s : State) (v : Word),
    (s.busy = true → exec (.wrPalData v) s = .next (recordError .writeBusy s)) ∧
    (s.busy = false → ∃ t, exec (.wrPalData v) s = .next t ∧
      t = { s with stage := t.stage, palAddr := t.palAddr } ∧
      tableGet t.stage s.palAddr.toNat = some v ∧
      (∀ i, i ≠ s.palAddr.toNat → tableGet t.stage i = tableGet s.stage i) ∧
      t.palAddr.toNat = (s.palAddr.toNat + 1) % 256)

/-- WR STATUS is ignored, and so is a write to an unmapped offset; a read of one answers 0. All three
whatever BUSY is (44_commands.md R223, R225). -/
def Obligations.StatusAndUnmappedAccesses : Prop :=
  ∀ (s : State) (v : Word) (off : BitVec 6), unmappedOffset off = true →
    exec (.wrStatus v) s = .next s ∧
    exec (.rdWrUnmapped off (.write v)) s = .next s ∧
    exec (.rdWrUnmapped off .read) s = .next { s with lastRead := some 0#32 }

/-! ## Commands at acceptance -/

/-- SETPAL with its reserved bits clear, while BUSY is 0 (44_commands.md R236): a COUNT of 1 to 256
clears PAL_VALID and puts PALETTE(N) in flight; any other is BAD_COUNT. -/
def Obligations.SetpalAtAcceptance : Prop :=
  ∀ (s : State) (n : BitVec 9), s.busy = false →
    (1 ≤ n.toNat ∧ n.toNat ≤ 256 →
      exec (.setpal n 0#19) s = .next { s with palValid := false, inflight := .palette n }) ∧
    (n.toNat = 0 ∨ 256 < n.toNat →
      exec (.setpal n 0#19) s = .next (recordError .badCount s))

/-- SETFMT with its reserved bits clear, while BUSY is 0, changes ACT_FMT and nothing else
(44_commands.md R239). -/
def Obligations.SetfmtSelectsTheFormat : Prop :=
  ∀ (s : State) (f : Format), s.busy = false →
    exec (.setfmt f 0#27) s = .next { s with actFmt := f }

/-- SELGEOM with its reserved bits clear, while BUSY is 0 (44_commands.md R241): code 3 in a used slot
is RESERVED before any slot is matched; else the first used slot whose geometry SUPP reports wins, with
SCALE_EN beside it; else NO_GEOMETRY. Nothing else changes. -/
def Obligations.SelgeomTakesTheFirstSupported : Prop :=
  ∀ (s : State) (en : Bool) (n p0 p1 p2 : BitVec 2) (supp : BitVec 3) (slot : Nat → BitVec 2),
    s.busy = false → slot 0 = p0 → slot 1 = p1 → slot 2 = p2 →
    ((∃ k, k < n.toNat ∧ slot k = 3#2) →
      exec (.selgeom en n p0 p1 p2 supp 0#1 0#2 0#13) s = .next (recordError .reserved s)) ∧
    ((∀ k, k < n.toNat → slot k ≠ 3#2) →
      (∀ k g, k < n.toNat → slot k = geometryCode g → supp.getLsbD (slot k).toNat = true →
        (∀ j, j < k → supp.getLsbD (slot j).toNat = false) →
        exec (.selgeom en n p0 p1 p2 supp 0#1 0#2 0#13) s =
          .next { s with actGeom := g, actScaleEn := en, geomValid := true }) ∧
      ((∀ k, k < n.toNat → supp.getLsbD (slot k).toNat = false) →
        exec (.selgeom en n p0 p1 p2 supp 0#1 0#2 0#13) s = .next (recordError .noGeometry s)))

/-- SCALE is accepted under exactly the conditions of 44_commands.md R248, with the register window where
the state has it, and then latches the record and changes nothing else. The regions are those of
20_memory.md R75 and R77, the VCFG tests those of 42_vertical.md R181. -/
def Obligations.ScaleIsAccepted : Prop :=
  ∀ s : State, s.busy = false → s.geomValid = true →
    (s.actFmt = .indexed8 → s.palValid = true) →
    s.srcBase.toNat % 4 = 0 → s.dstBase.toNat % 4 = 0 →
    (s.actScaleEn = true → s.actGeom ≠ .native →
      1 ≤ s.vinc.toNat ∧ s.vinc.toNat ≤ destHeight s.actGeom ∧ s.thr.toNat ≤ 4 ∧
      s.topskip.toNat + (destHeight s.actGeom - 1) * s.vinc.toNat / destHeight s.actGeom + 1 ≤ 239) →
    ∀ srcBytes dstBytes : Nat,
      srcBytes = 240 * srcPitch s.actFmt →
      dstBytes = destHeight s.actGeom * (2 * destWidth s.actGeom) →
      s.srcBase.toNat + srcBytes ≤ 2 ^ 32 → s.dstBase.toNat + dstBytes ≤ 2 ^ 32 →
      (s.srcBase.toNat + srcBytes ≤ s.dstBase.toNat ∨
        s.dstBase.toNat + dstBytes ≤ s.srcBase.toNat) →
      (s.srcBase.toNat + srcBytes ≤ s.regBase.toNat ∨ s.regBase.toNat + 64 ≤ s.srcBase.toNat) →
      (s.dstBase.toNat + dstBytes ≤ s.regBase.toNat ∨ s.regBase.toNat + 64 ≤ s.dstBase.toNat) →
      ∀ p : FrameRecord, p.route = selectRoute s.actGeom s.actScaleEn → p.fmt = s.actFmt →
        p.geom = s.actGeom → p.srcBase = s.srcBase → p.dstBase = s.dstBase →
        p.topskip = s.topskip → p.vinc = s.vinc → p.thr = s.thr → p.palN = s.palN →
        exec (.scale 0#28) s = .next { s with inflight := .scale p }

/-- The refusals of SCALE, in the order of 60_exceptions.md R265: GEOM_UNSET, PAL_UNSET, MISALIGNED,
BAD_VCFG, each only when the checks before it pass. -/
def Obligations.ScaleRefusalsInOrder : Prop :=
  ∀ s : State, s.busy = false →
    (s.geomValid = false → exec (.scale 0#28) s = .next (recordError .geomUnset s)) ∧
    (s.geomValid = true →
      (s.actFmt = .indexed8 ∧ s.palValid = false →
        exec (.scale 0#28) s = .next (recordError .palUnset s)) ∧
      (¬ (s.actFmt = .indexed8 ∧ s.palValid = false) →
        (s.srcBase.toNat % 4 ≠ 0 ∨ s.dstBase.toNat % 4 ≠ 0 →
          exec (.scale 0#28) s = .next (recordError .misaligned s)) ∧
        (s.srcBase.toNat % 4 = 0 ∧ s.dstBase.toNat % 4 = 0 →
          s.actScaleEn = true → s.actGeom ≠ .native →
          (s.vinc.toNat < 1 ∨ destHeight s.actGeom < s.vinc.toNat ∨ 4 < s.thr.toNat ∨
            239 < s.topskip.toNat
              + (destHeight s.actGeom - 1) * s.vinc.toNat / destHeight s.actGeom + 1) →
          exec (.scale 0#28) s = .next (recordError .badVcfg s))))

/-- The contract faults of a SCALE whose error checks pass (20_memory.md R82, 60_exceptions.md R265), for
every geometry, scaled or not: a region past 2^32 - 1 is ADDR_WRAP; else a byte in two of source region,
destination region and register window is OVERLAP. The stopped state is the state with FAULTED set. -/
def Obligations.ScaleContractFaults : Prop :=
  ∀ s : State, s.busy = false → s.geomValid = true →
    (s.actFmt = .indexed8 → s.palValid = true) →
    s.srcBase.toNat % 4 = 0 → s.dstBase.toNat % 4 = 0 → VcfgPasses s →
    ∀ inSrc inDst inWin : Nat → Prop,
      (∀ a, inSrc a ↔ s.srcBase.toNat ≤ a ∧ a < s.srcBase.toNat + 240 * srcPitch s.actFmt) →
      (∀ a, inDst a ↔ s.dstBase.toNat ≤ a ∧
        a < s.dstBase.toNat + destHeight s.actGeom * (2 * destWidth s.actGeom)) →
      (∀ a, inWin a ↔ s.regBase.toNat ≤ a ∧ a < s.regBase.toNat + 64) →
      ((∃ a, 2 ^ 32 ≤ a ∧ (inSrc a ∨ inDst a)) →
        exec (.scale 0#28) s =
          .fault (.contract .addrWrap { s with faulted := some .addrWrap })) ∧
      ((∀ a, inSrc a ∨ inDst a → a < 2 ^ 32) →
        (∃ a, inSrc a ∧ inDst a ∨ inSrc a ∧ inWin a ∨ inDst a ∧ inWin a) →
        exec (.scale 0#28) s =
          .fault (.contract .overlap { s with faulted := some .overlap }))

/-- CLRERR with its reserved bits clear, while BUSY is 0, clears ERR and ERR_CODE and nothing else
(44_commands.md R253). -/
def Obligations.ClrerrClearsTheRecord : Prop :=
  ∀ s : State, s.busy = false →
    exec (.clrerr 0#28) s = .next { s with err := false, errCode := .none }

/-- WR CMD, while BUSY is 0, of every word of a command that its checks pass: SETPAL with a legal COUNT,
SETFMT, SELGEOM of any number of preferences with a supported one among them and no code 3 in a used
slot, SCALE where its checks pass, CLRERR. The command is accepted and has its effect (44_commands.md
R230, R236, R239, R241, R248, R253). -/
def Obligations.WrCmdIssuesTheCommand : Prop :=
  ∀ s : State, s.busy = false →
    (∀ n : BitVec 9, 1 ≤ n.toNat → n.toNat ≤ 256 →
      exec (.wrCmd (0#19 ++ n ++ 1#4)) s =
        .next { s with palValid := false, inflight := .palette n }) ∧
    (∀ b : BitVec 1, exec (.wrCmd (0#27 ++ b ++ 2#4)) s =
      .next { s with actFmt := if b = 0#1 then .indexed8 else .packed16 }) ∧
    (∀ (en : Bool) (n p0 p1 p2 : BitVec 2) (supp : BitVec 3) (slot : Nat → BitVec 2) (k : Nat)
        (g : Geometry),
      slot 0 = p0 → slot 1 = p1 → slot 2 = p2 → (∀ j, j < n.toNat → slot j ≠ 3#2) →
      k < n.toNat → slot k = geometryCode g → supp.getLsbD (slot k).toNat = true →
      (∀ j, j < k → supp.getLsbD (slot j).toNat = false) →
      exec (.wrCmd (0#13 ++ supp ++ 0#2 ++ p2 ++ p1 ++ p0 ++ 0#1 ++ n ++ BitVec.ofBool en ++ 3#4)) s =
        .next { s with actGeom := g, actScaleEn := en, geomValid := true }) ∧
    (∀ p : FrameRecord, p =
        { route := selectRoute s.actGeom s.actScaleEn, fmt := s.actFmt, geom := s.actGeom,
          srcBase := s.srcBase, dstBase := s.dstBase, topskip := s.topskip, vinc := s.vinc,
          thr := s.thr, palN := s.palN } →
      ScaleReady s → exec (.wrCmd 0x00000004#32) s = .next { s with inflight := .scale p }) ∧
    exec (.wrCmd 0x00000005#32) s = .next { s with err := false, errCode := .none }

/-! ## Completion of SETPAL -/

/-- The completion of PALETTE(N) (44_commands.md R237 with 40_palette.md R131 and R141): PAL16 below N
is pack16 of the staging entry or undef with it, PAL16 from N on is undef, PAL_N and PAL_VALID are set,
BUSY is cleared; STAGE and everything else but the two tables stay. -/
def Obligations.SetpalCompletion : Prop :=
  ∀ (s : State) (n : BitVec 9), s.inflight = .palette n → n.toNat ≤ 256 →
    ∃ t, engineTurn s = .next t ∧
      t = { s with pal16 := t.pal16, pair := t.pair, palN := n, palValid := true,
                   inflight := .none } ∧
      t.busy = false ∧
      (∀ i, i < n.toNat → tableGet t.pal16 i = (tableGet s.stage i).map pack16) ∧
      (∀ i, n.toNat ≤ i → tableGet t.pal16 i = none)

/-- After the completion of PALETTE(N) the paired table holds, for every i and j in 0..255, PAL16[j] low
and PAL16[i] high, and is undef exactly where one of the two is (40_palette.md R132). -/
def Obligations.PairTableIsTheCrossProduct : Prop :=
  ∀ (s t : State) (n : BitVec 9), s.inflight = .palette n → engineTurn s = .next t →
    ∀ i j, i < 256 → j < 256 →
      (∀ ci cj, tableGet t.pal16 i = some ci → tableGet t.pal16 j = some cj →
        tableGet t.pair (i * 256 + j) = some (ci ++ cj)) ∧
      (tableGet t.pal16 i = none ∨ tableGet t.pal16 j = none →
        tableGet t.pair (i * 256 + j) = none)

/-! ## Completion of SCALE -/

/-- The frame of a completed SCALE: INFLIGHT becomes NONE, nothing but memory changes beside it, and
memory changes only in the destination region on a scaled route (20_memory.md R77, 43_packer.md R210),
and only in the 640 bytes of each of 240 lines on the NATIVE route. -/
def Obligations.ScaleWritesOnlyItsPixels : Prop :=
  ∀ (s t : State) (p : FrameRecord) (en : Bool),
    s.inflight = .scale p → p.route = selectRoute p.geom en → engineTurn s = .next t →
    t = { s with mem := t.mem, inflight := .none } ∧
    (p.route ≠ .native → ∀ a,
      (a < p.dstBase.toNat ∨
        p.dstBase.toNat + destHeight p.geom * (2 * destWidth p.geom) ≤ a) →
      t.mem.read a = s.mem.read a) ∧
    (p.route = .native → ∀ a,
      (∀ y, y < 240 → a < p.dstBase.toNat + y * (2 * destWidth p.geom) ∨
        p.dstBase.toNat + y * (2 * destWidth p.geom) + 640 ≤ a) →
      t.mem.read a = s.mem.read a)

/-- NATIVE, PACKED16 (43_packer.md R204, R208): the completion answers a next state in which every
destination pixel of the 320 × 240 image is the source pixel, bit for bit. -/
def Obligations.NativePackedIsTheIdentity : Prop :=
  ∀ (s : State) (p : FrameRecord),
    s.inflight = .scale p → p.route = .native → p.fmt = .packed16 →
    (srcRegion p).meets (destRegion p) = false →
    ∃ t, engineTurn s = .next t ∧ t = { s with mem := t.mem, inflight := .none } ∧
      ∀ y x, y < 240 → x < 320 → destPixel t.mem p y x = sourcePixel s p y x

/-- NATIVE, INDEXED8 (43_packer.md R205, R208): with every index legal and the paired table the cross
product of the single one, every destination pixel is the palette's colour of the source index. -/
def Obligations.NativeIndexedShowsThePalette : Prop :=
  ∀ (s : State) (p : FrameRecord),
    s.inflight = .scale p → p.route = .native → p.fmt = .indexed8 →
    (srcRegion p).meets (destRegion p) = false → PairMatches s.pal16 s.pair →
    (∀ y, y < 240 → LineIndicesLegal s p y) →
    ∃ t, engineTurn s = .next t ∧ t = { s with mem := t.mem, inflight := .none } ∧
      ∀ y x, y < 240 → x < 320 →
        tableGet s.pal16 (sourceIndex s p y x) = some (destPixel t.mem p y x)

/-- NATIVE, INDEXED8: one index byte out of range, in any of the 240 lines, is the contract fault
INDEX_RANGE of the whole completion (40_palette.md R136, R138, 60_exceptions.md R271). The stopped state
has FAULTED set; its destination bytes are free values (notes/assumptions/8.md), of which the statement
says nothing. -/
def Obligations.NativeIndexOutOfRangeFaults : Prop :=
  ∀ (s : State) (p : FrameRecord),
    s.inflight = .scale p → p.route = .native → p.fmt = .indexed8 →
    (srcRegion p).meets (destRegion p) = false → PairMatches s.pal16 s.pair →
    (∃ y, y < 240 ∧ ¬ LineIndicesLegal s p y) →
    ∃ t, engineTurn s = .fault (.contract .indexRange t) ∧
      t = { s with mem := t.mem, freeIndex := t.freeIndex, faulted := some .indexRange } ∧
      ∀ a, (a < (destRegion p).base ∨ (destRegion p).base + (destRegion p).bytes ≤ a) →
        t.mem.read a = s.mem.read a

/-- A scaled frame, H54 or H32, of either format (43_packer.md R206, R209, with 42_vertical.md R184,
R187 and 41_horizontal.md R158, R161): with a legal VCFG and every index byte it reads legal, the
completion answers a next state in which every destination pixel is the pixel the spec's closed forms
give: one or two source lines chosen by (y * VINC) div DH and mod DH, averaged and even-masked, then
interpolated inside the group. The group's expressions are the spec's reconstruction
(notes/assumptions/14.md). -/
def Obligations.ScaledFrameIsTheClosedForm : Prop :=
  ∀ (s : State) (p : FrameRecord),
    s.inflight = .scale p → p.geom ≠ .native → p.route = selectRoute p.geom true →
    vcfgLegal p = true → (srcRegion p).meets (destRegion p) = false → ReadLinesLegal s p →
    ∃ t, engineTurn s = .next t ∧ t = { s with mem := t.mem, inflight := .none } ∧
      ∀ y x, y < destHeight p.geom → x < destWidth p.geom →
        destPixel t.mem p y x = scaledPixel s p y x

/-- A scaled INDEXED8 frame that reads an index byte out of range, in a line its schedule reads, is the
contract fault INDEX_RANGE (40_palette.md R136, R137, 60_exceptions.md R271). The stopped state is
as in NativeIndexOutOfRangeFaults. -/
def Obligations.ScaledIndexOutOfRangeFaults : Prop :=
  ∀ (s : State) (p : FrameRecord),
    s.inflight = .scale p → p.geom ≠ .native → p.route = selectRoute p.geom true →
    vcfgLegal p = true → (srcRegion p).meets (destRegion p) = false → ¬ ReadLinesLegal s p →
    ∃ t, engineTurn s = .fault (.contract .indexRange t) ∧
      t = { s with mem := t.mem, freeIndex := t.freeIndex, faulted := some .indexRange } ∧
      ∀ a, (a < (destRegion p).base ∨ (destRegion p).base + (destRegion p).bytes ≤ a) →
        t.mem.read a = s.mem.read a

/-- The closed form of the accumulator (42_vertical.md R187): for 1 ≤ VINC ≤ DH, at the start of line y
dh is (y * VINC) div DH and E is (y * VINC) mod DH; at the end of the frame dh is VINC. -/
def Obligations.AccumulatorClosedForm : Prop :=
  ∀ p : FrameRecord, 1 ≤ p.vinc.toNat → p.vinc.toNat ≤ destHeight p.geom →
    (∀ y, (vStep p)^[y] vStart =
      { e := y * p.vinc.toNat % destHeight p.geom, dh := y * p.vinc.toNat / destHeight p.geom,
        y := y }) ∧
    ((vStep p)^[destHeight p.geom] vStart).dh = p.vinc.toNat

/-- The lines read (42_vertical.md R188, 20_memory.md R75): under a legal VCFG every line that
destination line y is made from, the blend line included, lies in the source region. -/
def Obligations.LegalVcfgReadsInsideTheFrame : Prop :=
  ∀ (p : FrameRecord) (y : Nat), vcfgLegal p = true → y < destHeight p.geom →
    firstLine p y + 1 ≤ 239 ∧
    srcLineAddr p (firstLine p y + 1) + srcPitch p.fmt ≤ (srcRegion p).base + (srcRegion p).bytes

/-! ## The datapath -/

/-- `pack16` per channel (40_palette.md R130): the top 5, 6 and 5 bits of red, green and blue; bits
31:24 never change the result. That a channel is truncated is what the spec marks as general knowledge
(notes/assumptions/14.md). -/
def Obligations.Pack16Truncates : Prop :=
  ∀ e : Word,
    redOf (pack16 e) = (e.extractLsb' 16 8).toNat / 8 ∧
    greenOf (pack16 e) = (e.extractLsb' 8 8).toNat / 4 ∧
    blueOf (pack16 e) = (e.extractLsb' 0 8).toNat / 8 ∧
    ∀ alpha : BitVec 8, pack16 (alpha ++ e.extractLsb' 0 24) = pack16 e

/-- `avg16` per channel (41_horizontal.md R151): floor(C(u)/2) + floor(C(v)/2) in each of the three. -/
def Obligations.Avg16PerChannel : Prop :=
  ∀ u v : Pixel,
    redOf (avg16 u v) = redOf u / 2 + redOf v / 2 ∧
    greenOf (avg16 u v) = greenOf u / 2 + greenOf v / 2 ∧
    blueOf (avg16 u v) = blueOf u / 2 + blueOf v / 2

/-- AVERAGE works on each lane for every two words; AVERAGEHI and AVERAGELO put the average of the two
lanes in one lane and 0 in the other (41_horizontal.md R152, R154, R155). -/
def Obligations.AveragesPerLane : Prop :=
  ∀ z x : Word,
    average z x = avg16 (hiPixel z) (hiPixel x) ++ avg16 (loPixel z) (loPixel x) ∧
    averageHi z = avg16 (loPixel z) (hiPixel z) ++ 0#16 ∧
    averageLo z = 0#16 ++ avg16 (loPixel z) (hiPixel z)

/-- The lane form of H54Group on even-masked pixels (41_horizontal.md R158). The group's expressions are
the spec's reconstruction (notes/assumptions/14.md). -/
def Obligations.H54GroupLaneForm : Prop :=
  ∀ a b c d e f g h : Pixel,
    even16 a = a → even16 b = b → even16 c = c → even16 d = d →
    even16 e = e → even16 f = f → even16 g = g → even16 h = h →
    h54Group (b ++ a) (d ++ c) (f ++ e) (h ++ g) =
      [b ++ a, c ++ avg16 b c, e ++ d, avg16 f g ++ f, h ++ g]

/-- The lane form of H32Group on even-masked pixels (41_horizontal.md R161). The group's expressions are
the spec's reconstruction (notes/assumptions/14.md). -/
def Obligations.H32GroupLaneForm : Prop :=
  ∀ a b c d : Pixel, even16 a = a → even16 b = b → even16 c = c → even16 d = d →
    h32Group (b ++ a) (d ++ c) = [avg16 a b ++ a, c ++ b, d ++ avg16 c d]

/-- A uniform line (41_horizontal.md R163): if every source pixel of a line is p, every output pixel of
both line functions, fed with the even-masked line, is even16(p). -/
def Obligations.UniformLineStaysUniform : Prop :=
  ∀ p : Pixel,
    h54Line ((List.replicate 160 (p ++ p)).map even32) =
      List.replicate 200 (even16 p ++ even16 p) ∧
    h32Line ((List.replicate 160 (p ++ p)).map even32) = List.replicate 240 (even16 p ++ even16 p)

/-! ## The host and bus memory -/

/-- The race rule (20_memory.md R84): while a SCALE is in flight, a host write that shares a byte with
its source region, or a host access that shares one with its destination region, is the contract fault
RACE; a host read that shares none with the destination region is answered with the bytes in memory, in
the byte order the model gives a host's own accesses (notes/assumptions/11.md), and nothing else changes.
A host write that shares none with either region is in HostStoreWritesItsBytes. -/
def Obligations.RaceWithAFrameFaults : Prop :=
  ∀ (s : State) (p : FrameRecord) (a : BusAccess) (rest : List HostOp)
    (shares : Nat → Nat → Prop),
    (∀ base bytes, shares base bytes ↔ ∃ x, a.addr.toNat ≤ x ∧ x < a.addr.toNat + a.size.bytes ∧
      base ≤ x ∧ x < base + bytes) →
    s.faulted = none → s.inflight = .scale p → s.inputs = .port (.access a) :: rest →
    ¬ shares s.regBase.toNat 64 → a.addr.toNat + a.size.bytes ≤ 2 ^ 32 →
    ((shares (destRegion p).base (destRegion p).bytes ∨
        (a.access ≠ .read ∧ shares (srcRegion p).base (srcRegion p).bytes)) →
      step s = .fault (.contract .race { s with inputs := rest, faulted := some .race })) ∧
    (a.access = .read → ¬ shares (destRegion p).base (destRegion p).bytes →
      step s = .next
        { s with inputs := rest, lastRead := some (s.mem.readLE a.addr.toNat a.size) })

/-- A host's own store to bus memory, outside the register window and, while a SCALE is in flight, clear
of its source and its destination region (20_memory.md R84): the bytes of the value stand at the address
in the order of R72, and every other byte and all else stay. The byte order of a host's own accesses is
the model's (notes/assumptions/11.md). -/
def Obligations.HostStoreWritesItsBytes : Prop :=
  ∀ (s : State) (addr v : Word) (size : Size) (rest : List HostOp),
    s.faulted = none →
    s.inputs = .port (.access { addr := addr, size := size, access := .write v }) :: rest →
    (∀ p, s.inflight = .scale p →
      Apart addr.toNat size.bytes (srcRegion p).base (srcRegion p).bytes ∧
      Apart addr.toNat size.bytes (destRegion p).base (destRegion p).bytes) →
    Apart addr.toNat size.bytes s.regBase.toNat 64 →
    addr.toNat + size.bytes ≤ 2 ^ 32 →
    ∃ t, step s = .next t ∧ t = { s with inputs := rest, mem := t.mem } ∧
      (∀ k, k < size.bytes → t.mem.read (addr.toNat + k) = v.extractLsb' (8 * k) 8) ∧
      (∀ x, (x < addr.toNat ∨ addr.toNat + size.bytes ≤ x) → t.mem.read x = s.mem.read x)

/-- A host's own read of bus memory, outside the register window and, while a SCALE is in flight, clear of
its destination region (20_memory.md R84): it answers the bytes at the address, lowest first, zeros above
them, and changes nothing of the block or of memory. The byte order of a host's own accesses is the
model's (notes/assumptions/11.md). -/
def Obligations.HostReadAnswersTheBytes : Prop :=
  ∀ (s : State) (addr : Word) (size : Size) (rest : List HostOp),
    s.faulted = none →
    s.inputs = .port (.access { addr := addr, size := size, access := .read }) :: rest →
    (∀ p, s.inflight = .scale p →
      Apart addr.toNat size.bytes (destRegion p).base (destRegion p).bytes) →
    Apart addr.toNat size.bytes s.regBase.toNat 64 →
    addr.toNat + size.bytes ≤ 2 ^ 32 →
    ∃ v, step s = .next { s with inputs := rest, lastRead := some v } ∧
      v = s.mem.readLE addr.toNat size ∧
      (∀ k, k < size.bytes → v.extractLsb' (8 * k) 8 = s.mem.read (addr.toNat + k)) ∧
      (∀ k, 8 * size.bytes ≤ k → v.getLsbD k = false)

/-- Byte order (20_memory.md R72): a 2-byte value is the byte at its address and the next one shifted by
8, a 4-byte value the 2-byte value at its address and the one two further shifted by 16; and what
`MemWrite` stores in 2 or 4 bytes `MemRead` returns. -/
def Obligations.MemoryIsLittleEndian : Prop :=
  ∀ (m : Memory) (a : Nat) (v : Word),
    m.readLE a .half = m.readLE a .byte ||| m.readLE (a + 1) .byte <<< 8 ∧
    m.readLE a .word = m.readLE a .half ||| m.readLE (a + 2) .half <<< 16 ∧
    (m.write a (bytesLE v .half)).readLE a .half = v &&& 0xFFFF#32 ∧
    (m.write a (bytesLE v .word)).readLE a .word = v

/-! ## Reset, and the whole machine -/

/-- The reset values of 10_state.md R53, wherever the register window lies. -/
def Obligations.ResetValues : Prop :=
  (∀ (w : BitVec 26) (s : State), s = State.resetAt w →
    statusWord s = 0x00000800#32 ∧ s.busy = false ∧ s.palValid = false ∧ s.geomValid = false ∧
    s.err = false ∧ s.errCode = .none ∧ s.actGeom = .native ∧ s.actScaleEn = false ∧
    s.actFmt = .packed16 ∧ s.palN = 0#9 ∧ s.srcBase = 0#32 ∧ s.dstBase = 0#32 ∧
    vcfgWord s = 0x30E00008#32 ∧ s.topskip = 8#8 ∧ s.vinc = 224#9 ∧ s.thr = 3#3 ∧
    s.palAddr = 0#8 ∧ (∀ i, tableGet s.stage i = none ∧ tableGet s.pal16 i = none ∧
      tableGet s.pair i = none) ∧ s.inflight = .none ∧ s.faulted = none) ∧
  State.reset = State.resetAt Config.regWindow

/-- The reset input in any state (70_reset_and_hazards.md R290 to R292): the block takes the values of
10_state.md R53, an in-flight command is abandoned, no byte of memory outside the destination region of
an abandoned SCALE changes, FAULTED and REG_BASE stay. The bytes inside that region are free values
(notes/assumptions/8.md): the statement says nothing of them. -/
def Obligations.ResetInput : Prop :=
  ∀ (s : State) (rest : List HostOp), s.faulted = none → s.inputs = .reset :: rest →
    ∃ t, step s = .next t ∧
      t = { State.resetAt s.regWindow with
              mem := t.mem, faulted := s.faulted, inputs := rest, lastRead := s.lastRead,
              freeIndex := t.freeIndex } ∧
      (∀ p, s.inflight = .scale p → ∀ a,
        (a < (destRegion p).base ∨ (destRegion p).base + (destRegion p).bytes ≤ a) →
        t.mem.read a = s.mem.read a) ∧
      ((∀ p, s.inflight ≠ .scale p) → t.mem = s.mem)

/-- A contract fault touches no STATUS field and no other state of the block: the stopped state is the
state of the turn with FAULTED set (60_exceptions.md R270, R272), and a FAULTED state takes no further
step. Memory stays too, but for the destination region of a SCALE that meets an index out of range,
whose bytes are free values (R271, notes/assumptions/8.md). -/
def Obligations.ContractFaultOnlyMarks : Prop :=
  ∀ (s t : State) (k : ContractKind), step s = .fault (.contract k t) →
    (s.faulted = none →
      t = { s with inputs := t.inputs, mem := t.mem, freeIndex := t.freeIndex, faulted := some k } ∧
      (k ≠ .indexRange → t.mem = s.mem ∧ t.freeIndex = s.freeIndex) ∧
      ∀ a, (∀ p, s.inflight = .scale p →
          a < (destRegion p).base ∨ (destRegion p).base + (destRegion p).bytes ≤ a) →
        t.mem.read a = s.mem.read a) ∧
    (∀ j, s.faulted = some j → t = s ∧ k = j) ∧
    step t = .fault (.contract k t)

/-- The invariant holds right after reset, wherever the register window lies. -/
def Obligations.ResetSatisfiesTheInvariant : Prop := ∀ w : BitVec 26, (State.resetAt w).Inv

/-- Every step keeps the invariant: memory keeps its canonical form; the tables hold entries inside
their ranges only, and PAIR is the cross product of PAL16 (40_palette.md R132, R134); PAL_N is at most
256 and no PAL16 entry lies at or above it; ERR_CODE is 0 exactly when ERR is 0 (10_state.md R38); the
mode is unset until a SELGEOM succeeds (R39); a command in flight has the parameters its acceptance
checked, and the registers still say the same (70_reset_and_hazards.md R301); FAULTED is clear. -/
def Obligations.StepKeepsTheInvariant : Prop :=
  ∀ s t : State, s.Inv → step s = .next t → t.Inv

/-- No register, mode field or table changes while a SCALE stays in flight (70_reset_and_hazards.md
R301, R302): a step after which the same SCALE is still in flight changes none of them, and no PAL_VALID
or GEOM_VALID. -/
def Obligations.NothingChangesUnderAFrame : Prop :=
  ∀ (s t : State) (p : FrameRecord), s.inflight = .scale p → step s = .next t →
    t.inflight = .none ∨
    (t.inflight = .scale p ∧ t.srcBase = s.srcBase ∧ t.dstBase = s.dstBase ∧
      t.topskip = s.topskip ∧ t.vinc = s.vinc ∧ t.thr = s.thr ∧ t.palAddr = s.palAddr ∧
      t.actFmt = s.actFmt ∧ t.actGeom = s.actGeom ∧ t.actScaleEn = s.actScaleEn ∧
      t.palN = s.palN ∧ t.palValid = s.palValid ∧ t.geomValid = s.geomValid ∧
      t.stage = s.stage ∧ t.pal16 = s.pal16 ∧ t.pair = s.pair)

/-- BUSY goes from 1 to 0 only by the engine's completion or by reset (10_state.md R35, 44_commands.md
R258, 70_reset_and_hazards.md R291). -/
def Obligations.BusyEndsByTheEngineOrReset : Prop :=
  ∀ s t : State, step s = .next t → s.busy = true → t.busy = false →
    s.inputs = [] ∨ s.inputs.head? = some .engine ∨ s.inputs.head? = some .reset

/-- STAGE changes only by a PAL_DATA write accepted while BUSY is 0 or by reset; PAL16 and PAIR change
only by the completion of a SETPAL or by reset (10_state.md R45, R46, R47, 40_palette.md R140). -/
def Obligations.TablesChangeOnlyByTheirWriters : Prop :=
  ∀ s t : State, step s = .next t → s.inputs.head? ≠ some .reset →
    (t.stage ≠ s.stage → s.busy = false ∧ ∃ p v, s.inputs.head? = some (.port p) ∧
      decode s.regBase p = .ok (.wrPalData v)) ∧
    (t.pal16 ≠ s.pal16 ∨ t.pair ≠ s.pair →
      (s.inputs = [] ∨ s.inputs.head? = some .engine) ∧ ∃ n, s.inflight = .palette n)

/-- Bus memory changes only by the completion of a SCALE, by a host's own write outside the register
window, or by a reset that abandons a SCALE (20_memory.md R70, 70_reset_and_hazards.md R292). -/
def Obligations.MemoryChangesOnlyByItsWriters : Prop :=
  ∀ s t : State, step s = .next t → t.mem ≠ s.mem →
    ((s.inputs = [] ∨ s.inputs.head? = some .engine ∨ s.inputs.head? = some .reset) ∧
      ∃ p, s.inflight = .scale p) ∨
    (∃ a v, s.inputs.head? = some (.port (.access a)) ∧ a.access = .write v ∧
      decode s.regBase (.access a) = .error .outsideWindow)

/-- WAIT ends with BUSY = 0 observed (30_encoding.md R117, 20_memory.md R86), in a state whose next turn is
WAIT. With nothing in flight one step reads STATUS and goes on. With a PALETTE(N) or a PACKED16 SCALE in
flight three steps lead past the WAIT: the command has completed and STATUS has been read with BUSY = 0.
So do they with an INDEXED8 SCALE, unless its completion is the contract fault INDEX_RANGE, and then that
fault is what they give. The number of polls is the model's (notes/assumptions/9.md). -/
def Obligations.WaitObservesIdle : Prop :=
  ∀ (s : State) (rest : List HostOp) (past : State → Prop),
    (∀ t, past t ↔ t.inputs = rest ∧ t.busy = false ∧ t.lastRead = some (statusWord t) ∧
      (statusWord t).getLsbD 0 = false) →
    s.faulted = none → s.inputs = .wait :: rest →
    (s.inflight = .none → ∃ t, step s = .next t ∧ past t ∧
      t = { s with inputs := rest, lastRead := t.lastRead }) ∧
    (∀ n, s.inflight = .palette n → ∃ t, core.run 3 s = .next t ∧ past t ∧
      t.palValid = true ∧ t.palN = n) ∧
    (∀ p, s.inflight = .scale p → p.fmt = .packed16 → ∃ t, core.run 3 s = .next t ∧ past t) ∧
    (∀ p, s.inflight = .scale p → p.fmt = .indexed8 →
      (∀ u, engineTurn s = .next u → ∃ t, core.run 3 s = .next t ∧ past t ∧ t.mem = u.mem) ∧
      (∀ r, engineTurn s = .fault r →
        ∃ t, core.run 3 s = .fault (.contract .indexRange t) ∧ t.faulted = some .indexRange) ∧
      ((∃ u, engineTurn s = .next u) ∨ ∃ u, engineTurn s = .fault (.contract .indexRange u)))
end

