-- ==== Sys2Proof/Laws/Table.lean ====
section
/-! SUPPORT. What the table operations do: reading after a write, restriction to a range of indices,
joining two tables, and the canonical form. -/

namespace Sys2Proof.Laws

open Sys2Proof.Machine

variable {w : Nat}

@[simp] theorem tableGet_nil (i : Nat) : tableGet ([] : Table w) i = none := rfl

theorem tableGet_cons (k : Nat) (v : BitVec w) (t : Table w) (i : Nat) :
    tableGet ((k, v) :: t) i = if k = i then some v else tableGet t i := rfl

/-- Reading after writing one entry: the entry written, or what was there. -/
theorem tableGet_tablePut (t : Table w) (i j : Nat) (x : BitVec w) :
    tableGet (tablePut t i x) j = if i = j then some x else tableGet t j := by
  induction t with
  | nil => simp [tablePut, tableGet]
  | cons e t ih =>
    obtain ⟨k, v⟩ := e
    simp only [tablePut]
    split
    · simp [tableGet]
    · split
      · subst i; by_cases h : k = j <;> simp [tableGet, h]
      · rw [tableGet_cons, tableGet_cons, ih]
        by_cases h : k = j
        · subst h; simp_all
        · simp [h]

/-- A table restricted to the indices that satisfy `q` reads as before there, and undef elsewhere. -/
theorem tableGet_filter (q : Nat → Bool) (t : Table w) (i : Nat) :
    tableGet (t.filter (fun e => q e.1)) i = if q i then tableGet t i else none := by
  induction t with
  | nil => simp
  | cons e t ih =>
    obtain ⟨k, v⟩ := e
    by_cases hk : q k = true
    · rw [List.filter_cons_of_pos (by simpa using hk), tableGet_cons, ih, tableGet_cons]
      by_cases h : k = i
      · subst h; simp [hk]
      · simp [h]
    · rw [List.filter_cons_of_neg (by simpa using hk), ih, tableGet_cons]
      by_cases h : k = i
      · subst h; simp [hk]
      · simp [h]

/-- Joining two tables: the first has precedence. -/
theorem tableGet_append (t u : Table w) (i : Nat) :
    tableGet (t ++ u) i = (tableGet t i).or (tableGet u i) := by
  induction t with
  | nil => simp
  | cons e t ih =>
    obtain ⟨k, v⟩ := e
    rw [List.cons_append, tableGet_cons, tableGet_cons, ih]
    split <;> rfl

/-- An index that no entry has reads undef. -/
theorem tableGet_eq_none (t : Table w) (i : Nat) (h : ∀ e ∈ t, e.1 ≠ i) : tableGet t i = none := by
  induction t with
  | nil => rfl
  | cons e t ih =>
    rw [tableGet_cons, if_neg (h e (by simp)), ih fun e' he' => h e' (by simp [he'])]

/-- What a table answers is one of its entries. -/
theorem mem_of_tableGet {t : Table w} {i : Nat} {x : BitVec w} (h : tableGet t i = some x) :
    (i, x) ∈ t := by
  induction t with
  | nil => simp at h
  | cons e t ih =>
    obtain ⟨k, v⟩ := e
    rw [tableGet_cons] at h
    split at h
    · simp_all
    · exact List.mem_cons_of_mem _ (ih h)

/-- In a table with rising indices each entry is what its index reads. -/
theorem tableGet_of_mem {t : Table w} (hs : t.Pairwise (fun a b => a.1 < b.1)) {e : Nat × BitVec w}
    (h : e ∈ t) : tableGet t e.1 = some e.2 := by
  induction t with
  | nil => simp at h
  | cons f t ih =>
    rw [List.pairwise_cons] at hs
    rw [tableGet_cons]
    rcases List.mem_cons.1 h with rfl | h
    · simp
    · rw [if_neg (Nat.ne_of_lt (hs.1 _ h)), ih hs.2 h]

/-- Below a bound that every index reaches, nothing is defined. -/
theorem tableGet_none_of_wf {t : Table w} {n i : Nat} (h : tableWf t n) (hi : n ≤ i) :
    tableGet t i = none :=
  tableGet_eq_none t i fun e he => by have := h.2 e he; omega

theorem mem_tablePut {t : Table w} {i : Nat} {x : BitVec w} {e : Nat × BitVec w}
    (h : e ∈ tablePut t i x) : e = (i, x) ∨ e ∈ t := by
  induction t with
  | nil => simpa [tablePut] using h
  | cons f t ih =>
    simp only [tablePut] at h
    split at h
    · simpa using h
    · split at h
      · rcases List.mem_cons.1 h with h | h
        · exact .inl h
        · exact .inr (by simp [h])
      · rcases List.mem_cons.1 h with h | h
        · exact .inr (by simp [h])
        · rcases ih h with h | h
          · exact .inl h
          · exact .inr (by simp [h])

/-- Writing an entry keeps the canonical form of a table. -/
theorem tablePut_wf {t : Table w} {n i : Nat} (h : tableWf t n) (hi : i < n) (x : BitVec w) :
    tableWf (tablePut t i x) n := by
  refine ⟨?_, fun e he => ?_⟩
  · have hs := h.1
    clear h
    induction t with
    | nil => simp [tablePut]
    | cons f t ih =>
      obtain ⟨k, v⟩ := f
      rw [List.pairwise_cons] at hs
      simp only [tablePut]
      split
      · refine List.pairwise_cons.2 ⟨fun e he => ?_, List.pairwise_cons.2 hs⟩
        rcases List.mem_cons.1 he with rfl | he
        · assumption
        · have := hs.1 e he; simp at *; omega
      · split
        · subst i; exact List.pairwise_cons.2 ⟨hs.1, hs.2⟩
        · refine List.pairwise_cons.2 ⟨fun e he => ?_, ih hs.2⟩
          rcases mem_tablePut he with rfl | he
          · simp; omega
          · exact hs.1 e he
  · rcases mem_tablePut he with rfl | he
    · exact hi
    · exact h.2 e he

end Sys2Proof.Laws
end

