-- ==== Sys2Proof/Laws/Memory.lean ====
section
/-! SUPPORT. What the memory operations do: a read after a write, what a write leaves alone, the
canonical form, and wide accesses. -/

namespace Sys2Proof.Laws

open Sys2Proof.Machine

/-- The cells of a run of bytes read as those bytes, and nothing else is listed. -/
theorem tableGet_cellsAt (a : Nat) (bs : List Byte) (x : Nat) :
    (tableGet (cellsAt a bs) x).getD unlistedByte =
      if a ≤ x ∧ x < a + bs.length then bs.getD (x - a) unlistedByte else unlistedByte := by
  induction bs generalizing a with
  | nil => simp [cellsAt]
  | cons b bs ih =>
    simp only [cellsAt]
    by_cases hb : b = unlistedByte
    · rw [if_pos hb, ih]
      by_cases hx : a = x
      · subst hx; simp [hb]
      · by_cases hr : a ≤ x ∧ x < a + (b :: bs).length
        · have h2 : a + 1 ≤ x ∧ x < a + 1 + bs.length := by simp at hr; omega
          rw [if_pos h2, if_pos hr]
          have : x - a = (x - (a + 1)) + 1 := by omega
          rw [this]; simp
        · have h2 : ¬ (a + 1 ≤ x ∧ x < a + 1 + bs.length) := by simp at hr; omega
          rw [if_neg h2, if_neg hr]
    · rw [if_neg hb, tableGet_cons]
      by_cases hx : a = x
      · subst hx; simp
      · rw [if_neg hx, ih]
        by_cases hr : a ≤ x ∧ x < a + (b :: bs).length
        · have h2 : a + 1 ≤ x ∧ x < a + 1 + bs.length := by simp at hr; omega
          rw [if_pos h2, if_pos hr]
          have : x - a = (x - (a + 1)) + 1 := by omega
          rw [this]; simp
        · have h2 : ¬ (a + 1 ≤ x ∧ x < a + 1 + bs.length) := by simp at hr; omega
          rw [if_neg h2, if_neg hr]

theorem mem_cellsAt {a : Nat} {bs : List Byte} {c : Host.Cell} (h : c ∈ cellsAt a bs) :
    a ≤ c.1 ∧ c.1 < a + bs.length ∧ c.2 ≠ unlistedByte := by
  induction bs generalizing a with
  | nil => simp [cellsAt] at h
  | cons b bs ih =>
    simp only [cellsAt] at h
    rw [List.length_cons]
    split at h
    · have := ih h; exact ⟨by omega, by omega, this.2.2⟩
    · rcases List.mem_cons.1 h with rfl | h
      · exact ⟨by simp, by simp, by assumption⟩
      · have := ih h; exact ⟨by omega, by omega, this.2.2⟩

theorem cellsAt_pairwise (a : Nat) (bs : List Byte) :
    (cellsAt a bs).Pairwise (fun c d => c.1 < d.1) := by
  induction bs generalizing a with
  | nil => simp [cellsAt]
  | cons b bs ih =>
    simp only [cellsAt]
    split
    · exact ih _
    · refine List.pairwise_cons.2 ⟨fun c hc => ?_, ih _⟩
      have := mem_cellsAt hc; simp; omega

/-- THE MEMORY LAW: after a write, a byte in the range written reads as what was written there, and
every other byte reads as before. -/
theorem read_write (m : Memory) (a : Nat) (bs : List Byte) (x : Nat) :
    (m.write a bs).read x =
      if a ≤ x ∧ x < a + bs.length then bs.getD (x - a) unlistedByte else m.read x := by
  unfold Memory.write Memory.read
  rw [tableGet_append, tableGet_append,
    tableGet_filter (fun k => decide (k < a)), tableGet_filter (fun k => decide (a + bs.length ≤ k))]
  by_cases h1 : x < a
  · have h3 : ¬ (a ≤ x ∧ x < a + bs.length) := by omega
    have h4 : ¬ (a + bs.length ≤ x) := by omega
    have h5 : tableGet (cellsAt a bs) x = none :=
      tableGet_eq_none _ _ fun c hc => by have := mem_cellsAt hc; omega
    simp [h1, h3, h4, h5]
  · by_cases h2 : a + bs.length ≤ x
    · have h3 : ¬ (a ≤ x ∧ x < a + bs.length) := by omega
      have h5 : tableGet (cellsAt a bs) x = none :=
        tableGet_eq_none _ _ fun c hc => by have := mem_cellsAt hc; omega
      simp [h1, h2, h3, h5]
    · have h3 : a ≤ x ∧ x < a + bs.length := by omega
      have := tableGet_cellsAt a bs x
      simp only [h3] at this
      simp [h1, h2, h3, this]

/-- A write leaves every byte outside its range alone. -/
theorem read_write_of_not_mem (m : Memory) (a : Nat) (bs : List Byte) (x : Nat)
    (h : ¬ (a ≤ x ∧ x < a + bs.length)) : (m.write a bs).read x = m.read x := by
  rw [read_write, if_neg h]

/-- Every write inside the bus keeps the canonical form. -/
theorem write_wf {m : Memory} (h : m.wf) (a : Nat) (bs : List Byte)
    (ha : a + bs.length ≤ Config.busBytes) : (m.write a bs).wf := by
  refine ⟨?_, fun c hc => ?_⟩
  · unfold Memory.write
    rw [List.append_assoc, List.pairwise_append, List.pairwise_append]
    refine ⟨h.1.filter _, ⟨cellsAt_pairwise a bs, h.1.filter _, fun c hc d hd => ?_⟩,
      fun c hc d hd => ?_⟩
    · have := mem_cellsAt hc
      have hd' := (List.mem_filter.1 hd).2
      simp at hd'; omega
    · have hc' := (List.mem_filter.1 hc).2
      simp at hc'
      rcases List.mem_append.1 hd with hd | hd
      · have := mem_cellsAt hd; omega
      · have hd' := (List.mem_filter.1 hd).2
        simp at hd'; omega
  · unfold Memory.write at hc
    rcases List.mem_append.1 hc with hc | hc
    · rcases List.mem_append.1 hc with hc | hc
      · exact h.2 c (List.mem_filter.1 hc).1
      · have := mem_cellsAt hc
        exact ⟨by omega, this.2.2⟩
    · exact h.2 c (List.mem_filter.1 hc).1

/-- Two canonical memories that read the same at every address are the same data. -/
theorem eq_of_read_eq {m n : Memory} (hm : m.wf) (hn : n.wf) (h : ∀ a, m.read a = n.read a) :
    m = n := by
  have key : ∀ {p q : Memory}, p.wf → (∀ a, p.read a = q.read a) → ∀ c ∈ p, c ∈ q := by
    intro p q hp hpq c hc
    have h1 : p.read c.1 = c.2 := by simp [Memory.read, tableGet_of_mem hp.1 hc]
    have h2 : q.read c.1 = c.2 := by rw [← hpq, h1]
    unfold Memory.read at h2
    cases hq : tableGet q c.1 with
    | none => rw [hq] at h2; exact absurd h2.symm (hp.2 c hc).2
    | some b =>
      rw [hq] at h2
      have := mem_of_tableGet hq
      simp only [Option.getD_some] at h2
      rw [h2] at this
      exact this
  have antisym : ∀ a b : Host.Cell, a ∈ m → b ∈ n → a.1 < b.1 → b.1 < a.1 → a = b := by
    intros; omega
  have hperm : m.Perm n :=
    (List.perm_ext_iff_of_nodup (hm.1.imp fun hlt => by rintro rfl; omega)
      (hn.1.imp fun hlt => by rintro rfl; omega)).2
      fun c => ⟨key hm h c, key hn (fun a => (h a).symm) c⟩
  exact hperm.eq_of_pairwise antisym hm.1 hn.1

/-- Inside its range a window reads as the memory does. -/
theorem read_window (m : Memory) (a n x : Nat) (h : a ≤ x ∧ x < a + n) :
    (m.window a n).read x = m.read x := by
  unfold Memory.window Memory.read
  rw [tableGet_filter (fun k => decide (a ≤ k) && decide (k < a + n))]
  simp [h]

/-- A wide read depends on the bytes it covers only. -/
theorem readLE_congr {m n : Memory} {a : Nat} {size : Size}
    (h : ∀ x, a ≤ x → x < a + size.bytes → m.read x = n.read x) :
    m.readLE a size = n.readLE a size := by
  cases size <;> simp only [Memory.readLE] <;>
    simp only [Size.bytes] at h <;>
    simp only [h a (by omega) (by omega)] <;>
    try simp only [h (a + 1) (by omega) (by omega)]
  simp only [h (a + 2) (by omega) (by omega), h (a + 3) (by omega) (by omega)]

theorem readLE_window (m : Memory) (a n x : Nat) (size : Size) (h : a ≤ x ∧ x + size.bytes ≤ a + n) :
    (m.window a n).readLE x size = m.readLE x size :=
  readLE_congr fun y hy hy' => read_window m a n y (by omega)

@[simp] theorem length_bytesLE (v : Word) (size : Size) : (bytesLE v size).length = size.bytes := by
  cases size <;> rfl

/-- Two bytes put together by shifting are their concatenation. -/
theorem half_of_bytes (a b : Byte) :
    (a.setWidth 32 ||| b.setWidth 32 <<< 8).setWidth 16 = b ++ a := by
  apply BitVec.eq_of_getLsbD_eq
  intro i hi
  simp only [BitVec.getLsbD_append, BitVec.getLsbD_or, BitVec.getLsbD_shiftLeft,
    BitVec.getLsbD_setWidth]
  interval_cases i <;> simp

/-- Four bytes put together by shifting are their concatenation. -/
theorem word_of_bytes (a b c d : Byte) :
    (a.setWidth 32 ||| b.setWidth 32 <<< 8) ||| (c.setWidth 32 ||| d.setWidth 32 <<< 8) <<< 16
      = d ++ c ++ b ++ a := by
  apply BitVec.eq_of_getLsbD_eq
  intro i hi
  simp only [BitVec.getLsbD_append, BitVec.getLsbD_or, BitVec.getLsbD_shiftLeft,
    BitVec.getLsbD_setWidth]
  interval_cases i <;> simp

/-- A 16-bit read, as its two bytes. -/
theorem readLE_half (m : Memory) (a : Nat) :
    (m.readLE a .half).setWidth 16 = m.read (a + 1) ++ m.read a := half_of_bytes _ _

/-- A 32-bit read, as its four bytes. -/
theorem readLE_word (m : Memory) (a : Nat) :
    m.readLE a .word = m.read (a + 3) ++ m.read (a + 2) ++ m.read (a + 1) ++ m.read a :=
  word_of_bytes _ _ _ _

/-- The four bytes of a word, put together again. -/
theorem bytes_of_word (v : Word) :
    v.extractLsb' 24 8 ++ v.extractLsb' 16 8 ++ v.extractLsb' 8 8 ++ v.extractLsb' 0 8 = v := by
  apply BitVec.eq_of_getLsbD_eq
  intro i hi
  simp only [BitVec.getLsbD_append, BitVec.getLsbD_extractLsb']
  interval_cases i <;> simp

end Sys2Proof.Laws
end

