-- ==== Sys2Proof/Laws/Frame.lean ====
section
/-! SUPPORT. The pieces of a frame: collecting the words of a line, reading a line through the part of
memory that holds it, and the lengths of lines. -/

namespace Sys2Proof.Laws

open Sys2Proof.Machine

/-- `collect` answers the values, in order, when each of them is there. -/
theorem collect_eq_some {α : Type} {l : List (Option α)} {r : List α} :
    collect l = some r ↔ l = r.map some := by
  induction l generalizing r with
  | nil => cases r <;> simp [collect]
  | cons x l ih =>
    cases x with
    | none => cases r <;> simp [collect]
    | some x =>
      cases r with
      | nil => simp [collect]
      | cons y r => simp [collect, ih, and_comm, eq_comm]

/-- `collect` answers nothing exactly when a value is missing. -/
theorem collect_eq_none {α : Type} {l : List (Option α)} : collect l = none ↔ none ∈ l := by
  induction l with
  | nil => simp [collect]
  | cons x l ih => cases x <;> simp [collect, ih]

theorem length_of_collect {α : Type} {l : List (Option α)} {r : List α} (h : collect l = some r) :
    r.length = l.length := by
  rw [collect_eq_some.1 h, List.length_map]

/-- A word of a source line depends on the bytes of that line only. -/
theorem srcWord_congr {p : FrameRecord} {pal16 : Table 16} {m n : Memory} {l k : Nat}
    (hk : k < Config.srcWords)
    (h : ∀ x, srcLineAddr p l ≤ x → x < srcLineAddr p l + srcPitch p.fmt → m.read x = n.read x) :
    srcWord p pal16 m l k = srcWord p pal16 n l k := by
  simp only [Config.srcWords] at hk
  unfold srcWord
  cases hf : p.fmt <;> simp only [hf, srcPitch] at h ⊢
  · simp only [srcWordIdx]
    rw [h _ (by omega) (by omega), h _ (by omega) (by omega)]
  · rw [readLE_congr (n := n)]
    intro x hx hx'
    simp only [Size.bytes] at hx'
    exact h x (by omega) (by omega)

/-- A source line is the words `SrcWord(L, k)`, k in 0..159, of the memory itself (42_vertical.md R182,
R184): reading through the part that holds the line makes no difference. -/
theorem srcLine_eq (p : FrameRecord) (pal16 : Table 16) (m : Memory) (l : Nat) :
    srcLine p pal16 m l = collect ((List.range Config.srcWords).map (srcWord p pal16 m l)) := by
  unfold srcLine
  refine congrArg collect (List.map_congr_left fun k hk => ?_)
  exact srcWord_congr (List.mem_range.1 hk) fun x hx hx' => read_window m _ _ x ⟨hx, hx'⟩

theorem length_srcLine {p : FrameRecord} {pal16 : Table 16} {m : Memory} {l : Nat} {ws : List Word}
    (h : srcLine p pal16 m l = some ws) : ws.length = 160 := by
  rw [srcLine_eq] at h
  rw [length_of_collect h]; simp [Config.srcWords]

theorem length_vLine {p : FrameRecord} {pal16 : Table 16} {m : Memory} {v : VState} {ws : List Word}
    (h : vLine p pal16 m v = some ws) : ws.length = 160 := by
  unfold vLine at h
  simp only at h
  split at h
  · cases h
  rename_i us hu
  split at h
  · obtain ⟨vs, hv, rfl⟩ := Option.map_eq_some_iff.1 h
    simp [length_srcLine hu, length_srcLine hv]
  · cases h; simp [length_srcLine hu]

theorem length_nativeLine {p : FrameRecord} {pair : Table 32} {m : Memory} {l : Nat} {ws : List Word}
    (h : nativeLine p pair m l = some ws) : ws.length = 160 := by
  unfold nativeLine at h
  simp only at h
  split at h
  · cases h; simp [Config.srcWords]
  · rw [length_of_collect h]; simp [Config.srcWords]

@[simp] theorem length_lineBytes (d : List Word) : (lineBytes d).length = 4 * d.length := by
  induction d with
  | nil => rfl
  | cons w d ih =>
    simp only [lineBytes, List.flatMap_cons, List.length_append, length_bytesLE, Size.bytes,
      List.length_cons] at *
    omega

/-- Five destination words for four source words (41_horizontal.md R159). -/
theorem length_h54Line (n : Nat) (s : List Word) (h : s.length = 4 * n) :
    (h54Line s).length = 5 * n := by
  induction n generalizing s with
  | zero => simp at h; subst h; rfl
  | succ n ih =>
    match s, h with
    | a :: b :: c :: d :: rest, h =>
      simp only [List.length_cons] at h
      simp only [h54Line, h54Group, List.length_append, List.length_cons, List.length_nil,
        ih rest (by omega)]
      omega

/-- Three destination words for two source words (41_horizontal.md R162). -/
theorem length_h32Line (n : Nat) (s : List Word) (h : s.length = 2 * n) :
    (h32Line s).length = 3 * n := by
  induction n generalizing s with
  | zero => simp at h; subst h; rfl
  | succ n ih =>
    match s, h with
    | a :: b :: rest, h =>
      simp only [List.length_cons] at h
      simp only [h32Line, h32Group, List.length_append, List.length_cons, List.length_nil,
        ih rest (by omega)]
      omega

/-- On its own geometry a scaled line has exactly the bytes of a destination line
(20_memory.md R77, 43_packer.md R207). -/
theorem length_scaleLine {g : Geometry} (hg : g ≠ .native) {s : List Word} (h : s.length = 160) :
    (scaleLine (selectRoute g true) s).length = destWidth g / 2 := by
  cases g with
  | native => exact absurd rfl hg
  | g400 => exact length_h54Line 40 s (by omega)
  | g480 => exact length_h32Line 80 s (by omega)

/-- A source line of a PACKED16 frame is always there: only an index can be out of range. -/
theorem srcLine_packed {p : FrameRecord} (h : p.fmt = .packed16) (pal16 : Table 16) (m : Memory)
    (l : Nat) : ∃ ws, srcLine p pal16 m l = some ws := by
  refine ⟨(List.range Config.srcWords).map fun k => m.readLE (srcLineAddr p l + 4 * k) .word, ?_⟩
  rw [srcLine_eq, collect_eq_some, List.map_map]
  exact List.map_congr_left fun k _ => by simp [srcWord, h]

theorem vLine_packed {p : FrameRecord} (h : p.fmt = .packed16) (pal16 : Table 16) (m : Memory)
    (v : VState) : ∃ ws, vLine p pal16 m v = some ws := by
  obtain ⟨us, hu⟩ := srcLine_packed h pal16 m (p.topskip.toNat + v.dh)
  obtain ⟨vs, hv⟩ := srcLine_packed h pal16 m (p.topskip.toNat + v.dh + 1)
  simp only [vLine, hu, hv, Option.map_some]
  split <;> exact ⟨_, rfl⟩

/-- A PACKED16 frame never meets an index out of range. -/
theorem frame_packed {p : FrameRecord} (h : p.fmt = .packed16) (pal16 : Table 16) (pair : Table 32)
    (m : Memory) : ∃ m', frame p pal16 pair m = some m' := by
  have native : ∀ n l m, ∃ m', nativeLines p pair n l m = some m' := by
    intro n
    induction n with
    | zero => exact fun _ m => ⟨m, rfl⟩
    | succ n ih => intro l m; simp only [nativeLines, nativeLine, h]; exact ih _ _
  have scaled : ∀ n v m, ∃ m', scaledLines p pal16 n v m = some m' := by
    intro n
    induction n with
    | zero => exact fun _ m => ⟨m, rfl⟩
    | succ n ih =>
      intro v m
      obtain ⟨ws, hw⟩ := vLine_packed h pal16 m v
      simp only [scaledLines, hw]
      exact ih _ _
  unfold frame
  split
  · exact native _ _ _
  · exact scaled _ _ _
  · exact scaled _ _ _

end Sys2Proof.Laws
end

