-- ==== Sys2Proof/Laws/State.lean ====
section
/-! SUPPORT. One lemma per field per named update of the state, so that no proof unfolds an update. -/

namespace Sys2Proof.Laws

open Sys2Proof.Machine

/-! ## The error record: every field but ERR and ERR_CODE stays -/

theorem recordError_of_err {s : State} (h : s.err = true) (c : ErrorCode) : recordError c s = s := by
  simp [recordError, h]

theorem recordError_of_no_err {s : State} (h : s.err = false) (c : ErrorCode) :
    recordError c s = { s with err := true, errCode := c } := by
  simp [recordError, h]

@[simp] theorem recordError_err (c : ErrorCode) (s : State) : (recordError c s).err = true := by
  unfold recordError; split <;> simp_all

@[simp] theorem recordError_palValid (c : ErrorCode) (s : State) :
    (recordError c s).palValid = s.palValid := by unfold recordError; split <;> rfl

@[simp] theorem recordError_geomValid (c : ErrorCode) (s : State) :
    (recordError c s).geomValid = s.geomValid := by unfold recordError; split <;> rfl

@[simp] theorem recordError_actGeom (c : ErrorCode) (s : State) :
    (recordError c s).actGeom = s.actGeom := by unfold recordError; split <;> rfl

@[simp] theorem recordError_actScaleEn (c : ErrorCode) (s : State) :
    (recordError c s).actScaleEn = s.actScaleEn := by unfold recordError; split <;> rfl

@[simp] theorem recordError_actFmt (c : ErrorCode) (s : State) :
    (recordError c s).actFmt = s.actFmt := by unfold recordError; split <;> rfl

@[simp] theorem recordError_palN (c : ErrorCode) (s : State) :
    (recordError c s).palN = s.palN := by unfold recordError; split <;> rfl

@[simp] theorem recordError_srcBase (c : ErrorCode) (s : State) :
    (recordError c s).srcBase = s.srcBase := by unfold recordError; split <;> rfl

@[simp] theorem recordError_dstBase (c : ErrorCode) (s : State) :
    (recordError c s).dstBase = s.dstBase := by unfold recordError; split <;> rfl

@[simp] theorem recordError_topskip (c : ErrorCode) (s : State) :
    (recordError c s).topskip = s.topskip := by unfold recordError; split <;> rfl

@[simp] theorem recordError_vinc (c : ErrorCode) (s : State) :
    (recordError c s).vinc = s.vinc := by unfold recordError; split <;> rfl

@[simp] theorem recordError_thr (c : ErrorCode) (s : State) :
    (recordError c s).thr = s.thr := by unfold recordError; split <;> rfl

@[simp] theorem recordError_palAddr (c : ErrorCode) (s : State) :
    (recordError c s).palAddr = s.palAddr := by unfold recordError; split <;> rfl

@[simp] theorem recordError_stage (c : ErrorCode) (s : State) :
    (recordError c s).stage = s.stage := by unfold recordError; split <;> rfl

@[simp] theorem recordError_pal16 (c : ErrorCode) (s : State) :
    (recordError c s).pal16 = s.pal16 := by unfold recordError; split <;> rfl

@[simp] theorem recordError_pair (c : ErrorCode) (s : State) :
    (recordError c s).pair = s.pair := by unfold recordError; split <;> rfl

@[simp] theorem recordError_inflight (c : ErrorCode) (s : State) :
    (recordError c s).inflight = s.inflight := by unfold recordError; split <;> rfl

@[simp] theorem recordError_mem (c : ErrorCode) (s : State) :
    (recordError c s).mem = s.mem := by unfold recordError; split <;> rfl

@[simp] theorem recordError_faulted (c : ErrorCode) (s : State) :
    (recordError c s).faulted = s.faulted := by unfold recordError; split <;> rfl

@[simp] theorem recordError_regWindow (c : ErrorCode) (s : State) :
    (recordError c s).regWindow = s.regWindow := by unfold recordError; split <;> rfl

@[simp] theorem recordError_inputs (c : ErrorCode) (s : State) :
    (recordError c s).inputs = s.inputs := by unfold recordError; split <;> rfl

@[simp] theorem recordError_lastRead (c : ErrorCode) (s : State) :
    (recordError c s).lastRead = s.lastRead := by unfold recordError; split <;> rfl

@[simp] theorem recordError_freeIndex (c : ErrorCode) (s : State) :
    (recordError c s).freeIndex = s.freeIndex := by unfold recordError; split <;> rfl

/-! ## Clearing the error -/

@[simp] theorem clearError_palValid (s : State) : (clearError s).palValid = s.palValid := rfl

@[simp] theorem clearError_geomValid (s : State) : (clearError s).geomValid = s.geomValid := rfl

@[simp] theorem clearError_err (s : State) : (clearError s).err = false := rfl

@[simp] theorem clearError_errCode (s : State) : (clearError s).errCode = .none := rfl

@[simp] theorem clearError_actGeom (s : State) : (clearError s).actGeom = s.actGeom := rfl

@[simp] theorem clearError_actScaleEn (s : State) : (clearError s).actScaleEn = s.actScaleEn := rfl

@[simp] theorem clearError_actFmt (s : State) : (clearError s).actFmt = s.actFmt := rfl

@[simp] theorem clearError_palN (s : State) : (clearError s).palN = s.palN := rfl

@[simp] theorem clearError_srcBase (s : State) : (clearError s).srcBase = s.srcBase := rfl

@[simp] theorem clearError_dstBase (s : State) : (clearError s).dstBase = s.dstBase := rfl

@[simp] theorem clearError_topskip (s : State) : (clearError s).topskip = s.topskip := rfl

@[simp] theorem clearError_vinc (s : State) : (clearError s).vinc = s.vinc := rfl

@[simp] theorem clearError_thr (s : State) : (clearError s).thr = s.thr := rfl

@[simp] theorem clearError_palAddr (s : State) : (clearError s).palAddr = s.palAddr := rfl

@[simp] theorem clearError_stage (s : State) : (clearError s).stage = s.stage := rfl

@[simp] theorem clearError_pal16 (s : State) : (clearError s).pal16 = s.pal16 := rfl

@[simp] theorem clearError_pair (s : State) : (clearError s).pair = s.pair := rfl

@[simp] theorem clearError_inflight (s : State) : (clearError s).inflight = s.inflight := rfl

@[simp] theorem clearError_mem (s : State) : (clearError s).mem = s.mem := rfl

@[simp] theorem clearError_faulted (s : State) : (clearError s).faulted = s.faulted := rfl

@[simp] theorem clearError_regWindow (s : State) : (clearError s).regWindow = s.regWindow := rfl

@[simp] theorem clearError_inputs (s : State) : (clearError s).inputs = s.inputs := rfl

@[simp] theorem clearError_lastRead (s : State) : (clearError s).lastRead = s.lastRead := rfl

@[simp] theorem clearError_freeIndex (s : State) : (clearError s).freeIndex = s.freeIndex := rfl

/-! ## Completion of a palette rebuild -/

@[simp] theorem completePalette_palValid (n : BitVec 9) (s : State) :
    (completePalette n s).palValid = true := rfl

@[simp] theorem completePalette_geomValid (n : BitVec 9) (s : State) :
    (completePalette n s).geomValid = s.geomValid := rfl

@[simp] theorem completePalette_err (n : BitVec 9) (s : State) :
    (completePalette n s).err = s.err := rfl

@[simp] theorem completePalette_errCode (n : BitVec 9) (s : State) :
    (completePalette n s).errCode = s.errCode := rfl

@[simp] theorem completePalette_actGeom (n : BitVec 9) (s : State) :
    (completePalette n s).actGeom = s.actGeom := rfl

@[simp] theorem completePalette_actScaleEn (n : BitVec 9) (s : State) :
    (completePalette n s).actScaleEn = s.actScaleEn := rfl

@[simp] theorem completePalette_actFmt (n : BitVec 9) (s : State) :
    (completePalette n s).actFmt = s.actFmt := rfl

@[simp] theorem completePalette_palN (n : BitVec 9) (s : State) :
    (completePalette n s).palN = n := rfl

@[simp] theorem completePalette_srcBase (n : BitVec 9) (s : State) :
    (completePalette n s).srcBase = s.srcBase := rfl

@[simp] theorem completePalette_dstBase (n : BitVec 9) (s : State) :
    (completePalette n s).dstBase = s.dstBase := rfl

@[simp] theorem completePalette_topskip (n : BitVec 9) (s : State) :
    (completePalette n s).topskip = s.topskip := rfl

@[simp] theorem completePalette_vinc (n : BitVec 9) (s : State) :
    (completePalette n s).vinc = s.vinc := rfl

@[simp] theorem completePalette_thr (n : BitVec 9) (s : State) :
    (completePalette n s).thr = s.thr := rfl

@[simp] theorem completePalette_palAddr (n : BitVec 9) (s : State) :
    (completePalette n s).palAddr = s.palAddr := rfl

@[simp] theorem completePalette_stage (n : BitVec 9) (s : State) :
    (completePalette n s).stage = s.stage := rfl

@[simp] theorem completePalette_pal16 (n : BitVec 9) (s : State) :
    (completePalette n s).pal16 = rebuildPal16 s.stage n.toNat := rfl

@[simp] theorem completePalette_pair (n : BitVec 9) (s : State) :
    (completePalette n s).pair = rebuildPair (rebuildPal16 s.stage n.toNat) := rfl

@[simp] theorem completePalette_inflight (n : BitVec 9) (s : State) :
    (completePalette n s).inflight = .none := rfl

@[simp] theorem completePalette_mem (n : BitVec 9) (s : State) :
    (completePalette n s).mem = s.mem := rfl

@[simp] theorem completePalette_faulted (n : BitVec 9) (s : State) :
    (completePalette n s).faulted = s.faulted := rfl

@[simp] theorem completePalette_regWindow (n : BitVec 9) (s : State) :
    (completePalette n s).regWindow = s.regWindow := rfl

@[simp] theorem completePalette_inputs (n : BitVec 9) (s : State) :
    (completePalette n s).inputs = s.inputs := rfl

@[simp] theorem completePalette_lastRead (n : BitVec 9) (s : State) :
    (completePalette n s).lastRead = s.lastRead := rfl

@[simp] theorem completePalette_freeIndex (n : BitVec 9) (s : State) :
    (completePalette n s).freeIndex = s.freeIndex := rfl

/-! ## A destination that takes free bytes -/

@[simp] theorem freeDestination_palValid (p : FrameRecord) (s : State) :
    (freeDestination p s).palValid = s.palValid := rfl

@[simp] theorem freeDestination_geomValid (p : FrameRecord) (s : State) :
    (freeDestination p s).geomValid = s.geomValid := rfl

@[simp] theorem freeDestination_err (p : FrameRecord) (s : State) :
    (freeDestination p s).err = s.err := rfl

@[simp] theorem freeDestination_errCode (p : FrameRecord) (s : State) :
    (freeDestination p s).errCode = s.errCode := rfl

@[simp] theorem freeDestination_actGeom (p : FrameRecord) (s : State) :
    (freeDestination p s).actGeom = s.actGeom := rfl

@[simp] theorem freeDestination_actScaleEn (p : FrameRecord) (s : State) :
    (freeDestination p s).actScaleEn = s.actScaleEn := rfl

@[simp] theorem freeDestination_actFmt (p : FrameRecord) (s : State) :
    (freeDestination p s).actFmt = s.actFmt := rfl

@[simp] theorem freeDestination_palN (p : FrameRecord) (s : State) :
    (freeDestination p s).palN = s.palN := rfl

@[simp] theorem freeDestination_srcBase (p : FrameRecord) (s : State) :
    (freeDestination p s).srcBase = s.srcBase := rfl

@[simp] theorem freeDestination_dstBase (p : FrameRecord) (s : State) :
    (freeDestination p s).dstBase = s.dstBase := rfl

@[simp] theorem freeDestination_topskip (p : FrameRecord) (s : State) :
    (freeDestination p s).topskip = s.topskip := rfl

@[simp] theorem freeDestination_vinc (p : FrameRecord) (s : State) :
    (freeDestination p s).vinc = s.vinc := rfl

@[simp] theorem freeDestination_thr (p : FrameRecord) (s : State) :
    (freeDestination p s).thr = s.thr := rfl

@[simp] theorem freeDestination_palAddr (p : FrameRecord) (s : State) :
    (freeDestination p s).palAddr = s.palAddr := rfl

@[simp] theorem freeDestination_stage (p : FrameRecord) (s : State) :
    (freeDestination p s).stage = s.stage := rfl

@[simp] theorem freeDestination_pal16 (p : FrameRecord) (s : State) :
    (freeDestination p s).pal16 = s.pal16 := rfl

@[simp] theorem freeDestination_pair (p : FrameRecord) (s : State) :
    (freeDestination p s).pair = s.pair := rfl

@[simp] theorem freeDestination_inflight (p : FrameRecord) (s : State) :
    (freeDestination p s).inflight = s.inflight := rfl

@[simp] theorem freeDestination_faulted (p : FrameRecord) (s : State) :
    (freeDestination p s).faulted = s.faulted := rfl

@[simp] theorem freeDestination_regWindow (p : FrameRecord) (s : State) :
    (freeDestination p s).regWindow = s.regWindow := rfl

@[simp] theorem freeDestination_inputs (p : FrameRecord) (s : State) :
    (freeDestination p s).inputs = s.inputs := rfl

@[simp] theorem freeDestination_lastRead (p : FrameRecord) (s : State) :
    (freeDestination p s).lastRead = s.lastRead := rfl

@[simp] theorem freeDestination_freeIndex (p : FrameRecord) (s : State) :
    (freeDestination p s).freeIndex = s.freeIndex + (destRegion p).bytes := rfl

/-! ## The reset input -/

@[simp] theorem platformReset_palValid (s : State) : (platformReset s).palValid = false := rfl

@[simp] theorem platformReset_geomValid (s : State) : (platformReset s).geomValid = false := rfl

@[simp] theorem platformReset_err (s : State) : (platformReset s).err = false := rfl

@[simp] theorem platformReset_errCode (s : State) : (platformReset s).errCode = .none := rfl

@[simp] theorem platformReset_actGeom (s : State) : (platformReset s).actGeom = .native := rfl

@[simp] theorem platformReset_actScaleEn (s : State) : (platformReset s).actScaleEn = false := rfl

@[simp] theorem platformReset_actFmt (s : State) : (platformReset s).actFmt = .packed16 := rfl

@[simp] theorem platformReset_palN (s : State) : (platformReset s).palN = 0 := rfl

@[simp] theorem platformReset_srcBase (s : State) : (platformReset s).srcBase = 0 := rfl

@[simp] theorem platformReset_dstBase (s : State) : (platformReset s).dstBase = 0 := rfl

@[simp] theorem platformReset_topskip (s : State) : (platformReset s).topskip = 8 := rfl

@[simp] theorem platformReset_vinc (s : State) : (platformReset s).vinc = 224 := rfl

@[simp] theorem platformReset_thr (s : State) : (platformReset s).thr = 3 := rfl

@[simp] theorem platformReset_palAddr (s : State) : (platformReset s).palAddr = 0 := rfl

@[simp] theorem platformReset_stage (s : State) : (platformReset s).stage = [] := rfl

@[simp] theorem platformReset_pal16 (s : State) : (platformReset s).pal16 = [] := rfl

@[simp] theorem platformReset_pair (s : State) : (platformReset s).pair = [] := rfl

@[simp] theorem platformReset_inflight (s : State) : (platformReset s).inflight = .none := rfl

@[simp] theorem platformReset_mem (s : State) : (platformReset s).mem = (abandon s).mem := rfl

@[simp] theorem platformReset_faulted (s : State) : (platformReset s).faulted = s.faulted := rfl

@[simp] theorem platformReset_regWindow (s : State) : (platformReset s).regWindow = s.regWindow := rfl

@[simp] theorem platformReset_inputs (s : State) : (platformReset s).inputs = s.inputs := rfl

@[simp] theorem platformReset_lastRead (s : State) : (platformReset s).lastRead = s.lastRead := rfl

@[simp] theorem platformReset_freeIndex (s : State) : (platformReset s).freeIndex = (abandon s).freeIndex := rfl

/-! ## The turns to come -/

@[simp] theorem withInputs_palValid (s : State) (l : List HostOp) : (s.withInputs l).palValid = s.palValid := rfl

@[simp] theorem withInputs_geomValid (s : State) (l : List HostOp) : (s.withInputs l).geomValid = s.geomValid := rfl

@[simp] theorem withInputs_err (s : State) (l : List HostOp) : (s.withInputs l).err = s.err := rfl

@[simp] theorem withInputs_errCode (s : State) (l : List HostOp) : (s.withInputs l).errCode = s.errCode := rfl

@[simp] theorem withInputs_actGeom (s : State) (l : List HostOp) : (s.withInputs l).actGeom = s.actGeom := rfl

@[simp] theorem withInputs_actScaleEn (s : State) (l : List HostOp) : (s.withInputs l).actScaleEn = s.actScaleEn := rfl

@[simp] theorem withInputs_actFmt (s : State) (l : List HostOp) : (s.withInputs l).actFmt = s.actFmt := rfl

@[simp] theorem withInputs_palN (s : State) (l : List HostOp) : (s.withInputs l).palN = s.palN := rfl

@[simp] theorem withInputs_srcBase (s : State) (l : List HostOp) : (s.withInputs l).srcBase = s.srcBase := rfl

@[simp] theorem withInputs_dstBase (s : State) (l : List HostOp) : (s.withInputs l).dstBase = s.dstBase := rfl

@[simp] theorem withInputs_topskip (s : State) (l : List HostOp) : (s.withInputs l).topskip = s.topskip := rfl

@[simp] theorem withInputs_vinc (s : State) (l : List HostOp) : (s.withInputs l).vinc = s.vinc := rfl

@[simp] theorem withInputs_thr (s : State) (l : List HostOp) : (s.withInputs l).thr = s.thr := rfl

@[simp] theorem withInputs_palAddr (s : State) (l : List HostOp) : (s.withInputs l).palAddr = s.palAddr := rfl

@[simp] theorem withInputs_stage (s : State) (l : List HostOp) : (s.withInputs l).stage = s.stage := rfl

@[simp] theorem withInputs_pal16 (s : State) (l : List HostOp) : (s.withInputs l).pal16 = s.pal16 := rfl

@[simp] theorem withInputs_pair (s : State) (l : List HostOp) : (s.withInputs l).pair = s.pair := rfl

@[simp] theorem withInputs_inflight (s : State) (l : List HostOp) : (s.withInputs l).inflight = s.inflight := rfl

@[simp] theorem withInputs_mem (s : State) (l : List HostOp) : (s.withInputs l).mem = s.mem := rfl

@[simp] theorem withInputs_faulted (s : State) (l : List HostOp) : (s.withInputs l).faulted = s.faulted := rfl

@[simp] theorem withInputs_regWindow (s : State) (l : List HostOp) : (s.withInputs l).regWindow = s.regWindow := rfl

@[simp] theorem withInputs_inputs (s : State) (l : List HostOp) : (s.withInputs l).inputs = l := rfl

@[simp] theorem withInputs_lastRead (s : State) (l : List HostOp) : (s.withInputs l).lastRead = s.lastRead := rfl

@[simp] theorem withInputs_freeIndex (s : State) (l : List HostOp) : (s.withInputs l).freeIndex = s.freeIndex := rfl

@[simp] theorem withInputs_busy (s : State) (l : List HostOp) : (s.withInputs l).busy = s.busy := rfl

@[simp] theorem withInputs_regBase (s : State) (l : List HostOp) :
    (s.withInputs l).regBase = s.regBase := rfl

/-! ## The latched record -/

@[simp] theorem latchedRecord_route (s : State) : (latchedRecord s).route = selectRoute s.actGeom s.actScaleEn := rfl

@[simp] theorem latchedRecord_fmt (s : State) : (latchedRecord s).fmt = s.actFmt := rfl

@[simp] theorem latchedRecord_geom (s : State) : (latchedRecord s).geom = s.actGeom := rfl

@[simp] theorem latchedRecord_srcBase (s : State) : (latchedRecord s).srcBase = s.srcBase := rfl

@[simp] theorem latchedRecord_dstBase (s : State) : (latchedRecord s).dstBase = s.dstBase := rfl

@[simp] theorem latchedRecord_topskip (s : State) : (latchedRecord s).topskip = s.topskip := rfl

@[simp] theorem latchedRecord_vinc (s : State) : (latchedRecord s).vinc = s.vinc := rfl

@[simp] theorem latchedRecord_thr (s : State) : (latchedRecord s).thr = s.thr := rfl

@[simp] theorem latchedRecord_palN (s : State) : (latchedRecord s).palN = s.palN := rfl

/-! ## BUSY -/

theorem busy_eq_false {s : State} : s.busy = false ↔ s.inflight = .none := by
  unfold State.busy; cases s.inflight <;> simp

theorem busy_eq_true {s : State} : s.busy = true ↔ s.inflight ≠ .none := by
  unfold State.busy; cases s.inflight <;> simp

theorem busy_congr {s t : State} (h : t.inflight = s.inflight) : t.busy = s.busy := by
  simp [State.busy, h]

@[simp] theorem recordError_busy (c : ErrorCode) (s : State) : (recordError c s).busy = s.busy :=
  busy_congr (by simp)

end Sys2Proof.Laws
end

