-- ==== Sys2Proof/Laws/Ops.lean ====
section
/-! SUPPORT. Once for each shared operation, everything it can do: "if it answers next t, then …", up to
the step. Later proofs cite these and do not unfold the operations. -/

namespace Sys2Proof.Laws

open Sys2Proof.Machine

variable {s t : State}

/-! ## Regions and the register window -/

theorem meets_iff (r q : Region) : r.meets q = true ↔
    0 < r.bytes ∧ 0 < q.bytes ∧ r.base < q.base + q.bytes ∧ q.base < r.base + r.bytes := by
  simp only [Region.meets, Bool.and_eq_true, decide_eq_true_eq, and_assoc]

theorem wraps_iff (r : Region) : r.wraps = true ↔ 2 ^ 32 < r.base + r.bytes :=
  decide_eq_true_iff

theorem touchesWindow_iff (base : Word) (t : BusAccess) : touchesWindow base t = true ↔
    t.addr.toNat < base.toNat + 64 ∧ base.toNat < t.addr.toNat + t.size.bytes :=
  (Bool.and_eq_true_iff).trans (and_congr decide_eq_true_iff decide_eq_true_iff)

/-- An access apart from the register window is an access to bus memory. -/
theorem decodeAccess_outside {base : Word} {t : BusAccess}
    (h : t.addr.toNat + t.size.bytes ≤ base.toNat ∨ base.toNat + 64 ≤ t.addr.toNat) :
    decodeAccess base t = .error .outsideWindow := by
  have hn : ¬ touchesWindow base t = true := by rw [touchesWindow_iff]; omega
  rw [decodeAccess, if_neg hn]

/-! ## STATUS -/

/-- Bit 0 of the word RD STATUS returns is BUSY (10_state.md R34). -/
theorem statusWord_bit0 (s : State) : (statusWord s).getLsbD 0 = s.busy := by
  simp [statusWord, bitWord]

/-! ## Errors, answers, guards -/

/-- A destination that takes free bytes changes no byte outside its region. -/
theorem freeDestination_read (p : FrameRecord) (s : State) (a : Nat)
    (h : a < (destRegion p).base ∨ (destRegion p).base + (destRegion p).bytes ≤ a) :
    (freeDestination p s).mem.read a = s.mem.read a := by
  refine read_write_of_not_mem _ _ _ _ ?_
  simp only [List.length_map, List.length_range]
  omega

theorem raiseError_next {c : ErrorCode} (h : raiseError c s = .next t) : t = recordError c s := by
  simpa [raiseError] using h.symm

theorem answer_next {v : Word} (h : answer v s = .next t) : t = { s with lastRead := some v } := by
  simpa [answer] using h.symm

theorem faultContract_ne_next {k : ContractKind} : faultContract k s ≠ .next t := by
  simp [faultContract]

theorem writeWhenIdle_next {s' : State} (h : writeWhenIdle s s' = .next t) :
    (s.busy = true ∧ t = recordError .writeBusy s) ∨ (s.busy = false ∧ t = s') := by
  unfold writeWhenIdle at h
  cases hb : s.busy <;> simp only [hb, if_true, if_false, Bool.false_eq_true] at h
  · exact .inr ⟨rfl, by simpa using h.symm⟩
  · exact .inl ⟨rfl, raiseError_next h⟩

theorem commandWhenIdle_next {r : Bool} {accept : State → Result}
    (h : commandWhenIdle r accept s = .next t) :
    (s.busy = true ∧ t = recordError .cmdBusy s) ∨
    (s.busy = false ∧ r = true ∧ t = recordError .reserved s) ∨
    (s.busy = false ∧ r = false ∧ accept s = .next t) := by
  unfold commandWhenIdle at h
  cases hb : s.busy <;> cases r <;> simp only [hb, if_true, if_false, Bool.false_eq_true] at h
  · exact .inr (.inr ⟨rfl, rfl, h⟩)
  · exact .inr (.inl ⟨rfl, rfl, raiseError_next h⟩)
  · exact .inl ⟨rfl, raiseError_next h⟩
  · exact .inl ⟨rfl, raiseError_next h⟩

/-! ## What an operation on the port can do -/

/-- What an accepted operation does to an idle block. -/
inductive Accepted (s : State) : State → Prop
  | srcBase (v : Word) : Accepted s { s with srcBase := v }
  | dstBase (v : Word) : Accepted s { s with dstBase := v }
  | vcfg (v : Word) : Accepted s
      { s with topskip := v.extractLsb' 0 8, vinc := v.extractLsb' 16 9, thr := v.extractLsb' 28 3 }
  | palAddr (v : Word) : Accepted s { s with palAddr := v.extractLsb' 0 8 }
  | palData (v : Word) : Accepted s
      { s with stage := tablePut s.stage s.palAddr.toNat v, palAddr := s.palAddr + 1#8 }
  | setpal (n : BitVec 9) (hn : 1 ≤ n.toNat ∧ n.toNat ≤ 256) : Accepted s
      { s with palValid := false, inflight := .palette n }
  | setfmt (f : Format) : Accepted s { s with actFmt := f }
  | selgeom (g : Geometry) (en : Bool) : Accepted s
      { s with actGeom := g, actScaleEn := en, geomValid := true }
  | clrerr : Accepted s (clearError s)
  | scale (hg : s.geomValid = true) (hp : s.actFmt = .indexed8 → s.palValid = true)
      (hs : s.srcBase.extractLsb' 0 2 = 0#2) (hd : s.dstBase.extractLsb' 0 2 = 0#2)
      (hv : (latchedRecord s).route ≠ .native → vcfgLegal (latchedRecord s) = true)
      (hr : regionCheck (latchedRecord s) s = none) : Accepted s
      { s with inflight := .scale (latchedRecord s) }

/-- Everything an operation on the port can do when it answers a next state. -/
inductive PortEffect (s : State) : State → Prop
  | refused (c : ErrorCode) (hc : c ≠ .none) : PortEffect s (recordError c s)
  | answered (v : Word) : PortEffect s { s with lastRead := some v }
  | ignored : PortEffect s s
  | accepted (t : State) (hb : s.busy = false) (ht : Accepted s t) : PortEffect s t

theorem acceptSetpal_next {n : BitVec 9} (hb : s.busy = false) (h : acceptSetpal n s = .next t) :
    PortEffect s t := by
  unfold acceptSetpal at h
  split at h
  · rw [raiseError_next h]; exact .refused _ (by simp)
  · cases h; exact .accepted _ hb (.setpal n (by omega))

theorem acceptSetfmt_next {f : Format} (hb : s.busy = false) (h : acceptSetfmt f s = .next t) :
    PortEffect s t := by
  cases h; exact .accepted _ hb (.setfmt f)

theorem acceptSelgeom_next {en : Bool} {n p0 p1 p2 : BitVec 2} {supp : BitVec 3}
    (hb : s.busy = false) (h : acceptSelgeom en n p0 p1 p2 supp s = .next t) : PortEffect s t := by
  unfold acceptSelgeom at h
  simp only at h
  split at h
  · rw [raiseError_next h]; exact .refused _ (by simp)
  · split at h
    · cases h; exact .accepted _ hb (.selgeom _ en)
    · rw [raiseError_next h]; exact .refused _ (by simp)

theorem acceptScale_next (hb : s.busy = false) (h : acceptScale s = .next t) : PortEffect s t := by
  unfold acceptScale at h
  split at h
  · rw [raiseError_next h]; exact .refused _ (by simp)
  split at h
  · rw [raiseError_next h]; exact .refused _ (by simp)
  split at h
  · rw [raiseError_next h]; exact .refused _ (by simp)
  split at h
  · rw [raiseError_next h]; exact .refused _ (by simp)
  split at h
  · exact absurd h faultContract_ne_next
  · cases h
    rename_i hg hp ha hv _ hr
    refine .accepted _ hb (.scale (by simpa using hg) (fun hf => ?_) ?_ ?_ (fun hn => ?_) hr)
    · simpa [hf] using hp
    · simp only [not_or, not_not] at ha; exact ha.1
    · simp only [not_or, not_not] at ha; exact ha.2
    · by_contra hc; exact hv ⟨hn, by simpa using hc⟩

theorem acceptClrerr_next (hb : s.busy = false) (h : acceptClrerr s = .next t) : PortEffect s t := by
  cases h; exact .accepted _ hb .clrerr

theorem command_next {r : Bool} {accept : State → Result}
    (ha : ∀ {u}, s.busy = false → accept s = .next u → PortEffect s u)
    (h : commandWhenIdle r accept s = .next t) : PortEffect s t := by
  rcases commandWhenIdle_next h with ⟨_, rfl⟩ | ⟨_, _, rfl⟩ | ⟨hb, _, h⟩
  · exact .refused _ (by simp)
  · exact .refused _ (by simp)
  · exact ha hb h

theorem register_next {s' : State} (ha : Accepted s s') (h : writeWhenIdle s s' = .next t) :
    PortEffect s t := by
  rcases writeWhenIdle_next h with ⟨_, rfl⟩ | ⟨hb, rfl⟩
  · exact .refused _ (by simp)
  · exact .accepted _ hb ha

theorem execWrCmd_next {c : Word} (h : execWrCmd c s = .next t) : PortEffect s t := by
  unfold execWrCmd at h
  simp only at h
  split at h
  · rw [raiseError_next h]; exact .refused _ (by simp)
  rename_i hb
  have hb : s.busy = false := by simpa using hb
  split at h
  · rw [raiseError_next h]; exact .refused _ (by simp)
  split at h
  · rw [raiseError_next h]; exact .refused _ (by simp)
  split at h
  · exact acceptSetpal_next hb h
  · exact acceptSetfmt_next hb h
  · exact acceptSelgeom_next hb h
  · exact acceptScale_next hb h
  · exact acceptClrerr_next hb h

/-- Everything `exec` can do when it answers a next state. -/
theorem exec_next {i : Instr} (h : exec i s = .next t) : PortEffect s t := by
  cases i with
  | setpal n r => exact command_next acceptSetpal_next h
  | setfmt f r => exact command_next acceptSetfmt_next h
  | selgeom en n p0 p1 p2 supp r7 r14 r19 => exact command_next acceptSelgeom_next h
  | scale r => exact command_next acceptScale_next h
  | clrerr r => exact command_next acceptClrerr_next h
  | illegal op rest =>
    simp only [exec, execIllegal] at h
    split at h <;> (rw [raiseError_next h]; exact .refused _ (by simp))
  | wrCmd c => exact execWrCmd_next h
  | rdCmd => rw [answer_next h]; exact .answered _
  | rdStatus => rw [answer_next h]; exact .answered _
  | wrStatus v => cases h; exact .ignored
  | rdSrcBase => rw [answer_next h]; exact .answered _
  | wrSrcBase v => exact register_next (.srcBase v) h
  | rdDstBase => rw [answer_next h]; exact .answered _
  | wrDstBase v => exact register_next (.dstBase v) h
  | rdVcfg => rw [answer_next h]; exact .answered _
  | wrVcfg v => exact register_next (.vcfg v) h
  | rdPalAddr => rw [answer_next h]; exact .answered _
  | wrPalAddr v => exact register_next (.palAddr v) h
  | rdPalData => rw [answer_next h]; exact .answered _
  | wrPalData v => exact register_next (.palData v) h
  | rdWrUnmapped off a =>
    cases a with
    | read => rw [answer_next h]; exact .answered _
    | write v => cases h; exact .ignored

/-! ## What a turn can do -/

/-- Everything a host's own access to bus memory can do when it answers a next state. -/
theorem hostMemory_next {a : BusAccess} (h : hostMemory a s = .next t) :
    (accessRegion a).wraps = false ∧ races a s = false ∧
    ((a.access = .read ∧ t = { s with lastRead := some (s.mem.readLE a.addr.toNat a.size) }) ∨
     (∃ v, a.access = .write v ∧
        t = { s with mem := s.mem.write a.addr.toNat (bytesLE v a.size) })) := by
  unfold hostMemory at h
  split at h
  · cases h
  split at h
  · exact absurd h faultContract_ne_next
  refine ⟨by simpa using ‹¬ (accessRegion a).wraps = true›, by simpa using ‹¬ races a s = true›, ?_⟩
  cases ha : a.access with
  | read => rw [ha] at h; exact .inl ⟨rfl, answer_next h⟩
  | write v => rw [ha] at h; cases h; exact .inr ⟨v, rfl, rfl⟩

/-- Everything the completion of a SCALE can do when it answers a next state. -/
theorem completeScale_next {p : FrameRecord} (h : completeScale p s = .next t) :
    ∃ m, frame p s.pal16 s.pair s.mem = some m ∧ t = { s with mem := m, inflight := .none } := by
  unfold completeScale at h
  split at h
  · exact absurd h faultContract_ne_next
  · cases h; exact ⟨_, ‹_›, rfl⟩

theorem engineTurn_palette {n : BitVec 9} (h : s.inflight = .palette n) :
    engineTurn s = .next (completePalette n s) := by
  simp only [engineTurn, h]

theorem engineTurn_scale {p : FrameRecord} (h : s.inflight = .scale p) :
    engineTurn s = completeScale p s := by
  simp only [engineTurn, h]

theorem completeScale_of_some {p : FrameRecord} {m : Memory}
    (h : frame p s.pal16 s.pair s.mem = some m) :
    completeScale p s = .next { s with mem := m, inflight := .none } := by
  simp only [completeScale, h]

theorem completeScale_of_none {p : FrameRecord} (h : frame p s.pal16 s.pair s.mem = none) :
    completeScale p s = faultContract .indexRange (freeDestination p s) := by
  simp only [completeScale, h]

/-- Everything a turn of the engine can do when it answers a next state. -/
theorem engineTurn_next (h : engineTurn s = .next t) :
    (s.inflight = .none ∧ t = s) ∨
    (∃ n, s.inflight = .palette n ∧ t = completePalette n s) ∨
    (∃ p m, s.inflight = .scale p ∧ frame p s.pal16 s.pair s.mem = some m ∧
      t = { s with mem := m, inflight := .none }) := by
  unfold engineTurn at h
  split at h
  · cases h; exact .inl ⟨‹_›, rfl⟩
  · cases h; exact .inr (.inl ⟨_, ‹_›, rfl⟩)
  · obtain ⟨m, hm, rfl⟩ := completeScale_next h
    exact .inr (.inr ⟨_, m, ‹_›, hm, rfl⟩)

/-- Everything one poll of WAIT can do. -/
theorem waitPoll_next (h : waitPoll s = .next t) :
    t = { s with lastRead := some (statusWord s) } ∨
    t = { s with lastRead := some (statusWord s), inputs := .engine :: .wait :: s.inputs } := by
  unfold waitPoll at h
  simp only at h
  split at h <;> cases h
  · exact .inr rfl
  · exact .inl rfl

/-- Everything an operation on the port or the bus can do when it answers a next state. -/
theorem runPort_next {p : PortInput} (h : runPort p s = .next t) :
    (∃ i, decode s.regBase p = .ok i ∧ exec i s = .next t) ∨
    (∃ a, p = .access a ∧ decodeAccess s.regBase a = .error .outsideWindow ∧
      hostMemory a s = .next t) := by
  unfold runPort at h
  split at h
  · exact .inl ⟨_, rfl, h⟩
  · split at h
    · exact .inl ⟨_, ‹_›, h⟩
    · exact absurd h faultContract_ne_next
    · exact .inr ⟨_, rfl, ‹_›, h⟩

/-- A FAULTED state takes no step (60_exceptions.md R270). -/
theorem step_faulted {k : ContractKind} (h : s.faulted = some k) : step s = .fault (.contract k s) := by
  simp only [step, h]

/-- With no turn left a step is a turn of the engine. -/
theorem step_nil (hf : s.faulted = none) (hi : s.inputs = []) : step s = engineTurn s := by
  simp only [step, hf, hi]

/-- With a turn to come a step is that turn, taken off the list. -/
theorem step_cons {op : HostOp} {rest : List HostOp} (hf : s.faulted = none)
    (hi : s.inputs = op :: rest) : step s = perform op (s.withInputs rest) := by
  simp only [step, hf, hi]

/-- A run goes on from the state that its first step answers. -/
theorem run_next (k : Nat) (h : step s = .next t) :
    Sys2Proof.core.run (k + 1) s = Sys2Proof.core.run k t := by
  have h : Sys2Proof.core.step s = .next t := h
  simp only [Host.Core.run, h]

/-- A run stops at the fault of its first step. -/
theorem run_fault (k : Nat) {r : Fault} (h : step s = .fault r) :
    Sys2Proof.core.run (k + 1) s = .fault r := by
  have h : Sys2Proof.core.step s = .fault r := h
  simp only [Host.Core.run, h]

/-- Everything a step can do when it answers a next state. -/
theorem step_next (h : step s = .next t) :
    s.faulted = none ∧
    ((s.inputs = [] ∧ engineTurn s = .next t) ∨
     (∃ p rest, s.inputs = .port p :: rest ∧ runPort p (s.withInputs rest) = .next t) ∨
     (∃ rest, s.inputs = .wait :: rest ∧ waitPoll (s.withInputs rest) = .next t) ∨
     (∃ rest, s.inputs = .engine :: rest ∧ engineTurn (s.withInputs rest) = .next t) ∨
     (∃ rest, s.inputs = .reset :: rest ∧ t = platformReset (s.withInputs rest))) := by
  unfold step at h
  split at h
  · cases h
  refine ⟨‹_›, ?_⟩
  split at h
  · exact .inl ⟨‹_›, h⟩
  rename_i op rest hi
  cases op with
  | port p => exact .inr (.inl ⟨p, rest, hi, h⟩)
  | wait => exact .inr (.inr (.inl ⟨rest, hi, h⟩))
  | engine => exact .inr (.inr (.inr (.inl ⟨rest, hi, h⟩)))
  | reset => cases h; exact .inr (.inr (.inr (.inr ⟨rest, hi, rfl⟩)))

end Sys2Proof.Laws
end

