-- ==== Sys2Proof/Laws/PerInstr.lean ====
section
/-! SUPPORT. The family EncodesInWindow: what a host puts on the port for an operation is a command word
or an aligned 32-bit access inside the register window (44_commands.md R219). -/

namespace Sys2Proof.Laws

/-- An aligned 32-bit access at an offset of the window at `base`. -/
def InWindow (base : Word) (t : BusAccess) : Prop :=
  t.size = .word ∧ ∃ off : BitVec 6, off.extractLsb' 0 2 = 0#2 ∧ t.addr = base + off.setWidth 32

/-- The encoding of a well-formed operation has the shape of 30_encoding.md R100 and R111. -/
def EncodesInWindow.Statement (i : Instr) : Prop :=
  i.wf = true → ∀ base : Word,
    match encode base i with
    | .command _ => True
    | .access t => InWindow base t

theorem registerAccess_inWindow (base : Word) (off : BitVec 6) (a : Access)
    (h : off.extractLsb' 0 2 = 0#2) :
    match registerAccess base off a with
    | .command _ => True
    | .access t => InWindow base t := ⟨rfl, off, h, rfl⟩

theorem EncodesInWindow.setpal (count : BitVec 9) (reserved : BitVec 19) :
    EncodesInWindow.Statement (.setpal count reserved) := fun _ _ => trivial

theorem EncodesInWindow.setfmt (fmt : Format) (reserved : BitVec 27) :
    EncodesInWindow.Statement (.setfmt fmt reserved) := fun _ _ => trivial

theorem EncodesInWindow.selgeom
    (scaleEn : Bool) (npref pref0 pref1 pref2 : BitVec 2) (supp : BitVec 3)
    (reserved7 : BitVec 1) (reserved14 : BitVec 2) (reserved19 : BitVec 13) :
    EncodesInWindow.Statement (.selgeom scaleEn npref pref0 pref1 pref2 supp reserved7 reserved14 reserved19) := fun _ _ => trivial

theorem EncodesInWindow.scale (reserved : BitVec 28) :
    EncodesInWindow.Statement (.scale reserved) := fun _ _ => trivial

theorem EncodesInWindow.clrerr (reserved : BitVec 28) :
    EncodesInWindow.Statement (.clrerr reserved) := fun _ _ => trivial

theorem EncodesInWindow.illegal (opcode : BitVec 4) (rest : BitVec 28) :
    EncodesInWindow.Statement (.illegal opcode rest) := fun _ _ => trivial

theorem EncodesInWindow.wrCmd (c : Word) :
    EncodesInWindow.Statement (.wrCmd c) := fun _ _ =>
  registerAccess_inWindow _ _ _ (by decide)

theorem EncodesInWindow.rdCmd :
    EncodesInWindow.Statement .rdCmd := fun _ _ =>
  registerAccess_inWindow _ _ _ (by decide)

theorem EncodesInWindow.rdStatus :
    EncodesInWindow.Statement .rdStatus := fun _ _ =>
  registerAccess_inWindow _ _ _ (by decide)

theorem EncodesInWindow.wrStatus (v : Word) :
    EncodesInWindow.Statement (.wrStatus v) := fun _ _ =>
  registerAccess_inWindow _ _ _ (by decide)

theorem EncodesInWindow.rdSrcBase :
    EncodesInWindow.Statement .rdSrcBase := fun _ _ =>
  registerAccess_inWindow _ _ _ (by decide)

theorem EncodesInWindow.wrSrcBase (v : Word) :
    EncodesInWindow.Statement (.wrSrcBase v) := fun _ _ =>
  registerAccess_inWindow _ _ _ (by decide)

theorem EncodesInWindow.rdDstBase :
    EncodesInWindow.Statement .rdDstBase := fun _ _ =>
  registerAccess_inWindow _ _ _ (by decide)

theorem EncodesInWindow.wrDstBase (v : Word) :
    EncodesInWindow.Statement (.wrDstBase v) := fun _ _ =>
  registerAccess_inWindow _ _ _ (by decide)

theorem EncodesInWindow.rdVcfg :
    EncodesInWindow.Statement .rdVcfg := fun _ _ =>
  registerAccess_inWindow _ _ _ (by decide)

theorem EncodesInWindow.wrVcfg (v : Word) :
    EncodesInWindow.Statement (.wrVcfg v) := fun _ _ =>
  registerAccess_inWindow _ _ _ (by decide)

theorem EncodesInWindow.rdPalAddr :
    EncodesInWindow.Statement .rdPalAddr := fun _ _ =>
  registerAccess_inWindow _ _ _ (by decide)

theorem EncodesInWindow.wrPalAddr (v : Word) :
    EncodesInWindow.Statement (.wrPalAddr v) := fun _ _ =>
  registerAccess_inWindow _ _ _ (by decide)

theorem EncodesInWindow.rdPalData :
    EncodesInWindow.Statement .rdPalData := fun _ _ =>
  registerAccess_inWindow _ _ _ (by decide)

theorem EncodesInWindow.wrPalData (v : Word) :
    EncodesInWindow.Statement (.wrPalData v) := fun _ _ =>
  registerAccess_inWindow _ _ _ (by decide)

theorem EncodesInWindow.rdWrUnmapped (offset : BitVec 6) (access : Access) :
    EncodesInWindow.Statement (.rdWrUnmapped offset access) := fun h base => by
  refine registerAccess_inWindow base offset access ?_
  simp only [Instr.wf, unmappedOffset, Bool.and_eq_true, beq_iff_eq] at h
  exact h.2

end Sys2Proof.Laws
end

