-- ==== Sys2Proof/Tests/Slice0.lean ====
section
/-! SUPPORT. Tests on fixed values. The expected results are those of 95_test_vectors.md (its numbers
stand in the comments), of 30_encoding.md R121, or worked out by hand from the rule named. After them,
for every obligation with hypotheses, a state and operands that meet the hypotheses together. -/

namespace Sys2Proof.Tests

open Sys2Proof.Machine

/-! ## Helpers -/

/-- The block after reset, its window at 0xF0000000. -/
def idle : State := State.resetAt 0x3C00000#26

/-- One part of the next state, if there is one. -/
def after {α : Type} (f : State → α) : Result → Option α
  | .next t => some (f t)
  | .fault _ => none
  | .refused _ => none

/-- The kind of a contract fault, if the outcome is one. -/
def faultKind : Result → Option ContractKind
  | .next _ => none
  | .fault (.contract k _) => some k
  | .fault .noSuchAddress => none
  | .refused _ => none

/-- An access of a host. -/
def access (addr : Word) (size : Size) (a : Access) : PortInput :=
  .access { addr := addr, size := size, access := a }

/-- The operation that a bus access is, with the window at 0xF0000000. -/
def accessOf (addr : Word) (size : Size) (a : Access) : Option Instr :=
  (decode 0xF0000000#32 (access addr size a)).toOption

/-- A state whose next turn is `op`. -/
def turn (op : HostOp) (s : State) : State := { s with inputs := [op] }

/-- PACKED16, G400, scaling on, from 0x00100000 to 0x00200000, VCFG as after reset. -/
def h54Frame : FrameRecord where
  route := .h54
  fmt := .packed16
  geom := .g400
  srcBase := 0x00100000#32
  dstBase := 0x00200000#32
  topskip := 8#8
  vinc := 224#9
  thr := 3#3
  palN := 0#9

/-- PACKED16, G480, scaling on. -/
def h32Frame : FrameRecord := { h54Frame with route := .h32, geom := .g480 }

/-- INDEXED8, G480, scaling on, one palette entry. -/
def indexedFrame : FrameRecord := { h32Frame with fmt := .indexed8, palN := 1#9 }

/-- PACKED16, NATIVE. -/
def nativeFrame : FrameRecord := { h54Frame with route := .native, geom := .native }

/-- INDEXED8, NATIVE, one palette entry. -/
def nativeIndexed : FrameRecord := { nativeFrame with fmt := .indexed8, palN := 1#9 }

/-- The block with the SCALE of `p` in flight, over the registers and the mode it was accepted from. -/
def scaling (p : FrameRecord) : State :=
  { idle with
    inflight := .scale p, geomValid := true, actGeom := p.geom, actFmt := p.fmt
    actScaleEn := decide (p.route ≠ .native), srcBase := p.srcBase, dstBase := p.dstBase
    palN := p.palN, palValid := decide (p.fmt = .indexed8)
    pal16 := if p.palN = 1#9 then [(0, 0xF800#16)] else []
    pair := if p.palN = 1#9 then [(0, 0xF800F800#32)] else [] }

/-- The block idle, ready for the SCALE of `p`. -/
def ready (p : FrameRecord) : State := { scaling p with inflight := .none }

/-- The block with a SETPAL 256 in flight. -/
def paletteBusy : State := { idle with inflight := .palette 256#9 }

/-! ## Well-formedness -/

theorem test_wf_refuses_illegal_with_legal_opcode :
    (Instr.illegal 1#4 0#28).wf = false ∧ (Instr.illegal 5#4 0#28).wf = false ∧
      (Instr.illegal 0#4 0#28).wf = true ∧ (Instr.illegal 6#4 0#28).wf = true ∧
      (Instr.illegal 15#4 0#28).wf = true := by decide

theorem test_wf_refuses_mapped_offset :
    (Instr.rdWrUnmapped 0x18#6 .read).wf = false ∧ (Instr.rdWrUnmapped 0x1C#6 .read).wf = true := by
  decide

theorem test_wf_refuses_unaligned_offset :
    (Instr.rdWrUnmapped 0x1E#6 .read).wf = false ∧ (Instr.rdWrUnmapped 0x3C#6 .read).wf = true := by
  decide

/-! ## Decoding: words written out from 30_encoding.md -/

-- R102, R121: `SETPAL 256` is 0x00001001: COUNT 1_0000_0000, OPCODE 0001.
theorem test_decode_setpal :
    decodeCommand 0b0000000000000000001_000000000_0001#32 = .setpal 0#9 1#19 ∧
    decodeCommand 0b0000000000000000000_100000000_0001#32 = .setpal 256#9 0#19 ∧
    decodeCommand 0x00001001#32 = .setpal 256#9 0#19 ∧
    decodeCommand 0x00000031#32 = .setpal 3#9 0#19 := by decide

-- R103, R121: FMT is bit 4.
theorem test_decode_setfmt :
    decodeCommand 0b000000000000000000000000000_1_0010#32 = .setfmt .packed16 0#27 ∧
    decodeCommand 0x00000002#32 = .setfmt .indexed8 0#27 ∧
    decodeCommand 0x00000032#32 = .setfmt .packed16 1#27 := by decide

-- R104, R121: 13 reserved bits, SUPP, 2 reserved, PREF2, PREF1, PREF0, 1 reserved, NPREF, SCALE_EN.
theorem test_decode_selgeom :
    decodeCommand 0b0000000000000_111_00_00_01_10_0_11_1_0011#32 =
      .selgeom true 3#2 2#2 1#2 0#2 7#3 0#1 0#2 0#13 ∧
    decodeCommand 0x00070673#32 = .selgeom true 3#2 2#2 1#2 0#2 7#3 0#1 0#2 0#13 ∧
    decodeCommand 0x00040013#32 = .selgeom true 0#2 0#2 0#2 0#2 4#3 0#1 0#2 0#13 ∧
    decodeCommand 0b0000000000001_001_10_00_00_01_1_01_0_0011#32 =
      .selgeom false 1#2 1#2 0#2 0#2 1#3 1#1 2#2 1#13 := by decide

-- R105, R106.
theorem test_decode_scale_clrerr :
    decodeCommand 0x00000004#32 = .scale 0#28 ∧ decodeCommand 0x80000004#32 = .scale 0x8000000#28 ∧
    decodeCommand 0x00000005#32 = .clrerr 0#28 ∧ decodeCommand 0x00000015#32 = .clrerr 1#28 := by
  decide

-- R108: 0x0 and 0x6 to 0xF.
theorem test_decode_illegal :
    decodeCommand 0x00000000#32 = .illegal 0#4 0#28 ∧ decodeCommand 0x00000006#32 = .illegal 6#4 0#28 ∧
    decodeCommand 0x00000017#32 = .illegal 7#4 1#28 ∧ decodeCommand 0xFFFFFFFF#32 = .illegal 15#4 0xFFFFFFF#28 := by
  decide

-- R111 with the offsets of 10_state.md R32, the window at 0xF0000000.
theorem test_decode_reads :
    accessOf 0xF0000000#32 .word .read = some .rdCmd ∧
    accessOf 0xF0000004#32 .word .read = some .rdStatus ∧
    accessOf 0xF0000008#32 .word .read = some .rdSrcBase ∧
    accessOf 0xF000000C#32 .word .read = some .rdDstBase ∧
    accessOf 0xF0000010#32 .word .read = some .rdVcfg ∧
    accessOf 0xF0000014#32 .word .read = some .rdPalAddr ∧
    accessOf 0xF0000018#32 .word .read = some .rdPalData ∧
    accessOf 0xF000001C#32 .word .read = some (.rdWrUnmapped 0x1C#6 .read) := by decide

theorem test_decode_writes :
    accessOf 0xF0000000#32 .word (.write 7#32) = some (.wrCmd 7#32) ∧
    accessOf 0xF0000004#32 .word (.write 7#32) = some (.wrStatus 7#32) ∧
    accessOf 0xF0000008#32 .word (.write 7#32) = some (.wrSrcBase 7#32) ∧
    accessOf 0xF000000C#32 .word (.write 7#32) = some (.wrDstBase 7#32) ∧
    accessOf 0xF0000010#32 .word (.write 7#32) = some (.wrVcfg 7#32) ∧
    accessOf 0xF0000014#32 .word (.write 7#32) = some (.wrPalAddr 7#32) ∧
    accessOf 0xF0000018#32 .word (.write 7#32) = some (.wrPalData 7#32) ∧
    accessOf 0xF000003C#32 .word (.write 7#32) = some (.rdWrUnmapped 0x3C#6 (.write 7#32)) := by
  decide

-- 44_commands.md R219 (V2.11.6): no other shape is a register access.
theorem test_decode_refuses_other_shapes :
    accessOf 0xF0000004#32 .half .read = none ∧ accessOf 0xF0000004#32 .byte .read = none ∧
    accessOf 0xF0000006#32 .word .read = none ∧ accessOf 0xEFFFFFFE#32 .word .read = none ∧
    accessOf 0xF0000040#32 .word .read = none := by decide

-- The opcode table's words: a command word, and the offset of a register.
theorem test_decode_table_words :
    decodeTableWord 32 0x00001001 = some (.setpal 256#9 0#19) ∧
    decodeTableWord 8 0x04 = some (.scale 0#28) ∧
    decodeTableWord 8 0x10 = some (.wrVcfg 0#32) ∧
    decodeTableWord 8 0x1C = some (.rdWrUnmapped 0x1C#6 (.write 0#32)) := by decide

-- The next step runs the placed operation (R239: ACT_FMT becomes INDEXED8).
theorem test_step_runs_placed_word :
    after (·.actFmt) (step (idle.withFetchWord 32 0x00000002)) = some .indexed8 := by decide

-- R113 and R121: the statements' words; R119: FRAME.
theorem test_statements :
    selgeomStatement true [.g480, .g400, .native] 7#3 = .port (.command 0x00070673#32) ∧
    selgeomStatement true [] 4#3 = .port (.command 0x00040013#32) ∧
    setpalStatement 256#9 = .port (.command 0x00001001#32) ∧
    setfmtStatement .packed16 = .port (.command 0x00000012#32) ∧
    frameStatement 0xF0000000#32 1#32 2#32 =
      [.port (access 0xF0000008#32 .word (.write 1#32)), .port (access 0xF000000C#32 .word (.write 2#32)),
       .port (.command 4#32), .wait] := by decide

/-! ## The commands -/

-- V2.10.4, V2.10.5, V2.10.6, V2.10.7, V2.10.8.
theorem test_setpal :
    after statusWord (exec (.setpal 256#9 0#19) idle) = some 0x00000801#32 ∧
    after statusWord (exec (.setpal 3#9 0#19) idle) = some 0x00000801#32 ∧
    after statusWord (exec (.setpal 0#9 0#19) idle) = some 0x00000858#32 ∧
    after statusWord (exec (.setpal 257#9 0#19) idle) = some 0x00000858#32 ∧
    after statusWord (exec (.setpal 256#9 1#19) idle) = some 0x00000828#32 := by decide

-- V2.10.9, V2.10.10, V2.10.11.
theorem test_setfmt :
    after statusWord (exec (.setfmt .packed16 0#27) idle) = some 0x00000800#32 ∧
    after statusWord (exec (.setfmt .indexed8 0#27) idle) = some 0x00000000#32 ∧
    after statusWord (exec (.setfmt .packed16 1#27) idle) = some 0x00000828#32 := by decide

-- V2.10.12, V2.10.13, V2.10.17, V2.10.18, V2.10.19, V2.10.20.
theorem test_selgeom :
    after statusWord (exec (decodeCommand 0x00070673#32) idle) = some 0x00000E04#32 ∧
    after statusWord (exec (decodeCommand 0x00030673#32) idle) = some 0x00000D04#32 ∧
    after statusWord (exec (decodeCommand 0x00010C23#32) idle) = some 0x00000804#32 ∧
    after statusWord (exec (decodeCommand 0x00070323#32) idle) = some 0x00000828#32 ∧
    after statusWord (exec (decodeCommand 0x000100A3#32) idle) = some 0x00000828#32 ∧
    after statusWord (exec (decodeCommand 0x00040013#32) idle) = some 0x00000868#32 := by decide

-- V2.10.21, V2.10.22; V2.12.3, V2.12.4, V2.12.5, V2.12.6 with ERR_CODE in bits 7:4.
theorem test_scale_refusals :
    after statusWord (exec (.scale 0#28) idle) = some 0x00000878#32 ∧
    after statusWord (exec (.scale 1#28) idle) = some 0x00000828#32 ∧
    after (·.errCode) (exec (.scale 0#28)
      { ready h54Frame with actFmt := .indexed8, srcBase := 2#32 }) = some .palUnset ∧
    after (·.errCode) (exec (.scale 0#28)
      { ready h54Frame with srcBase := 2#32, vinc := 232#9 }) = some .misaligned ∧
    after (·.errCode) (exec (.scale 0#28) { ready h54Frame with vinc := 232#9 }) = some .badVcfg := by
  decide

-- R248, and V2.12.6: on NATIVE the VCFG is not checked.
theorem test_scale_accepted :
    after (·.inflight) (exec (.scale 0#28) (ready h54Frame)) = some (.scale h54Frame) ∧
    after (·.inflight) (exec (.scale 0#28) { ready nativeFrame with vinc := 232#9 }) =
      some (.scale { nativeFrame with vinc := 232#9 }) := by decide

-- V2.10.24, V2.10.25; and ERR cleared.
theorem test_clrerr :
    after statusWord (exec (.clrerr 0#28) idle) = some 0x00000800#32 ∧
    after statusWord (exec (.clrerr 1#28) idle) = some 0x00000828#32 ∧
    after statusWord (exec (.clrerr 0#28) { idle with err := true, errCode := .badCount }) =
      some 0x00000800#32 := by decide

-- V2.10.1, V2.10.3; V2.12.1: CMD_BUSY before ILLEGAL_OP.
theorem test_illegal :
    after statusWord (exec (.illegal 0#4 0#28) idle) = some 0x00000818#32 ∧
    after statusWord (exec (.illegal 15#4 0#28) idle) = some 0x00000818#32 ∧
    after (·.errCode) (exec (.illegal 6#4 0#28) paletteBusy) = some .cmdBusy := by decide

-- V2.10.2, V2.10.14, V2.10.15, V2.10.16, V2.10.23; V2.12.7: a later error keeps the first code.
theorem test_wrCmd :
    after statusWord (exec (.wrCmd 0x00000006#32) idle) = some 0x00000818#32 ∧
    after statusWord (exec (.wrCmd 0x00070653#32) idle) = some 0x00000E04#32 ∧
    after statusWord (exec (.wrCmd 0x00020153#32) idle) = some 0x00000D04#32 ∧
    after statusWord (exec (.wrCmd 0x00010023#32) idle) = some 0x00000804#32 ∧
    after statusWord (exec (.wrCmd 0x80000004#32) idle) = some 0x00000828#32 ∧
    after (·.errCode) (exec (.wrCmd 0x00000001#32) { idle with err := true, errCode := .geomUnset }) =
      some .geomUnset := by decide

/-! ## The register accesses -/

-- V2.11.1, V2.11.3, V2.11.4.
theorem test_reads_after_reset :
    after (·.lastRead) (exec .rdStatus idle) = some (some 0x00000800#32) ∧
    after (·.lastRead) (exec .rdVcfg idle) = some (some 0x30E00008#32) ∧
    after (·.lastRead) (exec .rdSrcBase idle) = some (some 0#32) ∧
    after (·.lastRead) (exec .rdCmd idle) = some (some 0#32) ∧
    after (·.lastRead) (exec .rdPalData idle) = some (some 0#32) ∧
    after (·.lastRead) (exec (.rdWrUnmapped 0x20#6 .read) idle) = some (some 0#32) := by decide

-- R221.
theorem test_reads_of_registers :
    after (·.lastRead) (exec .rdSrcBase (ready h54Frame)) = some (some 0x00100000#32) ∧
    after (·.lastRead) (exec .rdDstBase (ready h54Frame)) = some (some 0x00200000#32) ∧
    after (·.lastRead) (exec .rdPalAddr { idle with palAddr := 0xA5#8 }) = some (some 0xA5#32) := by
  decide

-- V2.11.2.
theorem test_wrVcfg :
    after vcfgWord (exec (.wrVcfg 0xFFFFFFFF#32) idle) = some 0x71FF00FF#32 ∧
    after (·.vinc) (exec (.wrVcfg 0x01020304#32) idle) = some 0x102#9 := by decide

-- V2.11.7, and the same for DST_BASE (R226).
theorem test_wr_bases :
    after (·.srcBase) (exec (.wrSrcBase 0x00100002#32) idle) = some 0x00100002#32 ∧
    after (·.dstBase) (exec (.wrDstBase 0x00200002#32) idle) = some 0x00200002#32 ∧
    after (·.dstBase) (exec (.wrSrcBase 0x00100002#32) idle) = some 0#32 := by decide

-- V2.2.8: refused while BUSY, the first code is kept.
theorem test_wr_bases_busy :
    after (·.srcBase) (exec (.wrSrcBase 0x1234#32) paletteBusy) = some 0#32 ∧
    after (·.errCode) (exec (.wrSrcBase 0x1234#32) { paletteBusy with err := true, errCode := .cmdBusy }) =
      some .cmdBusy ∧
    after (·.errCode) (exec (.wrDstBase 0x1234#32) paletteBusy) = some .writeBusy := by decide

-- V2.2.2.
theorem test_wrPalAddr :
    after (·.palAddr) (exec (.wrPalAddr 256#32) idle) = some 0#8 ∧
    after (·.palAddr) (exec (.wrPalAddr 255#32) idle) = some 255#8 := by decide

-- V2.2.1, its last two writes.
theorem test_wrPalData :
    after (fun t => (t.stage, t.palAddr)) (exec (.wrPalData 0xFF#32) { idle with palAddr := 255#8 }) =
      some ([(255, 0xFF#32)], 0#8) ∧
    after (fun t => (t.stage, t.palAddr))
        (exec (.wrPalData 0xFF00#32) { idle with stage := [(255, 0xFF#32)] }) =
      some ([(0, 0xFF00#32), (255, 0xFF#32)], 1#8) := by decide

-- V2.11.4, V2.11.5.
theorem test_ignored_writes :
    after id (exec (.wrStatus 0xFFFFFFFF#32) idle) = some idle ∧
    after id (exec (.rdWrUnmapped 0x20#6 (.write 0xFFFFFFFF#32)) paletteBusy) = some paletteBusy := by
  decide

/-! ## Contract faults, the bus and reset -/

-- V2.11.6.
theorem test_regAccess_fault :
    faultKind (step (turn (.port (access 0xF0000004#32 .half .read)) idle)) = some .regAccess ∧
    faultKind (step (turn (.port (access 0xEFFFFFFE#32 .word .read)) idle)) = some .regAccess := by
  decide

-- 20_memory.md R84, at the edges of the two regions.
theorem test_race_fault :
    faultKind (step (turn (.port (access 0x00200000#32 .byte .read)) (scaling h54Frame))) = some .race ∧
    faultKind (step (turn (.port (access 0x001257FF#32 .byte (.write 0#32))) (scaling h54Frame))) =
      some .race ∧
    after (·.lastRead) (step (turn (.port (access 0x00100000#32 .word .read)) (scaling h54Frame))) =
      some (some 0#32) := by decide

-- 20_memory.md R72, and the canonical form: a zero byte is not listed.
theorem test_host_store :
    after (·.mem) (step (turn (.port (access 0x1000#32 .word (.write 0x44003311#32))) idle)) =
      some [(0x1000, 0x11#8), (0x1001, 0x33#8), (0x1003, 0x44#8)] ∧
    after (·.lastRead) (step (turn (.port (access 0x1000#32 .half .read))
      { idle with mem := [(0x1000, 0x11#8), (0x1001, 0x33#8)] })) = some (some 0x3311#32) := by decide

-- 70_reset_and_hazards.md R290: the values of 10_state.md R53, from a busy state with an error.
theorem test_reset_input :
    after (fun t => (statusWord t, vcfgWord t, t.stage, t.inflight))
      (step (turn .reset { paletteBusy with stage := [(0, 5#32)], vinc := 1#9, err := true,
                                            errCode := .badCount })) =
      some (0x00000800#32, 0x30E00008#32, [], .none) := by decide

/-! ## The datapath -/

-- V2.1.1 to V2.1.10 but the plain ones.
theorem test_pack16 :
    pack16 0x00FF0000#32 = 0xF800#16 ∧ pack16 0x0000FF00#32 = 0x07E0#16 ∧
    pack16 0x000000FF#32 = 0x001F#16 ∧ pack16 0xFF000000#32 = 0#16 ∧
    pack16 0x80F8FCF8#32 = 0xFFFF#16 ∧ pack16 0x00123456#32 = 0x11AA#16 ∧
    pack16 0x00080400#32 = 0x0820#16 ∧ pack16 0x00070307#32 = 0#16 := by decide

-- V2.3.1, V2.3.2, V2.3.4, on the two entries they look at.
theorem test_pairLookup :
    pairLookup [(0x0102, 0xF800001F#32), (0x0201, 0x001FF800#32)] 3#9 0x0201#16 = some 0x001FF800#32 ∧
    pairLookup [(0x0102, 0xF800001F#32), (0x0201, 0x001FF800#32)] 3#9 0x0102#16 = some 0xF800001F#32 ∧
    pairLookup [(0x0301, 0#32)] 3#9 0x0301#16 = none := by decide

-- V2.3.6, on the entries of S2.
theorem test_palLookup :
    palLookup [(1, 0xF800#16), (2, 0x001F#16)] 3#9 2#8 = some 0x001F#16 ∧
    palLookup [(1, 0xF800#16), (2, 0x001F#16)] 3#9 3#8 = none := by decide

-- V2.2.3: PAL16 after SETPAL 3 with STAGE[2] never written.
theorem test_rebuildPal16 :
    rebuildPal16 [(0, 0x00FF0000#32), (1, 0x0000FF00#32)] 3 = [(0, 0xF800#16), (1, 0x07E0#16)] := by
  decide

-- V2.5.1, V2.5.2, V2.5.5, V2.5.8, V2.5.10, V2.5.11, V2.5.14, V2.5.16, V2.5.17, V2.5.20, V2.5.21.
theorem test_averages :
    avg16 0xF000#16 0x001E#16 = 0x780F#16 ∧ avg16 0xFFFF#16 0xFFFF#16 = 0xF7DE#16 ∧
    avg16 0x0001#16 0x0001#16 = 0#16 ∧ avg16 0xF7DE#16 0#16 = 0x7BEF#16 ∧
    avg16 0xF81F#16 0x07E0#16 = 0x7BEF#16 ∧
    average 0xF800001F#32 0x001FF800#32 = 0x780F780F#32 ∧
    average 0x80008000#32 0x80008000#32 = 0x80008000#32 ∧
    averageHi 0x001EF000#32 = 0x780F0000#32 ∧ averageLo 0x001EF000#32 = 0x0000780F#32 ∧
    averageHi 0x0000F7DE#32 = 0x7BEF0000#32 ∧ averageLo 0x0000F7DE#32 = 0x00007BEF#32 ∧
    averageHi 0x07C0F800#32 = 0x7BE00000#32 ∧ averageLo 0x07C0F800#32 = 0x00007BE0#32 := by decide

-- V2.6.1, V2.6.8.
theorem test_h54Group :
    h54Group 0x001EF000#32 0x000007C0#32 0x1084F7DE#32 0x001E2108#32 =
      [0x001EF000#32, 0x07C003EF#32, 0xF7DE0000#32, 0x18C61084#32, 0x001E2108#32] ∧
    h54Group 0x00020000#32 0x00060004#32 0x000A0008#32 0x000E000C#32 =
      [0x00020000#32, 0x00040003#32, 0x00080006#32, 0x000B000A#32, 0x000E000C#32] := by decide

-- V2.6.3, V2.6.5, V2.6.7, V2.6.9.
theorem test_h32Group :
    h32Group 0x001EF000#32 0x001E001E#32 = [0x780FF000#32, 0x001E001E#32, 0x001E001E#32] ∧
    h32Group 0xF000F000#32 0x001EF000#32 = [0xF000F000#32, 0xF000F000#32, 0x001E780F#32] ∧
    h32Group 0x001EF000#32 0x000007C0#32 = [0x780FF000#32, 0x07C0001E#32, 0x000003E0#32] ∧
    h32Group 0x00020000#32 0x00060004#32 = [0x00010000#32, 0x00040002#32, 0x00060005#32] := by decide

-- V2.7.4.
theorem test_vcfgLegal :
    vcfgLegal h54Frame = true ∧ vcfgLegal h32Frame = true ∧
    vcfgLegal { h54Frame with topskip := 15#8 } = true ∧
    vcfgLegal { h54Frame with topskip := 16#8 } = false ∧
    vcfgLegal { h32Frame with topskip := 16#8 } = false ∧
    vcfgLegal { h54Frame with vinc := 231#9 } = true ∧
    vcfgLegal { h54Frame with vinc := 232#9 } = false ∧
    vcfgLegal { h32Frame with vinc := 232#9, topskip := 7#8 } = true ∧
    vcfgLegal { h54Frame with vinc := 240#9, topskip := 0#8 } = false ∧
    vcfgLegal { h54Frame with vinc := 0#9 } = false ∧
    vcfgLegal { h54Frame with thr := 5#3 } = false := by decide

-- V2.7.1 and V2.7.2: the first lines of the two schedules.
theorem test_vStep :
    (vStep h54Frame)^[1] vStart = { e := 224, dh := 0, y := 1 } ∧
    (vStep h54Frame)^[16] vStart = { e := 224, dh := 14, y := 16 } ∧
    (vStep h32Frame)^[6] vStart = { e := 256, dh := 4, y := 6 } ∧
    (vStep h32Frame)^[17] vStart = { e := 0, dh := 14, y := 17 } := by decide

-- V2.7.5.
theorem test_blendWord :
    blendWord 0x0000F800#32 0x0000001F#32 = 0x0000700E#32 ∧ even32 0x001FF801#32 = 0x001EF000#32 := by
  decide

-- Section 2.9.
theorem test_selectRoute :
    selectRoute .native true = .native ∧ selectRoute .g400 false = .native ∧
    selectRoute .g400 true = .h54 ∧ selectRoute .g480 false = .native ∧
    selectRoute .g480 true = .h32 := by decide

/-! ## WITNESSES: a state and operands that meet an obligation's hypotheses, its name after `test_meets_` -/

theorem test_meets_DecodeInvertsEncode :
    (Instr.illegal 6#4 0#28).wf = true ∧ (Instr.rdWrUnmapped 0x3C#6 .read).wf = true ∧
      (Instr.setpal 256#9 0#19).wf = true := by decide

theorem test_meets_EncodeInvertsDecode :
    decode (0x3C00000#26 ++ 0#6) (.command 0x00001001#32) = .ok (.setpal 256#9 0#19) ∧
    decode (0x3C00000#26 ++ 0#6) (access 0xF000003C#32 .word .read) = .ok (.rdWrUnmapped 0x3C#6 .read) :=
  ⟨rfl, rfl⟩

theorem test_meets_StepRunsTheDecodedOperation :
    let s := turn (.port (access 0xF0000010#32 .word .read)) idle
    s.faulted = none ∧ s.inputs = .port (access 0xF0000010#32 .word .read) :: [] ∧
      decode s.regBase (access 0xF0000010#32 .word .read) = .ok .rdVcfg ∧ Instr.rdVcfg.wf = true :=
  ⟨rfl, rfl, rfl, rfl⟩

theorem test_meets_StepRunsTheEngine :
    paletteBusy.faulted = none ∧ paletteBusy.inputs = [] ∧ (turn .engine paletteBusy).faulted = none ∧
      (turn .engine paletteBusy).inputs = .engine :: [] := by decide

-- The two clauses: the last register, and an access that reaches into the window from below.
theorem test_meets_WindowAccessShape :
    let good : BusAccess := { addr := 0xF000003C#32, size := .word, access := .read }
    let bad : BusAccess := { addr := 0xEFFFFFFD#32, size := .word, access := .read }
    let s := turn (.port (.access good)) idle
    let t := turn (.port (.access bad)) idle
    (s.faulted = none ∧ s.inputs = .port (.access good) :: [] ∧
      (∃ x, good.addr.toNat ≤ x ∧ x < good.addr.toNat + good.size.bytes ∧
        s.regBase.toNat ≤ x ∧ x < s.regBase.toNat + 64) ∧
      good.size = .word ∧ ∃ k, k < 16 ∧ good.addr.toNat = s.regBase.toNat + 4 * k) ∧
    (t.faulted = none ∧ t.inputs = .port (.access bad) :: [] ∧
      (∃ x, bad.addr.toNat ≤ x ∧ x < bad.addr.toNat + bad.size.bytes ∧
        t.regBase.toNat ≤ x ∧ x < t.regBase.toNat + 64) ∧
      ¬ (bad.size = .word ∧ ∃ k, k < 16 ∧ bad.addr.toNat = t.regBase.toNat + 4 * k)) :=
  ⟨⟨rfl, rfl, ⟨0xF000003C, by decide⟩, rfl, 15, by decide⟩,
   ⟨rfl, rfl, ⟨0xF0000000, by decide⟩, by
      rintro ⟨-, k, -, h⟩
      have h : 4026531837 = 4026531840 + 4 * k := h
      omega⟩⟩

theorem test_meets_ErrorRecordKeepsTheFirst :
    idle.err = false ∧ ({ idle with err := true, errCode := .badCount } : State).err = true := by decide

-- The three ways: an error, CLRERR, reset.
theorem test_meets_OnlyClrerrAndResetClearTheError :
    (∃ t, step (turn (.port (.command 0#32)) idle) = .next t ∧ t.err = true) ∧
    (∃ t, step (turn (.port (.command 5#32)) { idle with err := true, errCode := .badCount }) = .next t ∧
      t.err = false) ∧
    (∃ t, step (turn .reset { idle with err := true, errCode := .badCount }) = .next t ∧
      t.err = false) :=
  ⟨⟨_, rfl, rfl⟩, ⟨_, rfl, rfl⟩, ⟨_, rfl, rfl⟩⟩

theorem test_meets_CommandWhileBusyIsRefused :
    paletteBusy.busy = true ∧ (scaling h54Frame).busy = true := by decide

theorem test_meets_RegisterWriteWhileBusyIsRefused :
    (scaling h54Frame).busy = true ∧ unmappedOffset 0x1C#6 = true ∧ unmappedOffset 0x3C#6 = true := by
  decide

theorem test_meets_IllegalOpcodeIsRefused :
    idle.busy = false ∧ ((0#4 : BitVec 4) = 0#4) ∧ 6 ≤ (6#4 : BitVec 4).toNat ∧
      6 ≤ (15#4 : BitVec 4).toNat := by decide

-- A word for each format, its lowest or highest reserved bit set; and code 3 in the last used slot.
theorem test_meets_ReservedBitsAreRefused :
    idle.busy = false ∧
    (0x00002001#32 : Word).extractLsb' 0 4 = 1#4 ∧ 0x00002001#32 &&& 0xFFFFE000#32 ≠ 0#32 ∧
    (0x80000002#32 : Word).extractLsb' 0 4 = 2#4 ∧ 0x80000002#32 &&& 0xFFFFFFE0#32 ≠ 0#32 ∧
    (0x000100A3#32 : Word).extractLsb' 0 4 = 3#4 ∧ 0x000100A3#32 &&& 0xFFF8C080#32 ≠ 0#32 ∧
    (0x00000014#32 : Word).extractLsb' 0 4 = 4#4 ∧ 0x00000014#32 &&& 0xFFFFFFF0#32 ≠ 0#32 ∧
    (0x80000005#32 : Word).extractLsb' 0 4 = 5#4 ∧ 0x80000005#32 &&& 0xFFFFFFF0#32 ≠ 0#32 ∧
    (0x00073063#32 : Word).extractLsb' 0 4 = 3#4 ∧ 2 < ((0x00073063#32 : Word).extractLsb' 5 2).toNat ∧
    (0x00073063#32 : Word).extractLsb' (8 + 2 * 2) 2 = 3#2 := by decide

theorem test_meets_BaseRegisterWrites : paletteBusy.busy = true ∧ idle.busy = false := by decide

theorem test_meets_VcfgWriteStoresThreeFields : paletteBusy.busy = true ∧ idle.busy = false := by decide

theorem test_meets_PalAddrWrite : paletteBusy.busy = true ∧ idle.busy = false := by decide

-- Also at the last index, where PAL_ADDR wraps.
theorem test_meets_PalDataWrite :
    paletteBusy.busy = true ∧ ({ idle with palAddr := 255#8 } : State).busy = false := by decide

theorem test_meets_StatusAndUnmappedAccesses :
    unmappedOffset 0x1C#6 = true ∧ unmappedOffset 0x3C#6 = true := by decide

theorem test_meets_SetpalAtAcceptance :
    idle.busy = false ∧ (1 ≤ (1#9 : BitVec 9).toNat ∧ (1#9 : BitVec 9).toNat ≤ 256) ∧
    (1 ≤ (256#9 : BitVec 9).toNat ∧ (256#9 : BitVec 9).toNat ≤ 256) ∧ (0#9 : BitVec 9).toNat = 0 ∧
    256 < (257#9 : BitVec 9).toNat := by decide

theorem test_meets_SetfmtSelectsTheFormat : idle.busy = false := by decide

/-- The slots of the witness below: G480, G400, code 3. -/
def slots (k : Nat) : BitVec 2 := if k = 0 then 2#2 else if k = 1 then 1#2 else 3#2

-- NPREF 3: the third slot holds code 3. NPREF 2: the second slot wins with SUPP = G400 only, and none
-- wins with SUPP = NATIVE only.
theorem test_meets_SelgeomTakesTheFirstSupported :
    idle.busy = false ∧ slots 0 = 2#2 ∧ slots 1 = 1#2 ∧ slots 2 = 3#2 ∧
    (∃ k, k < (3#2 : BitVec 2).toNat ∧ slots k = 3#2) ∧
    (∀ k, k < (2#2 : BitVec 2).toNat → slots k ≠ 3#2) ∧
    (1 < (2#2 : BitVec 2).toNat ∧ slots 1 = geometryCode .g400 ∧
      (2#3 : BitVec 3).getLsbD (slots 1).toNat = true ∧
      ∀ j, j < 1 → (2#3 : BitVec 3).getLsbD (slots j).toNat = false) ∧
    (∀ k, k < (2#2 : BitVec 2).toNat → (1#3 : BitVec 3).getLsbD (slots k).toNat = false) :=
  ⟨by decide, by decide, by decide, by decide, ⟨2, by decide⟩, by decide, by decide, by decide⟩

-- On H54 with TOPSKIP at its last legal value, and the two regions side by side.
theorem test_meets_ScaleIsAccepted :
    let s := { ready h54Frame with topskip := 15#8, dstBase := 0x00125800#32 }
    s.busy = false ∧ s.geomValid = true ∧ (s.actFmt = .indexed8 → s.palValid = true) ∧
    s.srcBase.toNat % 4 = 0 ∧ s.dstBase.toNat % 4 = 0 ∧
    (s.actScaleEn = true → s.actGeom ≠ .native →
      1 ≤ s.vinc.toNat ∧ s.vinc.toNat ≤ destHeight s.actGeom ∧ s.thr.toNat ≤ 4 ∧
      s.topskip.toNat + (destHeight s.actGeom - 1) * s.vinc.toNat / destHeight s.actGeom + 1 ≤ 239) ∧
    s.srcBase.toNat + 240 * srcPitch s.actFmt ≤ 2 ^ 32 ∧
    s.dstBase.toNat + destHeight s.actGeom * (2 * destWidth s.actGeom) ≤ 2 ^ 32 ∧
    s.srcBase.toNat + 240 * srcPitch s.actFmt ≤ s.dstBase.toNat ∧
    s.srcBase.toNat + 240 * srcPitch s.actFmt ≤ s.regBase.toNat ∧
    s.dstBase.toNat + destHeight s.actGeom * (2 * destWidth s.actGeom) ≤ s.regBase.toNat ∧
    (latchedRecord s).route = selectRoute s.actGeom s.actScaleEn := by decide

-- One state for each refusal: each of the earlier checks passes.
theorem test_meets_ScaleRefusalsInOrder :
    (idle.busy = false ∧ idle.geomValid = false) ∧
    (let s := { ready h54Frame with actFmt := .indexed8, srcBase := 2#32 }
     s.busy = false ∧ s.geomValid = true ∧ s.actFmt = .indexed8 ∧ s.palValid = false) ∧
    (let s := { ready h54Frame with dstBase := 1#32, vinc := 0#9 }
     s.busy = false ∧ s.geomValid = true ∧ ¬ (s.actFmt = .indexed8 ∧ s.palValid = false) ∧
      s.dstBase.toNat % 4 ≠ 0) ∧
    (let s := { ready h54Frame with topskip := 16#8 }
     s.busy = false ∧ s.geomValid = true ∧ ¬ (s.actFmt = .indexed8 ∧ s.palValid = false) ∧
      s.srcBase.toNat % 4 = 0 ∧ s.dstBase.toNat % 4 = 0 ∧ s.actScaleEn = true ∧ s.actGeom ≠ .native ∧
      239 < s.topskip.toNat
        + (destHeight s.actGeom - 1) * s.vinc.toNat / destHeight s.actGeom + 1) ∧
    (({ ready h54Frame with vinc := 0#9 } : State).vinc.toNat < 1) ∧
    (destHeight .g400 < ({ ready h54Frame with vinc := 241#9 } : State).vinc.toNat) ∧
    (4 < ({ ready h54Frame with thr := 5#3 } : State).thr.toNat) := by decide

/-- The two clauses of `ScaleContractFaults` at one mode: the destination of `high` ends one word past
the top, and the destination of `low` starts on the last word of the source. -/
abbrev FaultsWitness (high low : State) : Prop :=
  (high.busy = false ∧ high.geomValid = true ∧ (high.actFmt = .indexed8 → high.palValid = true) ∧
    high.srcBase.toNat % 4 = 0 ∧ high.dstBase.toNat % 4 = 0 ∧ VcfgPasses high ∧
    high.dstBase.toNat + destHeight high.actGeom * (2 * destWidth high.actGeom) = 2 ^ 32 + 4) ∧
  (low.busy = false ∧ low.geomValid = true ∧ (low.actFmt = .indexed8 → low.palValid = true) ∧
    low.srcBase.toNat % 4 = 0 ∧ low.dstBase.toNat % 4 = 0 ∧ VcfgPasses low ∧
    low.srcBase.toNat + 240 * srcPitch low.actFmt ≤ 2 ^ 32 ∧
    low.dstBase.toNat + destHeight low.actGeom * (2 * destWidth low.actGeom) ≤ 2 ^ 32 ∧
    low.dstBase.toNat + 4 = low.srcBase.toNat + 240 * srcPitch low.actFmt)

/-- The block idle, ready for the SCALE of `p` but for its destination. -/
def readyAt (p : FrameRecord) (dst : Word) : State := { ready p with dstBase := dst }

/-- The G480 geometry with scaling off. -/
def wideFrame : FrameRecord := { h32Frame with route := .native }

-- NATIVE, H54, H32, and G480 with scaling off.
theorem test_meets_ScaleContractFaults :
    FaultsWitness (readyAt nativeFrame 0xFFFDA804#32) (readyAt nativeFrame 0x001257FC#32) ∧
    FaultsWitness (readyAt h54Frame 0xFFFD1204#32) (readyAt h54Frame 0x001257FC#32) ∧
    FaultsWitness (readyAt h32Frame 0xFFFC0404#32) (readyAt h32Frame 0x001257FC#32) ∧
    FaultsWitness (readyAt wideFrame 0xFFFC0404#32) (readyAt wideFrame 0x001257FC#32) := by
  refine ⟨⟨?_, ?_⟩, ⟨?_, ?_⟩, ⟨?_, ?_⟩, ⟨?_, ?_⟩⟩ <;> decide

theorem test_meets_ClrerrClearsTheRecord :
    ({ idle with err := true, errCode := .badVcfg } : State).busy = false := by decide

/-- The idle block set up for `h54Frame` passes every check of SCALE. -/
theorem test_ready : ScaleReady (ready h54Frame) where
  geometry := by decide
  palette := by decide
  aligned := by decide
  vcfg := by decide
  top := by decide
  apart := by decide
  window := by decide

-- SETPAL at both ends of COUNT; SELGEOM with G480 unsupported before G400; a SCALE that is ready.
theorem test_meets_WrCmdIssuesTheCommand :
    (idle.busy = false ∧ 1 ≤ (1#9 : BitVec 9).toNat ∧ (256#9 : BitVec 9).toNat ≤ 256) ∧
    (slots 0 = 2#2 ∧ slots 1 = 1#2 ∧ slots 2 = 3#2 ∧
      (∀ j, j < (2#2 : BitVec 2).toNat → slots j ≠ 3#2) ∧
      1 < (2#2 : BitVec 2).toNat ∧ slots 1 = geometryCode .g400 ∧
      (2#3 : BitVec 3).getLsbD (slots 1).toNat = true ∧
      ∀ j, j < 1 → (2#3 : BitVec 3).getLsbD (slots j).toNat = false) ∧
    (ready h54Frame).busy = false ∧ ScaleReady (ready h54Frame) :=
  ⟨by decide, by decide, rfl, test_ready⟩

theorem test_meets_SetpalCompletion :
    paletteBusy.inflight = .palette 256#9 ∧ (256#9 : BitVec 9).toNat ≤ 256 ∧
    ({ idle with inflight := .palette 1#9 } : State).inflight = .palette 1#9 ∧
    0 < (1#9 : BitVec 9).toNat ∧ (1#9 : BitVec 9).toNat ≤ 1 := by decide

theorem test_meets_PairTableIsTheCrossProduct :
    ∃ t, ({ idle with inflight := .palette 2#9, stage := [(0, 0x00FF0000#32)] } : State).inflight =
        .palette 2#9 ∧
      engineTurn { idle with inflight := .palette 2#9, stage := [(0, 0x00FF0000#32)] } = .next t ∧
      tableGet t.pal16 0 = some 0xF800#16 ∧ tableGet t.pal16 1 = none :=
  ⟨_, rfl, rfl, by decide, by decide⟩

/-- A PACKED16 frame in flight completes. -/
theorem scaling_completes (p : FrameRecord) (h : p.fmt = .packed16) :
    ∃ t, engineTurn (scaling p) = .next t := by
  obtain ⟨m, hm⟩ := Laws.frame_packed h (scaling p).pal16 (scaling p).pair (scaling p).mem
  refine ⟨{ scaling p with mem := m, inflight := .none }, ?_⟩
  show completeScale p (scaling p) = _
  simp only [completeScale, hm]

-- A scaled route, and the NATIVE route into a wider geometry.
theorem test_meets_ScaleWritesOnlyItsPixels :
    ((scaling h54Frame).inflight = .scale h54Frame ∧
      h54Frame.route = selectRoute h54Frame.geom true ∧ h54Frame.route ≠ .native ∧
      ∃ t, engineTurn (scaling h54Frame) = .next t) ∧
    (let p := { nativeFrame with geom := .g480 }
     (scaling p).inflight = .scale p ∧ p.route = selectRoute p.geom false ∧ p.route = .native ∧
      ∃ t, engineTurn (scaling p) = .next t) :=
  ⟨⟨rfl, rfl, by decide, scaling_completes _ rfl⟩, ⟨rfl, rfl, rfl, scaling_completes _ rfl⟩⟩

theorem test_meets_NativePackedIsTheIdentity :
    (scaling nativeFrame).inflight = .scale nativeFrame ∧ nativeFrame.route = .native ∧
      nativeFrame.fmt = .packed16 ∧ (srcRegion nativeFrame).meets (destRegion nativeFrame) = false := by
  decide

/-- The paired table of one entry. -/
theorem pairMatches_one (c : Pixel) : PairMatches [(0, c)] [(0, pairWord c c)] := by
  intro i j hi hj
  by_cases h : i = 0 <;> by_cases k : j = 0
  · subst h k; rfl
  · subst h
    have k' : ¬ (0 = j) := by omega
    simp [tableGet, k']
  · have : ¬ (0 = i * 256 + j) := by omega
    have h' : ¬ (0 = i) := by omega
    simp [tableGet, this, h']
  · have : ¬ (0 = i * 256 + j) := by omega
    have h' : ¬ (0 = i) := by omega
    simp [tableGet, this, h']

-- Every index byte is 0, and entry 0 is defined.
theorem test_meets_NativeIndexedShowsThePalette :
    let s := scaling nativeIndexed
    s.inflight = .scale nativeIndexed ∧ nativeIndexed.route = .native ∧ nativeIndexed.fmt = .indexed8 ∧
      (srcRegion nativeIndexed).meets (destRegion nativeIndexed) = false ∧
      PairMatches s.pal16 s.pair ∧ ∀ y, y < 240 → LineIndicesLegal s nativeIndexed y :=
  ⟨rfl, rfl, rfl, by decide, pairMatches_one 0xF800#16, fun _ _ _ _ _ => ⟨Nat.zero_lt_one, rfl⟩⟩

-- The last index byte of the last line is 1, where PAL_N is 1.
theorem test_meets_NativeIndexOutOfRangeFaults :
    let s := { scaling nativeIndexed with mem := [(0x00112BFF, 1#8)] }
    s.inflight = .scale nativeIndexed ∧ nativeIndexed.route = .native ∧ nativeIndexed.fmt = .indexed8 ∧
      (srcRegion nativeIndexed).meets (destRegion nativeIndexed) = false ∧
      PairMatches s.pal16 s.pair ∧ ∃ y, y < 240 ∧ ¬ LineIndicesLegal s nativeIndexed y :=
  ⟨rfl, rfl, rfl, by decide, pairMatches_one 0xF800#16, 239, by decide,
    fun h => absurd (h rfl 319 (by decide)).1 (by decide)⟩

-- H54 PACKED16, and H32 INDEXED8 with every index legal.
theorem test_meets_ScaledFrameIsTheClosedForm :
    ((scaling h54Frame).inflight = .scale h54Frame ∧ h54Frame.geom ≠ .native ∧
      h54Frame.route = selectRoute h54Frame.geom true ∧ vcfgLegal h54Frame = true ∧
      (srcRegion h54Frame).meets (destRegion h54Frame) = false ∧
      ReadLinesLegal (scaling h54Frame) h54Frame) ∧
    ((scaling indexedFrame).inflight = .scale indexedFrame ∧ indexedFrame.geom ≠ .native ∧
      indexedFrame.route = selectRoute indexedFrame.geom true ∧ vcfgLegal indexedFrame = true ∧
      (srcRegion indexedFrame).meets (destRegion indexedFrame) = false ∧
      ReadLinesLegal (scaling indexedFrame) indexedFrame) :=
  ⟨⟨rfl, by decide, rfl, by decide, by decide, fun _ _ => ⟨fun h => (nomatch h), fun _ h => (nomatch h)⟩⟩,
   ⟨rfl, by decide, rfl, by decide, by decide,
     fun _ _ => ⟨fun _ _ _ => ⟨Nat.zero_lt_one, rfl⟩, fun _ _ _ _ => ⟨Nat.zero_lt_one, rfl⟩⟩⟩⟩

-- Index 1 in the first byte of line 8, the first line read.
theorem test_meets_ScaledIndexOutOfRangeFaults :
    let s := { scaling indexedFrame with mem := [(0x00100A00, 1#8)] }
    s.inflight = .scale indexedFrame ∧ indexedFrame.geom ≠ .native ∧
      indexedFrame.route = selectRoute indexedFrame.geom true ∧ vcfgLegal indexedFrame = true ∧
      (srcRegion indexedFrame).meets (destRegion indexedFrame) = false ∧
      ¬ ReadLinesLegal s indexedFrame :=
  ⟨rfl, by decide, rfl, by decide, by decide,
    fun h => absurd ((h 0 (by decide)).1 rfl 0 (by decide)).1 (by decide)⟩

-- VINC at 1 and at DH.
theorem test_meets_AccumulatorClosedForm :
    (1 ≤ ({ h54Frame with vinc := 1#9 } : FrameRecord).vinc.toNat ∧
      ({ h54Frame with vinc := 1#9 } : FrameRecord).vinc.toNat ≤ destHeight .g400) ∧
    (1 ≤ ({ h32Frame with vinc := 272#9 } : FrameRecord).vinc.toNat ∧
      ({ h32Frame with vinc := 272#9 } : FrameRecord).vinc.toNat ≤ destHeight .g480) := by decide

-- The first and the last line, TOPSKIP at its last legal value.
theorem test_meets_LegalVcfgReadsInsideTheFrame :
    vcfgLegal { h32Frame with topskip := 15#8 } = true ∧ 0 < destHeight .g480 ∧
      271 < destHeight .g480 := by decide

theorem test_meets_H54GroupLaneForm :
    even16 0xF7DE#16 = 0xF7DE#16 ∧ even16 0x1040#16 = 0x1040#16 ∧ even16 0#16 = 0#16 := by decide

theorem test_meets_H32GroupLaneForm :
    even16 0xF7DE#16 = 0xF7DE#16 ∧ even16 0x0002#16 = 0x0002#16 := by decide

/-- An access shares a byte with a range. -/
def sharesByte (a : BusAccess) (base bytes : Nat) : Prop :=
  ∃ x, a.addr.toNat ≤ x ∧ x < a.addr.toNat + a.size.bytes ∧ base ≤ x ∧ x < base + bytes

-- A read of the last destination byte, a write to the last source byte, a read of the next byte after it.
theorem test_meets_RaceWithAFrameFaults :
    let read : BusAccess := { addr := 0x0022EDFF#32, size := .byte, access := .read }
    let write : BusAccess := { addr := 0x001257FF#32, size := .byte, access := .write 0#32 }
    let aside : BusAccess := { addr := 0x0022EE00#32, size := .byte, access := .read }
    let s := fun a : BusAccess => turn (.port (.access a)) (scaling h54Frame)
    (∀ base bytes, sharesByte read base bytes ↔ ∃ x, read.addr.toNat ≤ x ∧
      x < read.addr.toNat + read.size.bytes ∧ base ≤ x ∧ x < base + bytes) ∧
    (s read).faulted = none ∧ (s read).inflight = .scale h54Frame ∧
    (s read).inputs = .port (.access read) :: [] ∧
    ¬ sharesByte read (s read).regBase.toNat 64 ∧ read.addr.toNat + read.size.bytes ≤ 2 ^ 32 ∧
    sharesByte read (destRegion h54Frame).base (destRegion h54Frame).bytes ∧
    ¬ sharesByte write (s write).regBase.toNat 64 ∧ write.access ≠ .read ∧
    sharesByte write (srcRegion h54Frame).base (srcRegion h54Frame).bytes ∧
    ¬ sharesByte aside (s aside).regBase.toNat 64 ∧ aside.access = .read ∧
    ¬ sharesByte aside (destRegion h54Frame).base (destRegion h54Frame).bytes := by
  have far : ∀ a : BusAccess, a.size = .byte → a.addr.toNat < 4026531840 →
      ¬ sharesByte a 4026531840 64 := by
    rintro a hs ha ⟨x, h1, h2, h3, h4⟩
    rw [hs] at h2
    have h2 : x < a.addr.toNat + 1 := h2
    omega
  refine ⟨fun _ _ => Iff.rfl, rfl, rfl, rfl, far _ rfl (by decide), by decide,
    ⟨0x0022EDFF, by decide⟩, far _ rfl (by decide), nofun, ⟨0x001257FF, by decide⟩,
    far _ rfl (by decide), rfl, ?_⟩
  rintro ⟨x, h1, h2, h3, h4⟩
  have h1 : 2289152 ≤ x := h1
  have h4 : x < 2097152 + 192000 := h4
  omega

-- Just below the window; at the top of memory; and, with a SCALE in flight, just past its source and just
-- below its destination.
theorem test_meets_HostStoreWritesItsBytes :
    let below : HostOp := .port (.access { addr := 0xEFFFFFFE#32, size := .half, access := .write 5#32 })
    let top : HostOp := .port (.access { addr := 0xFFFFFFFC#32, size := .word, access := .write 5#32 })
    let aside : HostOp := .port (.access { addr := 0x00125800#32, size := .word, access := .write 5#32 })
    ((turn below idle).faulted = none ∧ (turn below idle).inflight = .none ∧
      (turn below idle).inputs = below :: [] ∧
      Apart (0xEFFFFFFE#32 : Word).toNat Size.half.bytes (turn below idle).regBase.toNat 64 ∧
      (0xEFFFFFFE#32 : Word).toNat + Size.half.bytes ≤ 2 ^ 32) ∧
    ((turn top idle).faulted = none ∧ (turn top idle).inflight = .none ∧
      (turn top idle).inputs = top :: [] ∧
      Apart (0xFFFFFFFC#32 : Word).toNat Size.word.bytes (turn top idle).regBase.toNat 64 ∧
      (0xFFFFFFFC#32 : Word).toNat + Size.word.bytes ≤ 2 ^ 32) ∧
    ((turn aside (scaling h54Frame)).faulted = none ∧
      (turn aside (scaling h54Frame)).inflight = .scale h54Frame ∧
      (turn aside (scaling h54Frame)).inputs = aside :: [] ∧
      Apart (0x00125800#32 : Word).toNat 4 (srcRegion h54Frame).base (srcRegion h54Frame).bytes ∧
      Apart (0x001FFFFC#32 : Word).toNat 4 (destRegion h54Frame).base (destRegion h54Frame).bytes ∧
      Apart (0x00125800#32 : Word).toNat 4 (destRegion h54Frame).base (destRegion h54Frame).bytes ∧
      Apart (0x00125800#32 : Word).toNat 4 (turn aside (scaling h54Frame)).regBase.toNat 64) := by
  decide

-- At the top of memory; and, with a SCALE in flight, a byte of its source.
theorem test_meets_HostReadAnswersTheBytes :
    let top : HostOp := .port (.access { addr := 0xFFFFFFFE#32, size := .half, access := .read })
    let source : HostOp := .port (.access { addr := 0x00100000#32, size := .byte, access := .read })
    ((turn top idle).faulted = none ∧ (turn top idle).inflight = .none ∧
      (turn top idle).inputs = top :: [] ∧
      Apart (0xFFFFFFFE#32 : Word).toNat Size.half.bytes (turn top idle).regBase.toNat 64 ∧
      (0xFFFFFFFE#32 : Word).toNat + Size.half.bytes ≤ 2 ^ 32) ∧
    ((turn source (scaling h54Frame)).faulted = none ∧
      (turn source (scaling h54Frame)).inflight = .scale h54Frame ∧
      (turn source (scaling h54Frame)).inputs = source :: [] ∧
      Apart (0x00100000#32 : Word).toNat Size.byte.bytes
        (destRegion h54Frame).base (destRegion h54Frame).bytes ∧
      Apart (0x00100000#32 : Word).toNat Size.byte.bytes
        (turn source (scaling h54Frame)).regBase.toNat 64) := by
  decide

theorem test_meets_ResetValues : idle = State.resetAt 0x3C00000#26 := rfl

-- With nothing in flight, and with a SCALE in flight, at the two edges of its destination region.
theorem test_meets_ResetInput :
    ((turn .reset idle).faulted = none ∧ (turn .reset idle).inputs = .reset :: [] ∧
      (turn .reset idle).inflight = .none) ∧
    ((turn .reset (scaling h54Frame)).faulted = none ∧
      (turn .reset (scaling h54Frame)).inputs = .reset :: [] ∧
      (turn .reset (scaling h54Frame)).inflight = .scale h54Frame ∧
      0x001FFFFF < (destRegion h54Frame).base ∧
      (destRegion h54Frame).base + (destRegion h54Frame).bytes ≤ 0x0022EE00) := by decide

-- A running state, and a FAULTED one.
theorem test_meets_ContractFaultOnlyMarks :
    (∃ t, step (turn (.port (access 0xF0000004#32 .half .read)) idle) =
        .fault (.contract .regAccess t) ∧
      (turn (.port (access 0xF0000004#32 .half .read)) idle).faulted = none) ∧
    (∃ t, step { idle with faulted := some .race } = .fault (.contract .race t) ∧
      ({ idle with faulted := some .race } : State).faulted = some .race) :=
  ⟨⟨_, rfl, rfl⟩, ⟨_, rfl, rfl⟩⟩

/-- A state with an INDEXED8 frame in flight, a palette, a byte of memory, and RD STATUS to come. -/
def busyState : State :=
  { scaling indexedFrame with
    mem := [(0x00100000, 7#8)], stage := [(3, 0x00FF0000#32)]
    inputs := [.port (access 0xF0000004#32 .word .read)] }

theorem test_meets_StepKeepsTheInvariant : busyState.Inv ∧ ∃ t, step busyState = .next t where
  left :=
    { memory := by decide
      stage := by decide
      pal16 := by decide
      pair := by decide
      pairMatches := pairMatches_one 0xF800#16
      palN := by decide
      error := by decide
      geometry := by decide
      inflight := by
        show indexedFrame = latchedRecord busyState ∧ _
        decide
      running := rfl }
  right := ⟨_, rfl⟩

theorem test_meets_NothingChangesUnderAFrame :
    busyState.inflight = .scale indexedFrame ∧ ∃ t, step busyState = .next t ∧
      t.inflight = .scale indexedFrame := ⟨rfl, _, rfl, rfl⟩

theorem test_meets_BusyEndsByTheEngineOrReset :
    ∃ t, step (turn .engine paletteBusy) = .next t ∧ (turn .engine paletteBusy).busy = true ∧
      t.busy = false := ⟨_, rfl, rfl, rfl⟩

-- A write to PAL_DATA changes STAGE; the completion of a SETPAL changes PAL16.
theorem test_meets_TablesChangeOnlyByTheirWriters :
    (let s := turn (.port (access 0xF0000018#32 .word (.write 5#32))) idle
     ∃ t, step s = .next t ∧ s.inputs.head? ≠ some .reset ∧ t.stage ≠ s.stage) ∧
    (let s := turn .engine { paletteBusy with stage := [(0, 0x00FF0000#32)] }
     ∃ t, step s = .next t ∧ s.inputs.head? ≠ some .reset ∧ t.pal16 ≠ s.pal16) :=
  ⟨⟨_, rfl, by decide, by decide⟩, ⟨_, rfl, by decide, by decide⟩⟩

theorem test_meets_MemoryChangesOnlyByItsWriters :
    let s := turn (.port (access 0x1000#32 .byte (.write 5#32))) idle
    ∃ t, step s = .next t ∧ t.mem ≠ s.mem := ⟨_, rfl, by decide⟩

/-- What `WaitObservesIdle` says of the state after WAIT, with no turn left. -/
def Past (t : State) : Prop :=
  t.inputs = [] ∧ t.busy = false ∧ t.lastRead = some (statusWord t) ∧ (statusWord t).getLsbD 0 = false

/-- An INDEXED8 SCALE in flight whose completion meets an index out of range: PAL_N is 1, and the last
index byte of the frame is 1. -/
def badFrame : State := { scaling nativeIndexed with mem := [(0x00112BFF, 1#8)] }

-- Nothing in flight, a SETPAL, a PACKED16 SCALE, and an INDEXED8 SCALE of either end.
theorem test_meets_WaitObservesIdle :
    (∀ t, Past t ↔ t.inputs = [] ∧ t.busy = false ∧ t.lastRead = some (statusWord t) ∧
      (statusWord t).getLsbD 0 = false) ∧
    ((turn .wait idle).faulted = none ∧ (turn .wait idle).inputs = .wait :: [] ∧
      (turn .wait idle).inflight = .none) ∧
    ((turn .wait paletteBusy).faulted = none ∧ (turn .wait paletteBusy).inputs = .wait :: [] ∧
      (turn .wait paletteBusy).inflight = .palette 256#9) ∧
    ((turn .wait (scaling h54Frame)).faulted = none ∧
      (turn .wait (scaling h54Frame)).inputs = .wait :: [] ∧
      (turn .wait (scaling h54Frame)).inflight = .scale h54Frame ∧ h54Frame.fmt = .packed16) ∧
    ((turn .wait (scaling nativeIndexed)).inflight = .scale nativeIndexed ∧
      nativeIndexed.fmt = .indexed8) ∧
    ((turn .wait badFrame).faulted = none ∧ (turn .wait badFrame).inputs = .wait :: [] ∧
      (turn .wait badFrame).inflight = .scale nativeIndexed) :=
  ⟨fun _ => Iff.rfl, by decide, by decide, by decide, by decide, by decide⟩

-- R117 on an idle block: one step, STATUS read, the turn gone.
theorem test_wait_idle :
    after (fun t => (t.inputs, t.lastRead)) (step (turn .wait idle)) =
      some ([], some 0x00000800#32) := by decide

end Sys2Proof.Tests
end

section
/-! PROOFS. The scope statements (00_scope.md): how a step reaches the meaning of an operation. -/

namespace Sys2Proof.Proofs.Scope

open Sys2Proof.Machine

variable {s : State} {p : PortInput} {i : Instr}

/-- What the decoder names is what the port runs: for a command word because its decoder is total, for
an access because only an access the decoder declines goes on to a fault or to bus memory. -/
theorem runPort_of_decode (h : decode s.regBase p = .ok i) : runPort p s = exec i s := by
  cases p with
  | command c =>
    obtain rfl : decodeCommand c = i := Except.ok.inj h
    rfl
  | access t =>
    have ht : decodeAccess s.regBase t = .ok i := h
    simp only [runPort, ht]

/-- Settles O4: taking the turn off the list leaves REG_BASE as it is, so the port decodes the turn as
the state before the step does. -/
theorem stepRunsTheDecodedOperation : Obligations.StepRunsTheDecodedOperation := by
  intro s p rest i hf hi hd _
  have hd' : decode (s.withInputs rest).regBase p = .ok i := by rwa [Laws.withInputs_regBase]
  calc step s
      = perform (.port p) (s.withInputs rest) := Laws.step_cons hf hi
    _ = exec i (s.withInputs rest) := runPort_of_decode hd'

end Sys2Proof.Proofs.Scope
end

section
/-! PROOFS. The palette's tables (40_palette.md R131, R132): what a rebuild lists, that it lists it in
the canonical form, and that the paired table is the cross product of the single one. -/

namespace Sys2Proof.Proofs.PaletteTables

open Sys2Proof.Machine

variable {w : Nat}

/-- In a table with rising indices, what an index reads is exactly the entry listed for it. -/
theorem tableGet_eq_some_iff {t : Table w} (hs : t.Pairwise (fun a b => a.1 < b.1)) {i : Nat}
    {x : BitVec w} : tableGet t i = some x ↔ (i, x) ∈ t :=
  ⟨Laws.mem_of_tableGet, Laws.tableGet_of_mem hs⟩

/-! ## The single table (40_palette.md R131) -/

theorem mem_rebuildPal16 {stage : Table 32} {n : Nat} {e : Nat × Pixel} :
    e ∈ rebuildPal16 stage n ↔
      e.1 < 256 ∧ e.1 < n ∧ ∃ c, tableGet stage e.1 = some c ∧ pack16 c = e.2 := by
  obtain ⟨k, x⟩ := e
  simp only [rebuildPal16, List.mem_filterMap, List.mem_range, Option.ite_none_right_eq_some,
    Option.map_eq_some_iff, Prod.mk.injEq]
  constructor
  · rintro ⟨i, hi, hin, c, hc, rfl, hx⟩
    exact ⟨hi, hin, c, hc, hx⟩
  · rintro ⟨hi, hin, c, hc, hx⟩
    exact ⟨k, hi, hin, c, hc, rfl, hx⟩

theorem rebuildPal16_wf (stage : Table 32) (n : Nat) : tableWf (rebuildPal16 stage n) n := by
  refine ⟨?_, fun e he => (mem_rebuildPal16.1 he).2.1⟩
  refine List.pairwise_lt_range.filterMap _ fun i j hij b hb b' hb' => ?_
  simp only [Option.ite_none_right_eq_some, Option.map_eq_some_iff] at hb hb'
  obtain ⟨_, _, _, rfl⟩ := hb
  obtain ⟨_, _, _, rfl⟩ := hb'
  exact hij

/-! ## The paired table (40_palette.md R132) -/

/-- The entries of the paired table whose first index is `i`. -/
def pairRow (pal16 : Table 16) (i : Nat) : Table 32 :=
  (List.range 256).filterMap fun j =>
    (tableGet pal16 i).bind fun ci => (tableGet pal16 j).map fun cj => (i * 256 + j, pairWord cj ci)

theorem rebuildPair_eq_rows (pal16 : Table 16) :
    rebuildPair pal16 = (List.range 256).flatMap (pairRow pal16) := by
  unfold rebuildPair
  congr 1
  funext i
  cases h : tableGet pal16 i <;> simp [pairRow, h]

theorem mem_pairRow {pal16 : Table 16} {i : Nat} {e : Nat × Word} :
    e ∈ pairRow pal16 i ↔ ∃ j ci cj, j < 256 ∧ tableGet pal16 i = some ci ∧
      tableGet pal16 j = some cj ∧ e = (i * 256 + j, pairWord cj ci) := by
  simp only [pairRow, List.mem_filterMap, List.mem_range, Option.bind_eq_some_iff,
    Option.map_eq_some_iff]
  grind

theorem pairRow_pairwise (pal16 : Table 16) (i : Nat) :
    (pairRow pal16 i).Pairwise (fun a b => a.1 < b.1) := by
  refine List.pairwise_lt_range.filterMap _ fun j k hjk b hb b' hb' => ?_
  simp only [Option.bind_eq_some_iff, Option.map_eq_some_iff] at hb hb'
  obtain ⟨_, _, _, _, rfl⟩ := hb
  obtain ⟨_, _, _, _, rfl⟩ := hb'
  exact Nat.add_lt_add_left hjk _

theorem mem_rebuildPair {pal16 : Table 16} {e : Nat × Word} :
    e ∈ rebuildPair pal16 ↔ ∃ i j ci cj, i < 256 ∧ j < 256 ∧ tableGet pal16 i = some ci ∧
      tableGet pal16 j = some cj ∧ e = (i * 256 + j, pairWord cj ci) := by
  simp only [rebuildPair_eq_rows, List.mem_flatMap, List.mem_range, mem_pairRow]
  grind

theorem rebuildPair_wf (pal16 : Table 16) : tableWf (rebuildPair pal16) 65536 := by
  constructor
  · rw [rebuildPair_eq_rows, List.pairwise_flatMap]
    refine ⟨fun i _ => pairRow_pairwise pal16 i, List.pairwise_lt_range.imp fun {i k} hik a ha b hb => ?_⟩
    obtain ⟨j, _, _, hj, _, _, rfl⟩ := mem_pairRow.1 ha
    obtain ⟨l, _, _, _, _, _, rfl⟩ := mem_pairRow.1 hb
    show i * 256 + j < k * 256 + l
    omega
  · intro e he
    obtain ⟨i, j, _, _, hi, hj, _, _, rfl⟩ := mem_rebuildPair.1 he
    show i * 256 + j < 65536
    omega

/-- A rebuilt paired table is the cross product of the single table it is made from
(40_palette.md R132, R134): below 256 the two indices are read off the key. -/
theorem rebuildPair_matches (pal16 : Table 16) : PairMatches pal16 (rebuildPair pal16) := by
  intro i j hi hj
  ext x
  rw [tableGet_eq_some_iff (rebuildPair_wf pal16).1, mem_rebuildPair]
  constructor
  · rintro ⟨i', j', ci, cj, hi', hj', hci, hcj, he⟩
    obtain ⟨hk, rfl⟩ := Prod.mk.inj he
    obtain ⟨rfl, rfl⟩ : i = i' ∧ j = j' := by omega
    rw [hci, hcj]
  · intro hx
    split at hx
    · next ci cj hci hcj => exact ⟨i, j, ci, cj, hi, hj, hci, hcj, by rw [Option.some.inj hx]⟩
    · cases hx

end Sys2Proof.Proofs.PaletteTables
end

section
/-! PROOFS. The memory that a frame, an abandoned frame and a host's own write leave (20_memory.md R77): what
every emission of a line keeps the whole frame keeps, the canonical form among it. -/

namespace Sys2Proof.Proofs.FrameMemory

open Sys2Proof.Machine

variable {p : FrameRecord} {pal16 : Table 16} {pair : Table 32} {P : Memory → Prop}

/-- A property of memory that every emission of a line keeps: a line of the destination region, with no
more bytes than its pitch (20_memory.md R76, R77, 43_packer.md R207). -/
def KeptByLines (p : FrameRecord) (P : Memory → Prop) : Prop :=
  ∀ y d m, y < destHeight p.geom → 4 * d.length ≤ destPitch p.geom → P m → P (emitLine p y d m)

/-- The NATIVE route emits lines of 640 bytes, which every geometry has room for. -/
theorem nativeLines_keep (hP : KeptByLines p P) {n l : Nat} {m m' : Memory} (hl : l + n ≤ 240)
    (hm : P m) (h : nativeLines p pair n l m = some m') : P m' := by
  induction n generalizing l m with
  | zero => cases h; exact hm
  | succ n ih =>
    rw [nativeLines] at h
    split at h
    · cases h
    · next d hd =>
      have hy : l < destHeight p.geom := by cases p.geom <;> simp only [destHeight] <;> omega
      have hlen : 4 * d.length ≤ destPitch p.geom := by
        rw [Laws.length_nativeLine hd]
        cases p.geom <;> decide
      exact ih (by omega) (hP l d m hy hlen hm) h

/-- A scaled route emits one line of exactly the pitch for each destination line. -/
theorem scaledLines_keep (hP : KeptByLines p P) (hg : p.geom ≠ .native)
    (hr : p.route = selectRoute p.geom true) {n : Nat} {v : VState} {m m' : Memory}
    (hv : v.y + n ≤ destHeight p.geom) (hm : P m) (h : scaledLines p pal16 n v m = some m') :
    P m' := by
  induction n generalizing v m with
  | zero => cases h; exact hm
  | succ n ih =>
    rw [scaledLines] at h
    split at h
    · cases h
    · next ws hws =>
      have hlen : 4 * (scaleLine p.route ws).length ≤ destPitch p.geom := by
        rw [hr, Laws.length_scaleLine hg (Laws.length_vLine hws), destPitch]
        omega
      have hy : (vStep p v).y = v.y + 1 := by unfold vStep; simp only; split <;> rfl
      exact ih (by omega) (hP v.y _ m (by omega) hlen hm) h

/-- What every emission of a line keeps, the whole frame keeps. -/
theorem frame_keep (hP : KeptByLines p P) {en : Bool} (hr : p.route = selectRoute p.geom en)
    {m m' : Memory} (hm : P m) (h : frame p pal16 pair m = some m') : P m' := by
  have scaled (hn : p.route ≠ .native)
      (h : scaledLines p pal16 (destHeight p.geom) vStart m = some m') : P m' := by
    have hen : en = true := by
      rw [hr] at hn
      cases en
      · exact absurd rfl hn
      · rfl
    subst hen
    have hg : p.geom ≠ .native := fun hg => hn (by rw [hr, hg]; rfl)
    exact scaledLines_keep hP hg hr (by simp [vStart]) hm h
  unfold frame at h
  split at h
  · exact nativeLines_keep hP (Nat.le_refl 240) hm h
  · next hroute => exact scaled (by simp [hroute]) h
  · next hroute => exact scaled (by simp [hroute]) h

theorem le_busBytes_of_wraps {r : Region} (hw : r.wraps = false) :
    r.base + r.bytes ≤ Config.busBytes :=
  Nat.le_of_not_lt (of_decide_eq_false hw)

/-- Line `y` lies inside the destination region (20_memory.md R77). -/
theorem destLineAddr_le {y : Nat} (hy : y < destHeight p.geom) :
    destLineAddr p y + destPitch p.geom ≤ (destRegion p).base + (destRegion p).bytes := by
  have hmul : (y + 1) * destPitch p.geom ≤ destHeight p.geom * destPitch p.geom :=
    Nat.mul_le_mul_right _ hy
  rw [Nat.succ_mul] at hmul
  simp only [destLineAddr, destRegion]
  omega

/-- A frame whose destination region is inside the bus keeps the canonical form of memory. -/
theorem frame_wf {en : Bool} (hr : p.route = selectRoute p.geom en)
    (hw : (destRegion p).wraps = false) {m m' : Memory} (hm : m.wf)
    (h : frame p pal16 pair m = some m') : m'.wf := by
  have hbus := le_busBytes_of_wraps hw
  refine frame_keep (P := Memory.wf) (fun y d m hy hlen hm => ?_) hr hm h
  have hline := destLineAddr_le hy
  refine Laws.write_wf hm _ _ ?_
  rw [Laws.length_lineBytes]
  omega

/-- A destination region that takes free bytes keeps the canonical form, if it is inside the bus. -/
theorem freeDestination_wf {s : State} (hw : (destRegion p).wraps = false) (hm : s.mem.wf) :
    (freeDestination p s).mem.wf := by
  refine Laws.write_wf hm _ _ ?_
  rw [List.length_map, List.length_range]
  exact le_busBytes_of_wraps hw

/-- A host's own write that does not pass the last address keeps the canonical form. -/
theorem hostWrite_wf {a : BusAccess} {m : Memory} {v : Word} (hw : (accessRegion a).wraps = false)
    (hm : m.wf) : (m.write a.addr.toNat (bytesLE v a.size)).wf := by
  refine Laws.write_wf hm _ _ ?_
  rw [Laws.length_bytesLE]
  exact le_busBytes_of_wraps hw

end Sys2Proof.Proofs.FrameMemory
end

section
/-! PROOFS. What the operations, and the engine's turn, do to the error record and to the tables: each
operation named with its own effect, which `Laws.PortEffect` leaves open. -/

namespace Sys2Proof.Proofs.OperationEffects

open Sys2Proof.Machine

variable {s t : State}

/-! ## What an operation on the port leaves alone, read off `Laws.PortEffect` -/

/-- While BUSY is 1 an operation leaves what is in flight: none is accepted. -/
theorem inflight_of_portEffect_busy (hb : s.busy = true) (h : Laws.PortEffect s t) :
    t.inflight = s.inflight := by
  cases h with
  | refused c _ => exact Laws.recordError_inflight c s
  | answered v => rfl
  | ignored => rfl
  | accepted _ hi _ => rw [hi] at hb; cases hb

/-- No operation on the port writes PAL16 or PAIR (10_state.md R46, R47). -/
theorem tables_of_portEffect (h : Laws.PortEffect s t) : t.pal16 = s.pal16 ∧ t.pair = s.pair := by
  cases h with
  | refused c _ => exact ⟨Laws.recordError_pal16 c s, Laws.recordError_pair c s⟩
  | answered v => exact ⟨rfl, rfl⟩
  | ignored => exact ⟨rfl, rfl⟩
  | accepted _ _ ha => cases ha <;> exact ⟨rfl, rfl⟩

/-! ## The error record and STAGE: what all operations but CLRERR and WR PAL_DATA do -/

/-- ERR and ERR_CODE stay. -/
def ErrorStays (s t : State) : Prop := t.err = s.err ∧ t.errCode = s.errCode

/-- An error is recorded: ERR goes from 0 to 1, with a code that is not 0. -/
def ErrorSet (s t : State) : Prop := s.err = false ∧ t.err = true ∧ t.errCode ≠ .none

/-- STAGE stays, and the error record stays or takes an error. -/
structure Quiet (s t : State) : Prop where
  stage : t.stage = s.stage
  error : ErrorStays s t ∨ ErrorSet s t

theorem Quiet.of_stays (hs : t.stage = s.stage) (he : ErrorStays s t) : Quiet s t := ⟨hs, .inl he⟩

theorem Quiet.of_withInputs {l : List HostOp} (h : Quiet (s.withInputs l) t) : Quiet s t :=
  ⟨h.stage, h.error⟩

theorem recordError_quiet {c : ErrorCode} (hc : c ≠ .none) : Quiet s (recordError c s) := by
  refine ⟨Laws.recordError_stage c s, ?_⟩
  cases he : s.err with
  | true => rw [Laws.recordError_of_err he]; exact .inl ⟨rfl, rfl⟩
  | false => rw [Laws.recordError_of_no_err he]; exact .inr ⟨he, rfl, hc⟩

theorem raiseError_quiet {c : ErrorCode} (hc : c ≠ .none) (h : raiseError c s = .next t) :
    Quiet s t := by
  rw [Laws.raiseError_next h]; exact recordError_quiet hc

theorem answer_quiet {v : Word} (h : answer v s = .next t) : Quiet s t := by
  rw [Laws.answer_next h]; exact .of_stays rfl ⟨rfl, rfl⟩

theorem writeWhenIdle_quiet {s' : State} (h : writeWhenIdle s s' = .next t) (hs : Quiet s s') :
    Quiet s t := by
  rcases Laws.writeWhenIdle_next h with ⟨_, rfl⟩ | ⟨_, rfl⟩
  · exact recordError_quiet (by decide)
  · exact hs

theorem commandWhenIdle_quiet {r : Bool} {accept : State → Result}
    (ha : ∀ {u}, accept s = .next u → Quiet s u) (h : commandWhenIdle r accept s = .next t) :
    Quiet s t := by
  rcases Laws.commandWhenIdle_next h with ⟨_, rfl⟩ | ⟨_, _, rfl⟩ | ⟨_, _, h⟩
  · exact recordError_quiet (by decide)
  · exact recordError_quiet (by decide)
  · exact ha h

theorem acceptSetpal_quiet {n : BitVec 9} (h : acceptSetpal n s = .next t) : Quiet s t := by
  unfold acceptSetpal at h
  split at h
  · exact raiseError_quiet (by decide) h
  · cases h; exact .of_stays rfl ⟨rfl, rfl⟩

theorem acceptSetfmt_quiet {f : Format} (h : acceptSetfmt f s = .next t) : Quiet s t := by
  cases h; exact .of_stays rfl ⟨rfl, rfl⟩

theorem acceptSelgeom_quiet {en : Bool} {n p0 p1 p2 : BitVec 2} {supp : BitVec 3}
    (h : acceptSelgeom en n p0 p1 p2 supp s = .next t) : Quiet s t := by
  unfold acceptSelgeom at h
  simp only at h
  split at h
  · exact raiseError_quiet (by decide) h
  split at h
  · cases h; exact .of_stays rfl ⟨rfl, rfl⟩
  · exact raiseError_quiet (by decide) h

theorem acceptScale_quiet (h : acceptScale s = .next t) : Quiet s t := by
  unfold acceptScale at h
  split at h
  · exact raiseError_quiet (by decide) h
  split at h
  · exact raiseError_quiet (by decide) h
  split at h
  · exact raiseError_quiet (by decide) h
  split at h
  · exact raiseError_quiet (by decide) h
  split at h
  · exact absurd h Laws.faultContract_ne_next
  · cases h; exact .of_stays rfl ⟨rfl, rfl⟩

/-! ## Which operation does what to the error record and STAGE -/

/-- Everything an operation can do to the error record and STAGE, with the operation that does it. -/
inductive RecordEffect (i : Instr) (s t : State) : Prop
  | quiet (h : Quiet s t)
  | palData (v : Word) (hb : s.busy = false) (hi : i = .wrPalData v) (he : ErrorStays s t)
  | clrerr (hb : s.busy = false) (hi : i = .clrerr 0#28 ∨ i = .wrCmd 5#32) (ht : t = clearError s)

/-- The only word with OPCODE 5 and its reserved bits clear is CLRERR (30_encoding.md R106, R109). -/
theorem eq_clrerrWord {c : Word} (hop : c.extractLsb' 0 4 = 5#4)
    (hr : c &&& reservedMask 5#4 = 0#32) : c = 5#32 := by
  have hlow : c &&& 0xF#32 = (c.extractLsb' 0 4).setWidth 32 := by
    ext i hi
    interval_cases i <;> simp
  calc c = c &&& (reservedMask 5#4 ||| 0xF#32) := by
        rw [show reservedMask 5#4 ||| 0xF#32 = BitVec.allOnes 32 by decide, BitVec.and_allOnes]
    _ = c &&& reservedMask 5#4 ||| c &&& 0xF#32 := BitVec.and_or_distrib_left
    _ = 5#32 := by rw [hr, hlow, hop]; rfl

theorem legalOpcode_iff {op : BitVec 4} :
    legalOpcode op = true ↔ op = 1#4 ∨ op = 2#4 ∨ op = 3#4 ∨ op = 4#4 ∨ op = 5#4 := by
  simp [legalOpcode, or_assoc]

theorem execWrCmd_recordEffect {c : Word} (h : execWrCmd c s = .next t) :
    RecordEffect (.wrCmd c) s t := by
  unfold execWrCmd at h
  simp only at h
  split at h
  · exact .quiet (raiseError_quiet (by decide) h)
  next hb =>
  split at h
  · exact .quiet (raiseError_quiet (by decide) h)
  next hlegal =>
  split at h
  · exact .quiet (raiseError_quiet (by decide) h)
  next hr =>
  split at h
  · exact .quiet (acceptSetpal_quiet h)
  · exact .quiet (acceptSetfmt_quiet h)
  · exact .quiet (acceptSelgeom_quiet h)
  · exact .quiet (acceptScale_quiet h)
  · next h1 h2 h3 h4 =>
    have hop : c.extractLsb' 0 4 = 5#4 := by
      rcases legalOpcode_iff.1 (by simpa using hlegal) with hop | hop | hop | hop | hop
      · exact absurd hop h1
      · exact absurd hop h2
      · exact absurd hop h3
      · exact absurd hop h4
      · exact hop
    rw [hop, not_not] at hr
    cases h
    exact .clrerr (by simpa using hb) (.inr (by rw [eq_clrerrWord hop hr])) rfl

/-- Everything `exec` can do to the error record and STAGE when it answers a next state. -/
theorem exec_recordEffect {i : Instr} (h : exec i s = .next t) : RecordEffect i s t := by
  cases i with
  | setpal n r => exact .quiet (commandWhenIdle_quiet acceptSetpal_quiet h)
  | setfmt f r => exact .quiet (commandWhenIdle_quiet acceptSetfmt_quiet h)
  | selgeom en n p0 p1 p2 supp r7 r14 r19 =>
    exact .quiet (commandWhenIdle_quiet acceptSelgeom_quiet h)
  | scale r => exact .quiet (commandWhenIdle_quiet acceptScale_quiet h)
  | clrerr r =>
    rcases Laws.commandWhenIdle_next h with ⟨_, rfl⟩ | ⟨_, _, rfl⟩ | ⟨hb, hr, h⟩
    · exact .quiet (recordError_quiet (by decide))
    · exact .quiet (recordError_quiet (by decide))
    · cases h
      exact .clrerr hb (.inl (by simpa using hr)) rfl
  | illegal op rest =>
    simp only [exec, execIllegal] at h
    split at h
    · exact .quiet (raiseError_quiet (by decide) h)
    · exact .quiet (raiseError_quiet (by decide) h)
  | wrCmd c => exact execWrCmd_recordEffect h
  | wrStatus v => cases h; exact .quiet (.of_stays rfl ⟨rfl, rfl⟩)
  | wrPalData v =>
    rcases Laws.writeWhenIdle_next h with ⟨_, rfl⟩ | ⟨hb, rfl⟩
    · exact .quiet (recordError_quiet (by decide))
    · exact .palData v hb rfl ⟨rfl, rfl⟩
  | wrSrcBase v | wrDstBase v | wrVcfg v | wrPalAddr v =>
    exact .quiet (writeWhenIdle_quiet h (.of_stays rfl ⟨rfl, rfl⟩))
  | rdCmd | rdStatus | rdSrcBase | rdDstBase | rdVcfg | rdPalAddr | rdPalData =>
    exact .quiet (answer_quiet h)
  | rdWrUnmapped off a =>
    cases a with
    | read => exact .quiet (answer_quiet h)
    | write v => cases h; exact .quiet (.of_stays rfl ⟨rfl, rfl⟩)

/-! ## What a turn leaves alone -/

theorem engineTurn_quiet (h : engineTurn s = .next t) : Quiet s t := by
  rcases Laws.engineTurn_next h with ⟨_, rfl⟩ | ⟨_, _, rfl⟩ | ⟨_, _, _, _, rfl⟩
  all_goals exact .of_stays rfl ⟨rfl, rfl⟩

/-- A turn of the engine writes PAL16 and PAIR only where it completes a SETPAL. -/
theorem engineTurn_tables (h : engineTurn s = .next t) :
    (∃ n, s.inflight = .palette n) ∨ (t.pal16 = s.pal16 ∧ t.pair = s.pair) := by
  rcases Laws.engineTurn_next h with ⟨_, rfl⟩ | ⟨n, hn, _⟩ | ⟨_, _, _, _, rfl⟩
  · exact .inr ⟨rfl, rfl⟩
  · exact .inl ⟨n, hn⟩
  · exact .inr ⟨rfl, rfl⟩

end Sys2Proof.Proofs.OperationEffects
end

section
/-! PROOFS. Every step keeps the invariant (10_state.md R38, R39, R53): first each update of the state,
then each agent's turn. -/

namespace Sys2Proof.Proofs.StateInvariant

open Sys2Proof.Machine

variable {s t : State}

/-! ## The invariant after each update of the state (10_state.md R38, R39, R53) -/

theorem inFlightOk_of_none (h : s.inflight = .none) : InFlightOk s := by
  simp only [InFlightOk, h]

theorem inv_withLastRead (hs : s.Inv) (v : Option Word) : State.Inv { s with lastRead := v } :=
  { hs with }

theorem inv_withInputs (hs : s.Inv) (l : List HostOp) : (s.withInputs l).Inv := { hs with }

theorem inv_withMem (hs : s.Inv) {m : Memory} (hm : m.wf) : State.Inv { s with mem := m } :=
  { hs with memory := hm }

theorem inv_recordError (hs : s.Inv) {c : ErrorCode} (hc : c ≠ .none) : (recordError c s).Inv := by
  cases he : s.err with
  | true => rwa [Laws.recordError_of_err he]
  | false =>
    rw [Laws.recordError_of_no_err he]
    exact { hs with error := iff_of_false Bool.noConfusion hc }

/-- An accepted operation finds nothing in flight, so a register it writes contradicts no record; a
SETPAL puts a legal count in flight, a SCALE the record its own checks passed. -/
theorem inv_accepted (hs : s.Inv) (hb : s.busy = false) (h : Laws.Accepted s t) : t.Inv := by
  have hidle := Laws.busy_eq_false.1 hb
  cases h with
  | srcBase | dstBase | vcfg | palAddr | setfmt =>
    exact { hs with inflight := inFlightOk_of_none hidle }
  | palData v =>
    exact { hs with
      stage := Laws.tablePut_wf hs.stage s.palAddr.isLt v
      inflight := inFlightOk_of_none hidle }
  | setpal n hn => exact { hs with inflight := ⟨hn.1, hn.2, rfl⟩ }
  | selgeom g en =>
    exact { hs with geometry := Bool.noConfusion, inflight := inFlightOk_of_none hidle }
  | clrerr => exact { hs with error := iff_of_true rfl rfl }
  | scale hg hp hsrc hdst hv hr => exact { hs with inflight := ⟨rfl, hg, hp, hsrc, hdst, hv, hr⟩ }

theorem inv_portEffect (hs : s.Inv) (h : Laws.PortEffect s t) : t.Inv := by
  cases h with
  | refused c hc => exact inv_recordError hs hc
  | answered v => exact inv_withLastRead hs (some v)
  | ignored => exact hs
  | accepted _ hb ha => exact inv_accepted hs hb ha

/-! ## What a SETPAL or a SCALE in flight gives its end -/

theorem paletteInFlight_le (hs : s.Inv) {n : BitVec 9} (h : s.inflight = .palette n) :
    n.toNat ≤ 256 := by
  have hok := hs.inflight
  simp only [InFlightOk, h] at hok
  exact hok.2.1

theorem scaleInFlight_latched (hs : s.Inv) {p : FrameRecord} (h : s.inflight = .scale p) :
    p = latchedRecord s ∧ regionCheck p s = none := by
  have hok := hs.inflight
  simp only [InFlightOk, h] at hok
  obtain ⟨hp, -, -, -, -, -, hr⟩ := hok
  exact ⟨hp, hr⟩

theorem destRegion_inside_of_regionCheck {p : FrameRecord} (h : regionCheck p s = none) :
    (destRegion p).wraps = false := by
  unfold regionCheck at h
  split at h
  · cases h
  · next hw => exact Bool.eq_false_of_not_eq_true fun hd => hw (.inr hd)

theorem inv_completePalette (hs : s.Inv) {n : BitVec 9} (h : s.inflight = .palette n) :
    (completePalette n s).Inv :=
  { hs with
    pal16 := PaletteTables.rebuildPal16_wf s.stage n.toNat
    pair := PaletteTables.rebuildPair_wf _
    pairMatches := PaletteTables.rebuildPair_matches _
    palN := paletteInFlight_le hs h
    inflight := inFlightOk_of_none rfl }

theorem inv_completeScale (hs : s.Inv) {p : FrameRecord} {m : Memory} (h : s.inflight = .scale p)
    (hm : frame p s.pal16 s.pair s.mem = some m) :
    State.Inv { s with mem := m, inflight := .none } := by
  obtain ⟨hp, hr⟩ := scaleInFlight_latched hs h
  have hroute : p.route = selectRoute p.geom s.actScaleEn := by rw [hp]; rfl
  exact { hs with
    memory := FrameMemory.frame_wf hroute (destRegion_inside_of_regionCheck hr) hs.memory hm
    inflight := inFlightOk_of_none rfl }

theorem inv_engineTurn (hs : s.Inv) (h : engineTurn s = .next t) : t.Inv := by
  rcases Laws.engineTurn_next h with ⟨_, rfl⟩ | ⟨n, hn, rfl⟩ | ⟨p, m, hp, hm, rfl⟩
  · exact hs
  · exact inv_completePalette hs hn
  · exact inv_completeScale hs hp hm

/-! ## Reset -/

/-- Settles O53: no table has an entry, and nothing is in flight. -/
theorem resetSatisfiesTheInvariant : Obligations.ResetSatisfiesTheInvariant := fun _ =>
  { memory := ⟨.nil, List.forall_mem_nil _⟩
    stage := ⟨.nil, List.forall_mem_nil _⟩
    pal16 := ⟨.nil, List.forall_mem_nil _⟩
    pair := ⟨.nil, List.forall_mem_nil _⟩
    pairMatches := fun _ _ _ _ => rfl
    palN := Nat.zero_le _
    error := iff_of_true rfl rfl
    geometry := fun _ => ⟨rfl, rfl⟩
    inflight := inFlightOk_of_none rfl
    running := rfl }

theorem abandon_wf (hs : s.Inv) : (abandon s).mem.wf := by
  unfold abandon
  split
  · exact hs.memory
  · exact hs.memory
  · next p hp =>
    have hr := (scaleInFlight_latched hs hp).2
    exact FrameMemory.freeDestination_wf (destRegion_inside_of_regionCheck hr) hs.memory

theorem inv_platformReset (hs : s.Inv) : (platformReset s).Inv :=
  { resetSatisfiesTheInvariant s.regWindow with
    memory := abandon_wf hs
    running := hs.running }

/-! ## Every step -/

theorem inv_hostMemory (hs : s.Inv) {a : BusAccess} (h : hostMemory a s = .next t) : t.Inv := by
  obtain ⟨hw, _, ⟨_, rfl⟩ | ⟨v, _, rfl⟩⟩ := Laws.hostMemory_next h
  · exact inv_withLastRead hs _
  · exact inv_withMem hs (FrameMemory.hostWrite_wf hw hs.memory)

theorem inv_runPort (hs : s.Inv) {p : PortInput} (h : runPort p s = .next t) : t.Inv := by
  obtain ⟨i, _, h⟩ | ⟨a, _, _, h⟩ := Laws.runPort_next h
  · exact inv_portEffect hs (Laws.exec_next h)
  · exact inv_hostMemory hs h

theorem inv_waitPoll (hs : s.Inv) (h : waitPoll s = .next t) : t.Inv := by
  obtain rfl | rfl := Laws.waitPoll_next h
  · exact inv_withLastRead hs _
  · exact inv_withInputs (inv_withLastRead hs (some (statusWord s))) (.engine :: .wait :: s.inputs)

/-- Settles O54: a step is one agent's turn, and each of them keeps the invariant. -/
theorem stepKeepsTheInvariant : Obligations.StepKeepsTheInvariant := by
  intro s t hs h
  obtain ⟨-, hturn⟩ := Laws.step_next h
  rcases hturn with ⟨_, h⟩ | ⟨p, rest, _, h⟩ | ⟨rest, _, h⟩ | ⟨rest, _, h⟩ | ⟨rest, _, rfl⟩
  · exact inv_engineTurn hs h
  · exact inv_runPort (inv_withInputs hs rest) h
  · exact inv_waitPoll (inv_withInputs hs rest) h
  · exact inv_engineTurn (inv_withInputs hs rest) h
  · exact inv_platformReset (inv_withInputs hs rest)

end Sys2Proof.Proofs.StateInvariant
end

section
/-! PROOFS. The other statements of 10_state.md: VCFG and the reset values, BUSY, the error record and the
tables. -/

namespace Sys2Proof.Proofs.StateRules

open Sys2Proof.Machine OperationEffects

variable {s t : State}

/-! ## VCFG and the reset values (10_state.md R40, R53) -/

/-- The six fields of a VCFG read, in their places (10_state.md R40). -/
theorem vcfgWord_eq_append (s : State) :
    vcfgWord s = 0#1 ++ s.thr ++ 0#3 ++ s.vinc ++ 0#8 ++ s.topskip := by
  apply BitVec.eq_of_getLsbD_eq
  intro i hi
  simp only [vcfgWord, BitVec.getLsbD_append, BitVec.getLsbD_or, BitVec.getLsbD_shiftLeft,
    BitVec.getLsbD_setWidth]
  interval_cases i <;> simp

/-- Six fields put side by side with the widths of VCFG read back from their places. -/
theorem extractLsb'_vcfgFields (top : BitVec 1) (thr gap : BitVec 3) (vinc : BitVec 9)
    (low topskip : BitVec 8) :
    let v := top ++ thr ++ gap ++ vinc ++ low ++ topskip
    v.extractLsb' 0 8 = topskip ∧ v.extractLsb' 8 8 = low ∧ v.extractLsb' 16 9 = vinc ∧
      v.extractLsb' 25 3 = gap ∧ v.extractLsb' 28 3 = thr ∧ v.extractLsb' 31 1 = top := by
  have peel {v w start len : Nat} {hi : BitVec v} {lo : BitVec w} {x : BitVec len}
      (h : w ≤ start) (hx : hi.extractLsb' (start - w) len = x) :
      (hi ++ lo).extractLsb' start len = x :=
    (BitVec.extractLsb'_append_eq_of_le h).trans hx
  have here {v w : Nat} {hi : BitVec v} {lo : BitVec w} : (hi ++ lo).extractLsb' 0 w = lo :=
    BitVec.extractLsb'_append_eq_right
  exact ⟨here, peel (by decide) here, peel (by decide) (peel (by decide) here),
    peel (by decide) (peel (by decide) (peel (by decide) here)),
    peel (by decide) (peel (by decide) (peel (by decide) (peel (by decide) here))),
    peel (by decide) (peel (by decide) (peel (by decide) (peel (by decide)
      (peel (by decide) BitVec.extractLsb'_eq_self))))⟩

/-- Settles O15: a read answers the fields put side by side. -/
theorem vcfgReadsBackItsFields : Obligations.VcfgReadsBackItsFields := fun s =>
  ⟨_, (rfl : exec .rdVcfg s = .next { s with lastRead := some (vcfgWord s) }), by
    rw [vcfgWord_eq_append]
    exact extractLsb'_vcfgFields 0#1 s.thr 0#3 s.vinc 0#8 s.topskip⟩

theorem statusWord_resetAt (w : BitVec 26) : statusWord (State.resetAt w) = 0x00000800#32 := by
  simp [statusWord, State.resetAt, State.busy, bitWord, ErrorCode.bits, Format.bit]

theorem vcfgWord_resetAt (w : BitVec 26) : vcfgWord (State.resetAt w) = 0x30E00008#32 := by
  simp [vcfgWord, State.resetAt]

/-- Settles O50: the two words by their fields, every other value by the definition of the reset state. -/
theorem resetValues : Obligations.ResetValues := by
  refine ⟨?_, rfl⟩
  rintro w _ rfl
  have htables : ∀ i, tableGet (State.resetAt w).stage i = none ∧
      tableGet (State.resetAt w).pal16 i = none ∧ tableGet (State.resetAt w).pair i = none :=
    fun i => ⟨Laws.tableGet_nil i, Laws.tableGet_nil i, Laws.tableGet_nil i⟩
  exact ⟨statusWord_resetAt w, rfl, rfl, rfl, rfl, rfl, rfl, rfl, rfl, rfl, rfl, rfl,
    vcfgWord_resetAt w, rfl, rfl, rfl, rfl, htables, rfl, rfl⟩

/-! ## BUSY (10_state.md R35) -/

theorem runPort_inflight_of_busy {p : PortInput} (hb : s.busy = true) (h : runPort p s = .next t) :
    t.inflight = s.inflight := by
  obtain ⟨i, _, h⟩ | ⟨a, _, _, h⟩ := Laws.runPort_next h
  · exact inflight_of_portEffect_busy hb (Laws.exec_next h)
  · obtain ⟨_, _, ⟨_, rfl⟩ | ⟨_, _, rfl⟩⟩ := Laws.hostMemory_next h
    · rfl
    · rfl

theorem waitPoll_inflight (h : waitPoll s = .next t) : t.inflight = s.inflight := by
  obtain rfl | rfl := Laws.waitPoll_next h
  · rfl
  · rfl

/-- Settles O56: neither an operation on the port nor a poll of WAIT ends what is in flight. -/
theorem busyEndsByTheEngineOrReset : Obligations.BusyEndsByTheEngineOrReset := by
  intro s t h hb hidle
  obtain ⟨-, hturn⟩ := Laws.step_next h
  have stays (ht : t.inflight = s.inflight) : False := by
    rw [Laws.busy_congr ht, hb] at hidle
    cases hidle
  rcases hturn with ⟨hi, _⟩ | ⟨p, rest, _, h⟩ | ⟨rest, _, h⟩ | ⟨rest, hi, _⟩ | ⟨rest, hi, _⟩
  · exact .inl hi
  · exact (stays (runPort_inflight_of_busy (s := s.withInputs rest) hb h)).elim
  · exact (stays (waitPoll_inflight (s := s.withInputs rest) h)).elim
  · exact .inr (.inl (by rw [hi]; rfl))
  · exact .inr (.inr (by rw [hi]; rfl))

/-! ## The error record and the tables (10_state.md R38, R45 to R47) -/

theorem hostMemory_quiet {a : BusAccess} (h : hostMemory a s = .next t) : Quiet s t := by
  obtain ⟨_, _, ⟨_, rfl⟩ | ⟨_, _, rfl⟩⟩ := Laws.hostMemory_next h
  · exact .of_stays rfl ⟨rfl, rfl⟩
  · exact .of_stays rfl ⟨rfl, rfl⟩

theorem waitPoll_quiet (h : waitPoll s = .next t) : Quiet s t := by
  obtain rfl | rfl := Laws.waitPoll_next h
  · exact .of_stays rfl ⟨rfl, rfl⟩
  · exact .of_stays rfl ⟨rfl, rfl⟩

/-- What a step does to the error record and STAGE: only an operation on the port and a reset are not
quiet. -/
theorem step_recordEffect (h : step s = .next t) : Quiet s t ∨
    (∃ p i, s.inputs.head? = some (.port p) ∧ decode s.regBase p = .ok i ∧
      ∃ rest, RecordEffect i (s.withInputs rest) t) ∨
    (s.inputs.head? = some .reset ∧ t.err = false ∧ t.errCode = .none) := by
  obtain ⟨-, hturn⟩ := Laws.step_next h
  rcases hturn with ⟨_, h⟩ | ⟨p, rest, hi, h⟩ | ⟨rest, _, h⟩ | ⟨rest, _, h⟩ | ⟨rest, hi, rfl⟩
  · exact .inl (engineTurn_quiet h)
  · obtain ⟨i, hd, h⟩ | ⟨a, _, _, h⟩ := Laws.runPort_next h
    · exact .inr (.inl ⟨p, i, by rw [hi]; rfl, hd, rest, exec_recordEffect h⟩)
    · exact .inl (hostMemory_quiet h).of_withInputs
  · exact .inl (waitPoll_quiet h).of_withInputs
  · exact .inl (engineTurn_quiet h).of_withInputs
  · exact .inr (.inr ⟨by rw [hi]; rfl, rfl, rfl⟩)

/-- Settles O9: a quiet turn keeps or sets the error; of the others WR PAL_DATA keeps it, and CLRERR and
reset clear it. -/
theorem onlyClrerrAndResetClearTheError : Obligations.OnlyClrerrAndResetClearTheError := by
  intro s t h
  obtain hq | ⟨p, i, hi, hd, rest, he⟩ | ⟨hi, he, hc⟩ := step_recordEffect h
  · exact hq.error.imp id .inl
  · cases he with
    | quiet hq => exact hq.error.imp id .inl
    | palData v _ _ he => exact .inl he
    | clrerr hb hclr ht =>
      subst ht
      exact .inr (.inr ⟨rfl, rfl, .inr ⟨hb, p, i, hi, hd, hclr⟩⟩)
  · exact .inr (.inr ⟨he, hc, .inl hi⟩)

theorem runPort_tables {p : PortInput} (h : runPort p s = .next t) :
    t.pal16 = s.pal16 ∧ t.pair = s.pair := by
  obtain ⟨i, _, h⟩ | ⟨a, _, _, h⟩ := Laws.runPort_next h
  · exact tables_of_portEffect (Laws.exec_next h)
  · obtain ⟨_, _, ⟨_, rfl⟩ | ⟨_, _, rfl⟩⟩ := Laws.hostMemory_next h
    · exact ⟨rfl, rfl⟩
    · exact ⟨rfl, rfl⟩

theorem waitPoll_tables (h : waitPoll s = .next t) : t.pal16 = s.pal16 ∧ t.pair = s.pair := by
  obtain rfl | rfl := Laws.waitPoll_next h
  · exact ⟨rfl, rfl⟩
  · exact ⟨rfl, rfl⟩

theorem step_pairTables (h : step s = .next t) (hr : s.inputs.head? ≠ some .reset) :
    (t.pal16 = s.pal16 ∧ t.pair = s.pair) ∨
    ((s.inputs = [] ∨ s.inputs.head? = some .engine) ∧ ∃ n, s.inflight = .palette n) := by
  obtain ⟨-, hturn⟩ := Laws.step_next h
  rcases hturn with ⟨hi, h⟩ | ⟨p, rest, _, h⟩ | ⟨rest, _, h⟩ | ⟨rest, hi, h⟩ | ⟨rest, hi, _⟩
  · exact (engineTurn_tables h).symm.imp id fun hn => ⟨.inl hi, hn⟩
  · exact .inl (runPort_tables (s := s.withInputs rest) h)
  · exact .inl (waitPoll_tables (s := s.withInputs rest) h)
  · exact (engineTurn_tables h).symm.imp id fun hn => ⟨.inr (by rw [hi]; rfl), hn⟩
  · exact absurd (by rw [hi]; rfl) hr

/-- Settles O57: of the operations only WR PAL_DATA is not quiet about STAGE, and PAL16 and PAIR are written
where the engine completes a SETPAL. -/
theorem tablesChangeOnlyByTheirWriters : Obligations.TablesChangeOnlyByTheirWriters := by
  intro s t h hr
  constructor
  · intro hne
    obtain hq | ⟨p, i, hi, hd, rest, he⟩ | ⟨hi, _, _⟩ := step_recordEffect h
    · exact absurd hq.stage hne
    · cases he with
      | quiet hq => exact absurd hq.stage hne
      | palData v hb hpal _ => exact ⟨hb, p, v, hi, hpal ▸ hd⟩
      | clrerr _ _ ht => exact absurd (congrArg State.stage ht) hne
    · exact absurd hi hr
  · intro hne
    obtain ⟨h16, hpair⟩ | hw := step_pairTables h hr
    · exact (hne.elim (· h16) (· hpair)).elim
    · exact hw

end Sys2Proof.Proofs.StateRules
end

section
/-! PROOFS. Bus memory under a host's own accesses: which bytes a wide value is made of, when an access
races a frame in flight, and what a step with such an access answers (20_memory.md R72, R84). -/

namespace Sys2Proof.Proofs.BusMemory

open Sys2Proof.Machine

variable {s t : State}

/-! ## Byte order (20_memory.md R72) -/

/-- Bit `i` of a value in memory is bit `i % 8` of byte `i / 8` from its address on; the bits above its
bytes are 0. -/
theorem getLsbD_readLE (m : Memory) (a : Nat) (size : Size) (i : Nat) :
    (m.readLE a size).getLsbD i =
      (decide (i < 8 * size.bytes) && (m.read (a + i / 8)).getLsbD (i % 8)) := by
  by_cases hi : i < 32
  · cases size with
    | byte => interval_cases i <;> simp [Memory.readLE, Size.bytes]
    | half => interval_cases i <;> simp [Memory.readLE, Size.bytes]
    | word => interval_cases i <;> simp [Memory.readLE, Size.bytes]
  · have hb : ¬ i < 8 * size.bytes := by cases size <;> simp only [Size.bytes] <;> omega
    rw [BitVec.getLsbD_of_ge _ _ (by omega), decide_eq_false hb, Bool.false_and]

/-- The bytes of a value in memory are the bytes from its address on, lowest first. -/
theorem extractLsb'_readLE (m : Memory) (a : Nat) {size : Size} {k : Nat} (hk : k < size.bytes) :
    (m.readLE a size).extractLsb' (8 * k) 8 = m.read (a + k) := by
  apply BitVec.eq_of_getLsbD_eq
  intro i hi
  have hbyte : (8 * k + i) / 8 = k := by omega
  have hbit : (8 * k + i) % 8 = i := by omega
  have hin : 8 * k + i < 8 * size.bytes := by omega
  simp [getLsbD_readLE, hi, hbyte, hbit, hin]

theorem getLsbD_readLE_of_le (m : Memory) (a : Nat) {size : Size} {k : Nat}
    (hk : 8 * size.bytes ≤ k) : (m.readLE a size).getLsbD k = false := by
  rw [getLsbD_readLE, decide_eq_false (Nat.not_lt.2 hk), Bool.false_and]

theorem getD_bytesLE (v : Word) {size : Size} {k : Nat} (hk : k < size.bytes) (d : Byte) :
    (bytesLE v size).getD k d = v.extractLsb' (8 * k) 8 := by
  have hlist : bytesLE v size = (List.range size.bytes).map fun k => v.extractLsb' (8 * k) 8 := by
    cases size <;> rfl
  simp [hlist, hk]

/-- Where a value is stored, its bytes stand, lowest first. -/
theorem read_write_bytesLE (m : Memory) (a : Nat) (v : Word) {size : Size} {k : Nat}
    (hk : k < size.bytes) : (m.write a (bytesLE v size)).read (a + k) = v.extractLsb' (8 * k) 8 := by
  rw [Laws.read_write, Laws.length_bytesLE, if_pos (by omega), Nat.add_sub_cancel_left,
    getD_bytesLE v hk]

/-- Storing a value leaves every byte outside its width alone. -/
theorem read_write_bytesLE_of_outside (m : Memory) {a : Nat} (v : Word) {size : Size} {x : Nat}
    (hx : x < a ∨ a + size.bytes ≤ x) : (m.write a (bytesLE v size)).read x = m.read x := by
  refine Laws.read_write_of_not_mem m a _ x ?_
  rw [Laws.length_bytesLE]
  omega

/-- A value stored in some width reads back in that width, cut to it. -/
theorem getLsbD_readLE_write (m : Memory) (a : Nat) (v : Word) (size : Size) (i : Nat) :
    ((m.write a (bytesLE v size)).readLE a size).getLsbD i =
      (decide (i < 8 * size.bytes) && v.getLsbD i) := by
  rw [getLsbD_readLE]
  by_cases hi : i < 8 * size.bytes
  · have hsplit : 8 * (i / 8) + i % 8 = i := Nat.div_add_mod i 8
    have hbit : i % 8 < 8 := Nat.mod_lt i (by decide)
    rw [read_write_bytesLE m a v (by omega : i / 8 < size.bytes), BitVec.getLsbD_extractLsb',
      hsplit, decide_eq_true hbit, Bool.true_and]
  · rw [decide_eq_false hi, Bool.false_and, Bool.false_and]

theorem getLsbD_halfMask (i : Nat) : (0xFFFF#32).getLsbD i = decide (i < 16) := by
  have hmask : (0xFFFF#32 : Word) = (BitVec.allOnes 16).setWidth 32 := rfl
  rw [hmask, BitVec.getLsbD_setWidth, BitVec.getLsbD_allOnes, ← Bool.decide_and]
  exact decide_eq_decide.2 (by omega)

/-- Settles O49: the two compositions are how a wide value is read; a read after a store gives the bits
of the value below the width. -/
theorem memoryIsLittleEndian : Obligations.MemoryIsLittleEndian := by
  intro m a v
  refine ⟨rfl, rfl, ?_, ?_⟩
  · apply BitVec.eq_of_getLsbD_eq
    intro i _
    rw [getLsbD_readLE_write, BitVec.getLsbD_and, getLsbD_halfMask, Bool.and_comm]
    rfl
  · apply BitVec.eq_of_getLsbD_eq
    intro i hi
    have hin : i < 8 * Size.word.bytes := hi
    rw [getLsbD_readLE_write, decide_eq_true hin, Bool.true_and]

/-! ## Regions by the bytes they hold -/

theorem holds_iff {r : Region} {x : Nat} :
    r.holds x = true ↔ r.base ≤ x ∧ x < r.base + r.bytes := by
  simp only [Region.holds, Bool.and_eq_true, decide_eq_true_eq]

/-- Two regions meet where a byte lies in both: the higher of the two bases is such a byte. -/
theorem meets_iff_holds {r q : Region} :
    r.meets q = true ↔ ∃ x, r.holds x = true ∧ q.holds x = true := by
  simp only [Laws.meets_iff, holds_iff]
  constructor
  · rintro ⟨hr, hq, hrq, hqr⟩
    exact ⟨max r.base q.base, by omega, by omega⟩
  · rintro ⟨x, hr, hq⟩
    omega

theorem meets_eq_false_of_apart {r q : Region} (h : Apart r.base r.bytes q.base q.bytes) :
    r.meets q = false := by
  refine Bool.eq_false_of_not_eq_true fun hm => ?_
  obtain ⟨_, _, hrq, hqr⟩ := (Laws.meets_iff r q).1 hm
  omega

/-- A region whose base is on the bus wraps where it holds a byte at or above 2^32. -/
theorem wraps_iff_holds {r : Region} (hb : r.base ≤ 2 ^ 32) :
    r.wraps = true ↔ ∃ x, 2 ^ 32 ≤ x ∧ r.holds x = true := by
  simp only [Laws.wraps_iff, holds_iff]
  constructor
  · intro h
    exact ⟨2 ^ 32, le_rfl, hb, h⟩
  · rintro ⟨x, hx, _, hlt⟩
    omega

/-! ## A host's own access -/

/-- The race rule (20_memory.md R84), as one condition. -/
theorem races_iff {a : BusAccess} : races a s = true ↔
    ∃ p, s.inflight = .scale p ∧ ((accessRegion a).meets (destRegion p) = true ∨
      a.access ≠ .read ∧ (accessRegion a).meets (srcRegion p) = true) := by
  unfold races
  cases s.inflight with
  | none => simp
  | palette n => simp
  | scale p => cases a.access <;> simp [or_comm]

/-- A host read clear of the destination region, and a write clear of both, race nothing. -/
theorem races_eq_false {a : BusAccess}
    (h : ∀ p, s.inflight = .scale p → (accessRegion a).meets (destRegion p) = false ∧
      (a.access = .read ∨ (accessRegion a).meets (srcRegion p) = false)) : races a s = false := by
  refine Bool.eq_false_of_not_eq_true fun hr => ?_
  obtain ⟨p, hp, hm⟩ := races_iff.1 hr
  obtain ⟨hdst, hsrc⟩ := h p hp
  obtain hm | ⟨hwrite, hm⟩ := hm
  · exact Bool.false_ne_true (hdst.symm.trans hm)
  · exact Bool.false_ne_true ((hsrc.resolve_left hwrite).symm.trans hm)

theorem hostMemory_of_races {a : BusAccess} (hw : (accessRegion a).wraps = false)
    (hr : races a s = true) : hostMemory a s = faultContract .race s := by
  simp [hostMemory, hw, hr]

theorem hostMemory_read {a : BusAccess} (ha : a.access = .read)
    (hw : (accessRegion a).wraps = false) (hr : races a s = false) :
    hostMemory a s = .next { s with lastRead := some (s.mem.readLE a.addr.toNat a.size) } := by
  simp [hostMemory, hw, hr, ha, answer]

theorem hostMemory_write {a : BusAccess} {v : Word} (ha : a.access = .write v)
    (hw : (accessRegion a).wraps = false) (hr : races a s = false) :
    hostMemory a s = .next { s with mem := s.mem.write a.addr.toNat (bytesLE v a.size) } := by
  simp [hostMemory, hw, hr, ha]

theorem accessRegion_inside {a : BusAccess} (h : a.addr.toNat + a.size.bytes ≤ 2 ^ 32) :
    (accessRegion a).wraps = false :=
  Bool.eq_false_of_not_eq_true fun hw => Nat.not_lt.2 h ((Laws.wraps_iff _).1 hw)

/-- A turn with an access apart from the register window is the access to bus memory. -/
theorem step_busAccess {a : BusAccess} {rest : List HostOp} (hf : s.faulted = none)
    (hi : s.inputs = .port (.access a) :: rest)
    (hwin : Apart a.addr.toNat a.size.bytes s.regBase.toNat 64) :
    step s = hostMemory a (s.withInputs rest) := by
  have hd : decodeAccess (s.withInputs rest).regBase a = .error .outsideWindow :=
    Laws.decodeAccess_outside hwin
  rw [Laws.step_cons hf hi]
  simp only [perform, runPort, hd]

/-- Settles O60: an access clear of the destination region races nothing, so it is answered with the
bytes at its address. -/
theorem hostReadAnswersTheBytes : Obligations.HostReadAnswersTheBytes := by
  intro s addr size rest hf hi hclear hwin htop
  have hrace : races ⟨addr, size, .read⟩ (s.withInputs rest) = false :=
    races_eq_false fun p hp => ⟨meets_eq_false_of_apart (hclear p hp), .inl rfl⟩
  refine ⟨s.mem.readLE addr.toNat size, ?_, rfl, fun k hk => extractLsb'_readLE _ _ hk,
    fun k hk => getLsbD_readLE_of_le _ _ hk⟩
  exact (step_busAccess hf hi hwin).trans (hostMemory_read rfl (accessRegion_inside htop) hrace)

/-- Settles O48: a store clear of both regions races nothing, so its bytes are written. -/
theorem hostStoreWritesItsBytes : Obligations.HostStoreWritesItsBytes := by
  intro s addr v size rest hf hi hclear hwin htop
  have hrace : races ⟨addr, size, .write v⟩ (s.withInputs rest) = false :=
    races_eq_false fun p hp =>
      have ⟨hsrc, hdst⟩ := hclear p hp
      ⟨meets_eq_false_of_apart hdst, .inr (meets_eq_false_of_apart hsrc)⟩
  refine ⟨_, (step_busAccess hf hi hwin).trans
    (hostMemory_write rfl (accessRegion_inside htop) hrace), rfl, ?_, ?_⟩
  · exact fun k hk => read_write_bytesLE s.mem addr.toNat v hk
  · exact fun x hx => read_write_bytesLE_of_outside s.mem v hx

/-- Settles O47: sharing a byte with a region is what `races` tests. -/
theorem raceWithAFrameFaults : Obligations.RaceWithAFrameFaults := by
  intro s p a rest shares hshares hf hp hi hwin htop
  have hmeets (r : Region) : shares r.base r.bytes ↔ (accessRegion a).meets r = true := by
    simp only [hshares, meets_iff_holds, holds_iff, accessRegion, and_assoc]
  have hapart : Apart a.addr.toNat a.size.bytes s.regBase.toNat 64 := by
    have hm := mt (hmeets ⟨s.regBase.toNat, 64⟩).2 hwin
    have hpos : 0 < a.size.bytes := by cases a.size <;> decide
    simp only [Laws.meets_iff, accessRegion] at hm
    omega
  have hin := accessRegion_inside htop
  rw [step_busAccess hf hi hapart, hmeets (destRegion p), hmeets (srcRegion p)]
  constructor
  · intro hm
    exact hostMemory_of_races hin (races_iff.2 ⟨p, hp, hm⟩)
  · intro hread hclear
    refine hostMemory_read hread hin (races_eq_false fun q hq => ?_)
    obtain rfl : p = q := InFlight.scale.inj (hp.symm.trans hq)
    exact ⟨Bool.eq_false_of_not_eq_true hclear, .inl hread⟩

/-! ## The writers of memory (20_memory.md R70, 70_reset_and_hazards.md R292) -/

/-- No operation on the port writes bus memory. -/
theorem mem_of_portEffect (h : Laws.PortEffect s t) : t.mem = s.mem := by
  cases h with
  | refused c _ => exact Laws.recordError_mem c s
  | answered v => rfl
  | ignored => rfl
  | accepted _ _ ha => cases ha <;> rfl

theorem waitPoll_mem (h : waitPoll s = .next t) : t.mem = s.mem := by
  obtain rfl | rfl := Laws.waitPoll_next h
  · rfl
  · rfl

/-- A turn of the engine writes bus memory only where it completes a SCALE. -/
theorem engineTurn_mem (h : engineTurn s = .next t) : t.mem = s.mem ∨ ∃ p, s.inflight = .scale p := by
  obtain ⟨_, rfl⟩ | ⟨_, _, rfl⟩ | ⟨p, _, hp, _, _⟩ := Laws.engineTurn_next h
  · exact .inl rfl
  · exact .inl rfl
  · exact .inr ⟨p, hp⟩

/-- A reset writes bus memory only where it abandons a SCALE. -/
theorem platformReset_mem_or (s : State) :
    (platformReset s).mem = s.mem ∨ ∃ p, s.inflight = .scale p := by
  rw [Laws.platformReset_mem]
  unfold abandon
  split
  · exact .inl rfl
  · exact .inl rfl
  · exact .inr ⟨_, ‹_›⟩

/-- On the port and the bus only a host's own write outside the register window writes bus memory. -/
theorem runPort_mem {p : PortInput} (h : runPort p s = .next t) : t.mem = s.mem ∨
    ∃ a v, p = .access a ∧ a.access = .write v ∧
      decodeAccess s.regBase a = .error .outsideWindow := by
  obtain ⟨i, _, h⟩ | ⟨a, hp, hd, h⟩ := Laws.runPort_next h
  · exact .inl (mem_of_portEffect (Laws.exec_next h))
  · obtain ⟨_, _, ⟨_, rfl⟩ | ⟨v, ha, _⟩⟩ := Laws.hostMemory_next h
    · exact .inl rfl
    · exact .inr ⟨a, v, hp, ha, hd⟩

/-- Settles O58: a step is one agent's turn, and each of them is named with the memory it can write. -/
theorem memoryChangesOnlyByItsWriters : Obligations.MemoryChangesOnlyByItsWriters := by
  intro s t h hne
  obtain ⟨-, hturn⟩ := Laws.step_next h
  rcases hturn with ⟨hi, h⟩ | ⟨p, rest, hi, h⟩ | ⟨rest, _, h⟩ | ⟨rest, hi, h⟩ | ⟨rest, hi, rfl⟩
  · exact .inl ⟨.inl hi, (engineTurn_mem h).resolve_left hne⟩
  · obtain ⟨a, v, rfl, ha, hd⟩ := (runPort_mem h).resolve_left hne
    exact .inr ⟨a, v, by rw [hi]; rfl, ha, hd⟩
  · exact absurd (waitPoll_mem h) hne
  · exact .inl ⟨.inr (.inl (by rw [hi]; rfl)), (engineTurn_mem h).resolve_left hne⟩
  · exact .inl ⟨.inr (.inr (by rw [hi]; rfl)), (platformReset_mem_or (s.withInputs rest)).resolve_left hne⟩

end Sys2Proof.Proofs.BusMemory
end

section
/-! PROOFS. SCALE and the bytes of memory: the contract its regions keep at acceptance (20_memory.md R82),
and the bytes its completion writes (20_memory.md R77, 43_packer.md R207, R210). -/

namespace Sys2Proof.Proofs.ScaleMemory

open Sys2Proof.Machine BusMemory

variable {s : State} {p : FrameRecord}

/-! ## The checks of a SCALE at acceptance (44_commands.md R248) -/

theorem exec_scale_of_idle (hb : s.busy = false) : exec (.scale 0#28) s = acceptScale s := by
  simp [exec, execScale, commandWhenIdle, hb]

/-- The alignment test of R248, in numbers. -/
theorem lowBits_eq_zero_iff (v : Word) : v.extractLsb' 0 2 = 0#2 ↔ v.toNat % 4 = 0 := by
  simp [← BitVec.toNat_inj]

/-- A route is scaled where scaling is on and the geometry is not NATIVE (43_packer.md R200). -/
theorem selectRoute_ne_native {g : Geometry} {en : Bool} (h : selectRoute g en ≠ .native) :
    en = true ∧ g ≠ .native := by
  cases en with
  | false => exact absurd rfl h
  | true => exact ⟨rfl, by rintro rfl; exact h rfl⟩

theorem vcfgLegal_of_passes (hv : VcfgPasses s) (hr : (latchedRecord s).route ≠ .native) :
    vcfgLegal (latchedRecord s) = true := by
  obtain ⟨hen, hg⟩ := selectRoute_ne_native hr
  obtain ⟨hlow, hhigh, hthr, hlast⟩ := hv hen hg
  simp only [vcfgLegal, Bool.and_eq_true, decide_eq_true_eq]
  exact ⟨⟨⟨hlow, hhigh⟩, hthr⟩, hlast⟩

/-- With its error checks passed, a SCALE whose regions break a contract is that contract's fault. -/
theorem acceptScale_of_regionCheck {k : ContractKind} (hg : s.geomValid = true)
    (hp : s.actFmt = .indexed8 → s.palValid = true) (hs : s.srcBase.extractLsb' 0 2 = 0#2)
    (hd : s.dstBase.extractLsb' 0 2 = 0#2)
    (hv : (latchedRecord s).route ≠ .native → vcfgLegal (latchedRecord s) = true)
    (hk : regionCheck (latchedRecord s) s = some k) : acceptScale s = faultContract k s := by
  have hpal : ¬ (s.actFmt = .indexed8 ∧ s.palValid = false) := by
    rintro ⟨hf, hn⟩
    rw [hp hf] at hn
    cases hn
  have halign : ¬ (s.srcBase.extractLsb' 0 2 ≠ 0#2 ∨ s.dstBase.extractLsb' 0 2 ≠ 0#2) :=
    not_or.2 ⟨not_not.2 hs, not_not.2 hd⟩
  have hvcfg : ¬ ((latchedRecord s).route ≠ .native ∧ vcfgLegal (latchedRecord s) = false) := by
    rintro ⟨hr, hn⟩
    rw [hv hr] at hn
    cases hn
  rw [acceptScale, if_neg (by rw [hg]; decide), if_neg hpal, if_neg halign, if_neg hvcfg, hk]

theorem regionCheck_of_wraps (h : (srcRegion p).wraps = true ∨ (destRegion p).wraps = true) :
    regionCheck p s = some .addrWrap := if_pos h

theorem regionCheck_of_meets (hw : ¬ ((srcRegion p).wraps = true ∨ (destRegion p).wraps = true))
    (h : (srcRegion p).meets (destRegion p) = true ∨ (srcRegion p).meets (windowRegion s) = true ∨
      (destRegion p).meets (windowRegion s) = true) : regionCheck p s = some .overlap :=
  (if_neg hw).trans (if_pos h)

/-- A region of a SCALE wraps where one of the two holds a byte at or above 2^32. -/
theorem wraps_iff_byte_above : ((srcRegion p).wraps = true ∨ (destRegion p).wraps = true) ↔
    ∃ a, 2 ^ 32 ≤ a ∧ ((srcRegion p).holds a = true ∨ (destRegion p).holds a = true) := by
  rw [wraps_iff_holds (Nat.le_of_lt p.srcBase.isLt), wraps_iff_holds (Nat.le_of_lt p.dstBase.isLt),
    ← exists_or]
  simp only [and_or_left]

/-- Settles O28: the predicates of the statement are the bytes that the regions hold, and `regionCheck`
tests for a byte above the bus, then for a byte in two of them. -/
theorem scaleContractFaults : Obligations.ScaleContractFaults := by
  intro s hb hg hp hsrc hdst hv inSrc inDst inWin hinSrc hinDst hinWin
  have hS (a : Nat) : inSrc a ↔ (srcRegion (latchedRecord s)).holds a = true :=
    (hinSrc a).trans (holds_iff (r := srcRegion (latchedRecord s))).symm
  have hD (a : Nat) : inDst a ↔ (destRegion (latchedRecord s)).holds a = true :=
    (hinDst a).trans (holds_iff (r := destRegion (latchedRecord s))).symm
  have hW (a : Nat) : inWin a ↔ (windowRegion s).holds a = true :=
    (hinWin a).trans (holds_iff (r := windowRegion s)).symm
  have faults {k : ContractKind} (hk : regionCheck (latchedRecord s) s = some k) :
      exec (.scale 0#28) s = faultContract k s :=
    (exec_scale_of_idle hb).trans (acceptScale_of_regionCheck hg hp
      ((lowBits_eq_zero_iff _).2 hsrc) ((lowBits_eq_zero_iff _).2 hdst) (vcfgLegal_of_passes hv) hk)
  simp only [hS, hD, hW]
  constructor
  · intro habove
    exact faults (regionCheck_of_wraps (wraps_iff_byte_above.2 habove))
  · intro hbelow hshared
    refine faults (regionCheck_of_meets (fun hw => ?_) ?_)
    · obtain ⟨a, ha, hin⟩ := wraps_iff_byte_above.1 hw
      exact Nat.not_lt.2 ha (hbelow a hin)
    · simpa only [meets_iff_holds, exists_or] using hshared

/-! ## The bytes that the completion of a SCALE writes -/

/-- Emitting a line writes no byte outside the words of the line. -/
theorem emitLine_read {y a : Nat} {d : List Word} {m : Memory}
    (h : a < destLineAddr p y ∨ destLineAddr p y + 4 * d.length ≤ a) :
    (emitLine p y d m).read a = m.read a := by
  refine Laws.read_write_of_not_mem m _ _ a ?_
  rw [Laws.length_lineBytes]
  omega

/-- A frame writes no byte outside the destination region (43_packer.md R210). -/
theorem frame_read_of_outside {pal16 : Table 16} {pair : Table 32} {en : Bool} {m m' : Memory}
    {a : Nat} (hr : p.route = selectRoute p.geom en) (h : frame p pal16 pair m = some m')
    (ha : a < (destRegion p).base ∨ (destRegion p).base + (destRegion p).bytes ≤ a) :
    m'.read a = m.read a := by
  refine FrameMemory.frame_keep (P := fun n => n.read a = m.read a) ?_ hr rfl h
  intro y d n hy hlen hn
  have hend := FrameMemory.destLineAddr_le hy
  have hstart : (destRegion p).base ≤ destLineAddr p y := Nat.le_add_right _ _
  exact (emitLine_read (by omega)).trans hn

/-- Lines of the NATIVE route write no byte outside the 640 bytes of each of them (43_packer.md R204). -/
theorem nativeLines_read_of_outside {pair : Table 32} {n l a : Nat} {m m' : Memory}
    (h : nativeLines p pair n l m = some m')
    (ha : ∀ y, l ≤ y → y < l + n → a < destLineAddr p y ∨ destLineAddr p y + 640 ≤ a) :
    m'.read a = m.read a := by
  induction n generalizing l m with
  | zero => cases h; rfl
  | succ n ih =>
    rw [nativeLines] at h
    split at h
    · cases h
    · next d hd =>
      have hlen : 4 * d.length = 640 := by rw [Laws.length_nativeLine hd]
      calc m'.read a
          = (emitLine p l d m).read a := ih h fun y hy hy' => ha y (by omega) (by omega)
        _ = m.read a := emitLine_read (by rw [hlen]; exact ha l le_rfl (by omega))

theorem frame_native {pal16 : Table 16} {pair : Table 32} {m : Memory} (hr : p.route = .native) :
    frame p pal16 pair m = nativeLines p pair 240 0 m := by
  simp only [frame, hr, Config.srcHeight]

/-- Settles O33: a completion puts the frame's memory in place, and the frame writes its lines only. -/
theorem scaleWritesOnlyItsPixels : Obligations.ScaleWritesOnlyItsPixels := by
  intro s t p en hp hroute h
  rw [Laws.engineTurn_scale hp] at h
  obtain ⟨m, hm, rfl⟩ := Laws.completeScale_next h
  refine ⟨rfl, fun _ a ha => frame_read_of_outside hroute hm ha, fun hn a ha => ?_⟩
  rw [frame_native hn] at hm
  exact nativeLines_read_of_outside hm fun y _ hy => ha y (by omega)

end Sys2Proof.Proofs.ScaleMemory
end

section
/-! PROOFS. The encoding (30_encoding.md): a command word as its fields side by side, the accesses of the
register window, and that decoding and encoding undo each other. -/

namespace Sys2Proof.Proofs.Encoding

open Sys2Proof.Machine

/-! ## Fields side by side -/

theorem append_eq_append_iff {v w : Nat} {a c : BitVec v} {b d : BitVec w} :
    a ++ b = c ++ d ↔ a = c ∧ b = d := by
  constructor
  · intro h
    constructor
    · calc a = (a ++ b).extractLsb' w v := BitVec.extractLsb'_append_eq_left.symm
        _ = c := by rw [h, BitVec.extractLsb'_append_eq_left]
    · calc b = (a ++ b).extractLsb' 0 w := BitVec.extractLsb'_append_eq_right.symm
        _ = d := by rw [h, BitVec.extractLsb'_append_eq_right]
  · rintro ⟨rfl, rfl⟩
    rfl

theorem ofBool_beq_one (b : Bool) : (BitVec.ofBool b == 1#1) = b := by
  cases b with
  | false => rfl
  | true => rfl

theorem ofBool_of_beq_one : ∀ b : BitVec 1, BitVec.ofBool (b == 1#1) = b := by decide

theorem ofBit_bit (f : Format) : Format.ofBit f.bit = f := by
  cases f with
  | indexed8 => rfl
  | packed16 => rfl

theorem bit_ofBit : ∀ b : BitVec 1, (Format.ofBit b).bit = b := by decide

section CommandWords

variable {c : Word}

/-! ## The field tables of 30_encoding.md R102 to R106 -/

/-- The word of SCALE, CLRERR and ILLEGAL (R105, R106, R108). -/
theorem opcodeFields (c : Word) : c.extractLsb' 4 28 ++ c.extractLsb' 0 4 = c := by
  simp only [BitVec.extractLsb'_append_extractLsb'_eq_extractLsb']
  exact BitVec.extractLsb'_eq_self

theorem setpalFields (c : Word) :
    c.extractLsb' 13 19 ++ c.extractLsb' 4 9 ++ c.extractLsb' 0 4 = c := by
  simp only [BitVec.extractLsb'_append_extractLsb'_eq_extractLsb']
  exact BitVec.extractLsb'_eq_self

theorem setfmtFields (c : Word) :
    c.extractLsb' 5 27 ++ c.extractLsb' 4 1 ++ c.extractLsb' 0 4 = c := by
  simp only [BitVec.extractLsb'_append_extractLsb'_eq_extractLsb']
  exact BitVec.extractLsb'_eq_self

theorem selgeomFields (c : Word) :
    c.extractLsb' 19 13 ++ c.extractLsb' 16 3 ++ c.extractLsb' 14 2 ++ c.extractLsb' 12 2 ++
      c.extractLsb' 10 2 ++ c.extractLsb' 8 2 ++ c.extractLsb' 7 1 ++ c.extractLsb' 5 2 ++
      c.extractLsb' 4 1 ++ c.extractLsb' 0 4 = c := by
  simp only [BitVec.extractLsb'_append_extractLsb'_eq_extractLsb']
  exact BitVec.extractLsb'_eq_self

/-! ## The decoder of command words, by opcode -/

theorem decodeCommand_of_setpal (h : c.extractLsb' 0 4 = 1#4) :
    decodeCommand c = .setpal (c.extractLsb' 4 9) (c.extractLsb' 13 19) := by
  simp only [decodeCommand, h]

theorem decodeCommand_of_setfmt (h : c.extractLsb' 0 4 = 2#4) :
    decodeCommand c = .setfmt (Format.ofBit (c.extractLsb' 4 1)) (c.extractLsb' 5 27) := by
  simp only [decodeCommand, h]

theorem decodeCommand_of_selgeom (h : c.extractLsb' 0 4 = 3#4) :
    decodeCommand c = .selgeom (c.extractLsb' 4 1 == 1#1) (c.extractLsb' 5 2) (c.extractLsb' 8 2)
      (c.extractLsb' 10 2) (c.extractLsb' 12 2) (c.extractLsb' 16 3) (c.extractLsb' 7 1)
      (c.extractLsb' 14 2) (c.extractLsb' 19 13) := by
  simp only [decodeCommand, h]

theorem decodeCommand_of_scale (h : c.extractLsb' 0 4 = 4#4) :
    decodeCommand c = .scale (c.extractLsb' 4 28) := by
  simp only [decodeCommand, h]

theorem decodeCommand_of_clrerr (h : c.extractLsb' 0 4 = 5#4) :
    decodeCommand c = .clrerr (c.extractLsb' 4 28) := by
  simp only [decodeCommand, h]

theorem decodeCommand_of_illegal (h : legalOpcode (c.extractLsb' 0 4) = false) :
    decodeCommand c = .illegal (c.extractLsb' 0 4) (c.extractLsb' 4 28) := by
  have hne {op : BitVec 4} (hop : legalOpcode op = true) : c.extractLsb' 0 4 ≠ op := by
    rintro rfl
    exact Bool.false_ne_true (h.symm.trans hop)
  unfold decodeCommand
  split
  iterate 5 exact absurd ‹_› (hne rfl)
  rfl

/-- The opcode of a word is one of the five commands or illegal (30_encoding.md R101). -/
theorem opcode_cases (c : Word) :
    c.extractLsb' 0 4 = 1#4 ∨ c.extractLsb' 0 4 = 2#4 ∨ c.extractLsb' 0 4 = 3#4 ∨
      c.extractLsb' 0 4 = 4#4 ∨ c.extractLsb' 0 4 = 5#4 ∨
      legalOpcode (c.extractLsb' 0 4) = false := by
  cases h : legalOpcode (c.extractLsb' 0 4) with
  | false => simp
  | true => simpa using OperationEffects.legalOpcode_iff.1 h

/-! ## Decoding the word of an operation: its fields are those put side by side -/

theorem decodeCommand_setpal (count : BitVec 9) (r : BitVec 19) :
    decodeCommand (r ++ count ++ 1#4) = .setpal count r := by
  have h := setpalFields (r ++ count ++ 1#4)
  simp only [append_eq_append_iff] at h
  obtain ⟨⟨hr, hcount⟩, hop⟩ := h
  rw [decodeCommand_of_setpal hop, hr, hcount]

theorem decodeCommand_setfmt (f : Format) (r : BitVec 27) :
    decodeCommand (r ++ f.bit ++ 2#4) = .setfmt f r := by
  have h := setfmtFields (r ++ f.bit ++ 2#4)
  simp only [append_eq_append_iff] at h
  obtain ⟨⟨hr, hf⟩, hop⟩ := h
  rw [decodeCommand_of_setfmt hop, hr, hf, ofBit_bit]

theorem decodeCommand_selgeom (en : Bool) (n p0 p1 p2 : BitVec 2) (supp : BitVec 3)
    (r7 : BitVec 1) (r14 : BitVec 2) (r19 : BitVec 13) :
    decodeCommand
        (r19 ++ supp ++ r14 ++ p2 ++ p1 ++ p0 ++ r7 ++ n ++ BitVec.ofBool en ++ 3#4) =
      .selgeom en n p0 p1 p2 supp r7 r14 r19 := by
  have h := selgeomFields
    (r19 ++ supp ++ r14 ++ p2 ++ p1 ++ p0 ++ r7 ++ n ++ BitVec.ofBool en ++ 3#4)
  simp only [append_eq_append_iff] at h
  obtain ⟨⟨⟨⟨⟨⟨⟨⟨⟨hr19, hsupp⟩, hr14⟩, hp2⟩, hp1⟩, hp0⟩, hr7⟩, hn⟩, hen⟩, hop⟩ := h
  rw [decodeCommand_of_selgeom hop, hr19, hsupp, hr14, hp2, hp1, hp0, hr7, hn, hen, ofBool_beq_one]

theorem decodeCommand_scale (r : BitVec 28) : decodeCommand (r ++ 4#4) = .scale r := by
  obtain ⟨hr, hop⟩ := append_eq_append_iff.1 (opcodeFields (r ++ 4#4))
  rw [decodeCommand_of_scale hop, hr]

theorem decodeCommand_clrerr (r : BitVec 28) : decodeCommand (r ++ 5#4) = .clrerr r := by
  obtain ⟨hr, hop⟩ := append_eq_append_iff.1 (opcodeFields (r ++ 5#4))
  rw [decodeCommand_of_clrerr hop, hr]

theorem decodeCommand_illegal {op : BitVec 4} (rest : BitVec 28) (h : legalOpcode op = false) :
    decodeCommand (rest ++ op) = .illegal op rest := by
  obtain ⟨hr, hop⟩ := append_eq_append_iff.1 (opcodeFields (rest ++ op))
  rw [decodeCommand_of_illegal (by rw [hop]; exact h), hr, hop]

/-! ## Encoding what a command word decodes to -/

/-- No bit of a command word is dropped. -/
theorem encode_decodeCommand (base c : Word) :
    (decodeCommand c).wf = true ∧ encode base (decodeCommand c) = .command c := by
  obtain hop | hop | hop | hop | hop | hop := opcode_cases c
  · rw [decodeCommand_of_setpal hop]
    refine ⟨rfl, congrArg PortInput.command ?_⟩
    rw [← hop]
    exact setpalFields c
  · rw [decodeCommand_of_setfmt hop]
    refine ⟨rfl, congrArg PortInput.command ?_⟩
    rw [bit_ofBit, ← hop]
    exact setfmtFields c
  · rw [decodeCommand_of_selgeom hop]
    refine ⟨rfl, congrArg PortInput.command ?_⟩
    rw [ofBool_of_beq_one, ← hop]
    exact selgeomFields c
  · rw [decodeCommand_of_scale hop]
    refine ⟨rfl, congrArg PortInput.command ?_⟩
    rw [← hop]
    exact opcodeFields c
  · rw [decodeCommand_of_clrerr hop]
    refine ⟨rfl, congrArg PortInput.command ?_⟩
    rw [← hop]
    exact opcodeFields c
  · rw [decodeCommand_of_illegal hop]
    exact ⟨by rw [Instr.wf, hop]; rfl, congrArg PortInput.command (opcodeFields c)⟩

end CommandWords

section Registers

variable {off : BitVec 6}

/-! ## Register offsets (10_state.md R32) -/

/-- A multiple of 4 in the window is the offset of a register or unmapped. -/
theorem offset_cases : ∀ off : BitVec 6, off.extractLsb' 0 2 = 0#2 →
    off = 0x00#6 ∨ off = 0x04#6 ∨ off = 0x08#6 ∨ off = 0x0C#6 ∨ off = 0x10#6 ∨ off = 0x14#6 ∨
      off = 0x18#6 ∨ unmappedOffset off = true := by decide

theorem aligned_of_unmapped (h : unmappedOffset off = true) : off.extractLsb' 0 2 = 0#2 := by
  rw [unmappedOffset, Bool.and_eq_true] at h
  exact eq_of_beq h.2

theorem decodeRegister_unmapped (h : unmappedOffset off = true) (a : Access) :
    decodeRegister off a = .rdWrUnmapped off a := by
  cases a
  all_goals
    simp only [decodeRegister]
    split
    iterate 7 cases h
    rfl

/-- The register that an offset and a direction name is encoded as the access at that offset. -/
theorem encode_decodeRegister (base : Word) (h : off.extractLsb' 0 2 = 0#2) (a : Access) :
    (decodeRegister off a).wf = true ∧
      encode base (decodeRegister off a) = registerAccess base off a := by
  obtain rfl | rfl | rfl | rfl | rfl | rfl | rfl | hoff := offset_cases off h
  iterate 7
    cases a with
    | read => exact ⟨rfl, rfl⟩
    | write v => exact ⟨rfl, rfl⟩
  rw [decodeRegister_unmapped hoff]
  exact ⟨hoff, rfl⟩

/-! ## Accesses to the window -/

/-- REG_BASE is a multiple of 64, so no address of the window wraps (00_scope.md R17). -/
theorem toNat_window_add (w : BitVec 26) (off : BitVec 6) :
    ((w ++ 0#6 : Word) + off.setWidth 32).toNat = (w ++ 0#6 : Word).toNat + off.toNat := by
  have hbase : (w ++ 0#6 : Word).toNat = w.toNat * 64 :=
    (BitVec.toNat_append w 0#6).trans (by simp [Nat.shiftLeft_eq])
  have hw := w.isLt
  have hoff := off.isLt
  rw [BitVec.toNat_add, BitVec.toNat_setWidth, hbase]
  omega

/-- An access at a multiple of 4 in the window is decoded by its offset (30_encoding.md R111). -/
theorem decode_registerAccess (w : BitVec 26) (h : off.extractLsb' 0 2 = 0#2) (a : Access) :
    decode (w ++ 0#6) (registerAccess (w ++ 0#6) off a) = .ok (decodeRegister off a) := by
  have haddr := toNat_window_add w off
  have hoff : ((w ++ 0#6 : Word) + off.setWidth 32) - (w ++ 0#6) = off.setWidth 32 :=
    add_sub_cancel_left _ _
  have hlow : (off.setWidth 32).extractLsb' 0 6 = off := by
    rw [BitVec.extractLsb'_setWidth_of_le (by decide), BitVec.extractLsb'_eq_self]
  have haligned : (off.setWidth 32).extractLsb' 0 2 = 0#2 := by
    rw [BitVec.extractLsb'_setWidth_of_le (by decide), h]
  have htouch : touchesWindow (w ++ 0#6)
      { addr := (w ++ 0#6) + off.setWidth 32, size := .word, access := a } = true := by
    have := off.isLt
    rw [Laws.touchesWindow_iff]
    simp only [haddr, Size.bytes]
    omega
  simp only [decode, registerAccess, decodeAccess, htouch, if_true, hoff, hlow, haligned, haddr,
    Nat.le_add_right, and_self]

/-- The accesses that decode: aligned 32-bit ones in the window (44_commands.md R219). -/
theorem shape_of_decodeAccess {base : Word} {t : BusAccess} {i : Instr}
    (h : decodeAccess base t = .ok i) :
    (t.addr.toNat < base.toNat + 64 ∧ base.toNat ≤ t.addr.toNat) ∧ t.size = .word ∧
      (t.addr - base).extractLsb' 0 2 = 0#2 ∧
      i = decodeRegister ((t.addr - base).extractLsb' 0 6) t.access := by
  unfold decodeAccess at h
  split at h
  · next htouch =>
    split at h
    · next hshape =>
      obtain ⟨hsize, hbase, haligned⟩ := hshape
      have htop := ((Laws.touchesWindow_iff base t).1 htouch).1
      exact ⟨⟨htop, hbase⟩, hsize, haligned, (Except.ok.inj h).symm⟩
    · cases h
  · cases h

/-- No register access is dropped. -/
theorem encode_of_decodeAccess {base : Word} {t : BusAccess} {i : Instr}
    (h : decodeAccess base t = .ok i) : i.wf = true ∧ encode base i = .access t := by
  obtain ⟨⟨htop, hbase⟩, hsize, haligned, rfl⟩ := shape_of_decodeAccess h
  have hdist : (t.addr - base).toNat < 64 := by
    rw [BitVec.toNat_sub_of_le (BitVec.le_def.2 hbase)]
    omega
  have hoff : ((t.addr - base).extractLsb' 0 6).setWidth 32 = t.addr - base := by
    apply BitVec.eq_of_toNat_eq
    rw [BitVec.toNat_setWidth, BitVec.extractLsb'_toNat]
    omega
  have hlow : ((t.addr - base).extractLsb' 0 6).extractLsb' 0 2 = 0#2 := by
    rw [BitVec.extractLsb'_extractLsb'_of_le (by decide)]
    exact haligned
  have haddr : registerAccess base ((t.addr - base).extractLsb' 0 6) t.access = .access t := by
    rw [registerAccess, hoff, ← hsize]
    simp
  rw [← haddr]
  exact encode_decodeRegister base hlow t.access

end Registers

/-! ## The statements -/

/-- Settles O1: a command row is read back from its field table, a register row from its offset. -/
theorem decodeInvertsEncode : Obligations.DecodeInvertsEncode := by
  intro w i hwf
  cases i with
  | setpal count r => exact congrArg Except.ok (decodeCommand_setpal count r)
  | setfmt f r => exact congrArg Except.ok (decodeCommand_setfmt f r)
  | selgeom en n p0 p1 p2 supp r7 r14 r19 =>
    exact congrArg Except.ok (decodeCommand_selgeom en n p0 p1 p2 supp r7 r14 r19)
  | scale r => exact congrArg Except.ok (decodeCommand_scale r)
  | clrerr r => exact congrArg Except.ok (decodeCommand_clrerr r)
  | illegal op rest =>
    have hop : legalOpcode op = false := by simpa [Instr.wf] using hwf
    exact congrArg Except.ok (decodeCommand_illegal rest hop)
  | rdWrUnmapped off a =>
    calc decode (w ++ 0#6) (registerAccess (w ++ 0#6) off a)
        = .ok (decodeRegister off a) := decode_registerAccess w (aligned_of_unmapped hwf) a
      _ = .ok (.rdWrUnmapped off a) := congrArg Except.ok (decodeRegister_unmapped hwf a)
  | rdCmd | rdStatus | rdSrcBase | rdDstBase | rdVcfg | rdPalAddr | rdPalData =>
    exact decode_registerAccess w (by decide) .read
  | wrCmd v | wrStatus v | wrSrcBase v | wrDstBase v | wrVcfg v | wrPalAddr v | wrPalData v =>
    exact decode_registerAccess w (by decide) (.write v)

/-- Settles O2, for the two kinds of operation on the port. -/
theorem encodeInvertsDecode : Obligations.EncodeInvertsDecode := by
  intro w p i h
  cases p with
  | command c =>
    obtain rfl : decodeCommand c = i := Except.ok.inj h
    exact encode_decodeCommand (w ++ 0#6) c
  | access t => exact encode_of_decodeAccess h

/-- Settles O3: the decoder evaluated on each word; what a word decodes to encodes to it. -/
theorem referenceCommandWords : Obligations.ReferenceCommandWords := by
  unfold Obligations.ReferenceCommandWords
  have encodes {c : Word} {i : Instr} (h : decodeCommand c = i) :
      decodeCommand c = i ∧ encode 0#32 i = .command c :=
    ⟨h, h ▸ (encode_decodeCommand 0#32 c).2⟩
  simp only [List.forall_mem_cons]
  exact ⟨encodes rfl, encodes rfl, encodes rfl, encodes rfl, encodes rfl, encodes rfl, encodes rfl,
    encodes rfl, encodes rfl, encodes rfl, List.forall_mem_nil _⟩

end Sys2Proof.Proofs.Encoding
end

section
/-! PROOFS. The commands that 30_encoding.md R108 and R109 refuse: the masks of WR CMD against the fields of
the command statements, and the two refusals. -/

namespace Sys2Proof.Proofs.RefusedCommands

open Sys2Proof.Machine Encoding

variable {s : State} {c : Word}

/-! ## The reserved masks (R109): all ones on the reserved fields of R102 to R106, zeros on the others -/

theorem and_highMask_eq_zero_iff {v w : Nat} (c : BitVec (v + w)) :
    c &&& (BitVec.allOnes v ++ 0#w) = 0#v ++ 0#w ↔ c.extractLsb' w v = 0#v := by
  conv_lhs => rw [← BitVec.extractLsb'_append_extractLsb' (x := c)]
  simp only [BitVec.and_append, append_eq_append_iff, BitVec.and_allOnes, BitVec.and_zero, and_true]

theorem setpal_reserved_iff (c : Word) :
    c &&& 0xFFFFE000#32 = 0#32 ↔ c.extractLsb' 13 19 = 0#19 :=
  and_highMask_eq_zero_iff (v := 19) (w := 13) c

theorem setfmt_reserved_iff (c : Word) :
    c &&& 0xFFFFFFE0#32 = 0#32 ↔ c.extractLsb' 5 27 = 0#27 :=
  and_highMask_eq_zero_iff (v := 27) (w := 5) c

theorem opcode_reserved_iff (c : Word) :
    c &&& 0xFFFFFFF0#32 = 0#32 ↔ c.extractLsb' 4 28 = 0#28 :=
  and_highMask_eq_zero_iff (v := 28) (w := 4) c

theorem selgeom_reserved_iff (c : Word) : c &&& 0xFFF8C080#32 = 0#32 ↔
    c.extractLsb' 7 1 = 0#1 ∧ c.extractLsb' 14 2 = 0#2 ∧ c.extractLsb' 19 13 = 0#13 := by
  have fields (r19 : BitVec 13) (supp : BitVec 3) (r14 p2 p1 p0 : BitVec 2) (r7 : BitVec 1)
      (n : BitVec 2) (en : BitVec 1) (op : BitVec 4) :
      (r19 ++ supp ++ r14 ++ p2 ++ p1 ++ p0 ++ r7 ++ n ++ en ++ op) &&&
          (BitVec.allOnes 13 ++ 0#3 ++ BitVec.allOnes 2 ++ 0#2 ++ 0#2 ++ 0#2 ++ BitVec.allOnes 1 ++
            0#2 ++ 0#1 ++ 0#4) =
        0#13 ++ 0#3 ++ 0#2 ++ 0#2 ++ 0#2 ++ 0#2 ++ 0#1 ++ 0#2 ++ 0#1 ++ 0#4 ↔
      r7 = 0#1 ∧ r14 = 0#2 ∧ r19 = 0#13 := by
    simp only [BitVec.and_append, append_eq_append_iff, BitVec.and_allOnes, BitVec.and_zero, and_true]
    tauto
  have h := fields (c.extractLsb' 19 13) (c.extractLsb' 16 3) (c.extractLsb' 14 2) (c.extractLsb' 12 2)
    (c.extractLsb' 10 2) (c.extractLsb' 8 2) (c.extractLsb' 7 1) (c.extractLsb' 5 2)
    (c.extractLsb' 4 1) (c.extractLsb' 0 4)
  rwa [selgeomFields] at h

/-! ## WR CMD, by opcode (44_commands.md R230) -/

theorem execWrCmd_of_setpal (h : c.extractLsb' 0 4 = 1#4) : execWrCmd c s =
    commandWhenIdle (c &&& 0xFFFFE000#32 != 0#32) (acceptSetpal (c.extractLsb' 4 9)) s := by
  simp [execWrCmd, h, legalOpcode, reservedMask, commandWhenIdle]

theorem execWrCmd_of_setfmt (h : c.extractLsb' 0 4 = 2#4) : execWrCmd c s =
    commandWhenIdle (c &&& 0xFFFFFFE0#32 != 0#32)
      (acceptSetfmt (Format.ofBit (c.extractLsb' 4 1))) s := by
  simp [execWrCmd, h, legalOpcode, reservedMask, commandWhenIdle]

theorem execWrCmd_of_selgeom (h : c.extractLsb' 0 4 = 3#4) : execWrCmd c s =
    commandWhenIdle (c &&& 0xFFF8C080#32 != 0#32)
      (acceptSelgeom (c.extractLsb' 4 1 == 1#1) (c.extractLsb' 5 2) (c.extractLsb' 8 2)
        (c.extractLsb' 10 2) (c.extractLsb' 12 2) (c.extractLsb' 16 3)) s := by
  simp [execWrCmd, h, legalOpcode, reservedMask, commandWhenIdle]

theorem execWrCmd_of_scale (h : c.extractLsb' 0 4 = 4#4) : execWrCmd c s =
    commandWhenIdle (c &&& 0xFFFFFFF0#32 != 0#32) acceptScale s := by
  simp [execWrCmd, h, legalOpcode, reservedMask, commandWhenIdle]

theorem execWrCmd_of_clrerr (h : c.extractLsb' 0 4 = 5#4) : execWrCmd c s =
    commandWhenIdle (c &&& 0xFFFFFFF0#32 != 0#32) acceptClrerr s := by
  simp [execWrCmd, h, legalOpcode, reservedMask, commandWhenIdle]

theorem execWrCmd_of_illegal (h : legalOpcode (c.extractLsb' 0 4) = false) : execWrCmd c s =
    if s.busy then raiseError .cmdBusy s else raiseError .illegalOp s := by
  simp [execWrCmd, h]

/-- A word does the same as the data of WR CMD and as a command statement: its mask meets it where a
reserved field of its format is not 0. -/
theorem exec_decodeCommand (s : State) (c : Word) : exec (decodeCommand c) s = exec (.wrCmd c) s := by
  have test {w : Nat} {r : BitVec w} {m : Word} (h : c &&& m = 0#32 ↔ r = 0#w) :
      (r != 0#w) = (c &&& m != 0#32) := by
    rw [Bool.eq_iff_iff]
    simp only [bne_iff_ne, ne_eq, h]
  change _ = execWrCmd c s
  obtain hop | hop | hop | hop | hop | hop := opcode_cases c
  · rw [decodeCommand_of_setpal hop, execWrCmd_of_setpal hop, ← test (setpal_reserved_iff c)]
    rfl
  · rw [decodeCommand_of_setfmt hop, execWrCmd_of_setfmt hop, ← test (setfmt_reserved_iff c)]
    rfl
  · have hr : (c.extractLsb' 7 1 != 0#1 || c.extractLsb' 14 2 != 0#2 || c.extractLsb' 19 13 != 0#13) =
        (c &&& 0xFFF8C080#32 != 0#32) := by
      rw [Bool.eq_iff_iff]
      simp only [Bool.or_eq_true, bne_iff_ne, ne_eq, selgeom_reserved_iff]
      tauto
    rw [decodeCommand_of_selgeom hop, execWrCmd_of_selgeom hop, ← hr]
    rfl
  · rw [decodeCommand_of_scale hop, execWrCmd_of_scale hop, ← test (opcode_reserved_iff c)]
    rfl
  · rw [decodeCommand_of_clrerr hop, execWrCmd_of_clrerr hop, ← test (opcode_reserved_iff c)]
    rfl
  · rw [decodeCommand_of_illegal hop, execWrCmd_of_illegal hop]
    rfl

/-! ## Illegal opcodes (R108) -/

theorem legalOpcode_eq_false : ∀ op : BitVec 4, op = 0#4 ∨ 6 ≤ op.toNat → legalOpcode op = false := by
  decide

/-- Settles O12: the word of the second form decodes to the instruction of the first. -/
theorem illegalOpcodeIsRefused : Obligations.IllegalOpcodeIsRefused := by
  intro s op rest hb hop
  have hstatement : exec (.illegal op rest) s = .next (recordError .illegalOp s) := by
    simp [exec, execIllegal, hb, raiseError]
  refine ⟨hstatement, ?_⟩
  rw [← exec_decodeCommand, decodeCommand_illegal rest (legalOpcode_eq_false op hop)]
  exact hstatement

/-! ## Reserved bits and geometry code 3 (R109) -/

theorem commandWhenIdle_of_reserved {r : Bool} {accept : State → Result} (hb : s.busy = false)
    (h : r = true ∨ accept s = raiseError .reserved s) :
    commandWhenIdle r accept s = .next (recordError .reserved s) := by
  obtain rfl | h := h
  · simp [commandWhenIdle, hb, raiseError]
  · simp [commandWhenIdle, hb, h, raiseError]

/-- Code 3 names no geometry, so SELGEOM is refused before a slot is matched (44_commands.md R241). -/
theorem acceptSelgeom_of_code3 {en : Bool} {n p0 p1 p2 : BitVec 2} {supp : BitVec 3}
    (h : 3#2 ∈ usedSlots n p0 p1 p2) :
    acceptSelgeom en n p0 p1 p2 supp s = raiseError .reserved s :=
  if_pos (List.mem_map_of_mem (f := geometryOfCode) h)

/-- The slot that the field of a SELGEOM word at bit `8 + 2k` gives is used where `k < NPREF`. -/
theorem mem_usedSlots {k : Nat} (hk : k < (c.extractLsb' 5 2).toNat) :
    c.extractLsb' (8 + 2 * k) 2 ∈ usedSlots (c.extractLsb' 5 2) (c.extractLsb' 8 2)
      (c.extractLsb' 10 2) (c.extractLsb' 12 2) := by
  have hslot : [c.extractLsb' 8 2, c.extractLsb' 10 2, c.extractLsb' 12 2][k]? =
      some (c.extractLsb' (8 + 2 * k) 2) := by
    have hk3 : k < 3 := by omega
    interval_cases k
    · rfl
    · rfl
    · rfl
  exact List.mem_of_getElem? ((List.getElem?_take_of_lt hk).trans hslot)

/-- Settles O13: the six ways are five masks and a used slot, and the two forms do the same. -/
theorem reservedBitsAreRefused : Obligations.ReservedBitsAreRefused := by
  intro s c hb h
  have hmask {m : Word} (hm : c &&& m ≠ 0#32) : (c &&& m != 0#32) = true := bne_iff_ne.2 hm
  rw [exec_decodeCommand, and_self]
  change execWrCmd c s = _
  obtain ⟨hop, hm⟩ | ⟨hop, hm⟩ | ⟨hop, hm⟩ | ⟨hop, hm⟩ | ⟨hop, hm⟩ | ⟨hop, k, hk, hcode⟩ := h
  · exact (execWrCmd_of_setpal hop).trans (commandWhenIdle_of_reserved hb (.inl (hmask hm)))
  · exact (execWrCmd_of_setfmt hop).trans (commandWhenIdle_of_reserved hb (.inl (hmask hm)))
  · exact (execWrCmd_of_selgeom hop).trans (commandWhenIdle_of_reserved hb (.inl (hmask hm)))
  · exact (execWrCmd_of_scale hop).trans (commandWhenIdle_of_reserved hb (.inl (hmask hm)))
  · exact (execWrCmd_of_clrerr hop).trans (commandWhenIdle_of_reserved hb (.inl (hmask hm)))
  · exact (execWrCmd_of_selgeom hop).trans (commandWhenIdle_of_reserved hb
      (.inr (acceptSelgeom_of_code3 (hcode ▸ mem_usedSlots hk))))

end Sys2Proof.Proofs.RefusedCommands
end

section
/-! PROOFS. WAIT (30_encoding.md R117): a poll of an idle block ends it, and of a busy one it is a poll, a
turn of the engine and a poll. -/

namespace Sys2Proof.Proofs.Wait

open Sys2Proof.Machine

variable {s u : State} {rest : List HostOp} {p : FrameRecord}

/-! ## One poll -/

/-- The state after STATUS is read, with the turns to come given. -/
def polled (s : State) (l : List HostOp) : State :=
  { s with inputs := l, lastRead := some (statusWord s) }

/-- What a poll leaves of an idle block is past the WAIT: BUSY is 0, in STATUS and in the word read. -/
theorem polled_observes_idle (hb : s.busy = false) (l : List HostOp) :
    (polled s l).inputs = l ∧ (polled s l).busy = false ∧
      (polled s l).lastRead = some (statusWord (polled s l)) ∧
      (statusWord (polled s l)).getLsbD 0 = false :=
  ⟨rfl, hb, rfl, (Laws.statusWord_bit0 s).trans hb⟩

theorem waitPoll_of_idle (hb : s.busy = false) : waitPoll s = .next (polled s s.inputs) :=
  if_neg (by rw [Laws.statusWord_bit0, hb]; decide)

theorem waitPoll_of_busy (hb : s.busy = true) :
    waitPoll s = .next (polled s (.engine :: .wait :: s.inputs)) :=
  if_pos (by rw [Laws.statusWord_bit0, hb])

theorem step_wait_idle (hf : s.faulted = none) (hi : s.inputs = .wait :: rest)
    (hb : s.busy = false) : step s = .next (polled s rest) :=
  (Laws.step_cons hf hi).trans (waitPoll_of_idle (s := s.withInputs rest) hb)

theorem step_wait_busy (hf : s.faulted = none) (hi : s.inputs = .wait :: rest)
    (hb : s.busy = true) : step s = .next (polled s (.engine :: .wait :: rest)) :=
  (Laws.step_cons hf hi).trans (waitPoll_of_busy (s := s.withInputs rest) hb)

/-! ## A WAIT on a busy block -/

/-- The first poll lets the engine have its turn before the next. -/
theorem step_polled_engine (hf : s.faulted = none) (l : List HostOp) :
    step (polled s (.engine :: l)) = engineTurn (polled s l) :=
  Laws.step_cons (s := polled s (.engine :: l)) hf rfl

/-- When the engine completes the command, the second poll ends the WAIT. -/
theorem run_wait_completes (hf : s.faulted = none) (hi : s.inputs = .wait :: rest)
    (hb : s.busy = true) (h : engineTurn (polled s (.wait :: rest)) = .next u)
    (huf : u.faulted = none) (hui : u.inputs = .wait :: rest) (hub : u.busy = false) :
    core.run 3 s = .next (polled u rest) := by
  calc core.run 3 s
      = core.run 2 (polled s (.engine :: .wait :: rest)) := Laws.run_next 2 (step_wait_busy hf hi hb)
    _ = core.run 1 u := Laws.run_next 1 ((step_polled_engine hf _).trans h)
    _ = core.run 0 (polled u rest) := Laws.run_next 0 (step_wait_idle huf hui hub)

/-- When the completion is a fault, the WAIT is that fault. -/
theorem run_wait_faults {r : Fault} (hf : s.faulted = none) (hi : s.inputs = .wait :: rest)
    (hb : s.busy = true) (h : engineTurn (polled s (.wait :: rest)) = .fault r) :
    core.run 3 s = .fault r := by
  calc core.run 3 s
      = core.run 2 (polled s (.engine :: .wait :: rest)) := Laws.run_next 2 (step_wait_busy hf hi hb)
    _ = .fault r := Laws.run_fault 1 ((step_polled_engine hf _).trans h)

/-! ## The commands in flight -/

theorem busy_of_inflight {f : InFlight} (h : s.inflight = f) (hf : f ≠ .none) : s.busy = true :=
  Laws.busy_eq_true.2 (h ▸ hf)

/-- A SCALE whose frame meets no index out of range completes within the WAIT. -/
theorem run_wait_scale {m : Memory} (hf : s.faulted = none) (hi : s.inputs = .wait :: rest)
    (hp : s.inflight = .scale p) (hm : frame p s.pal16 s.pair s.mem = some m) :
    core.run 3 s =
      .next (polled { polled s (.wait :: rest) with mem := m, inflight := .none } rest) :=
  run_wait_completes hf hi (busy_of_inflight hp (by simp))
    ((Laws.engineTurn_scale (s := polled s (.wait :: rest)) hp).trans
      (Laws.completeScale_of_some hm)) hf rfl rfl

/-- The completion of a SCALE is a next state or the contract fault INDEX_RANGE. -/
theorem engineTurn_scale_cases (hp : s.inflight = .scale p) :
    (∃ m, frame p s.pal16 s.pair s.mem = some m ∧
      engineTurn s = .next { s with mem := m, inflight := .none }) ∨
    (frame p s.pal16 s.pair s.mem = none ∧
      engineTurn s = faultContract .indexRange (freeDestination p s)) := by
  rw [Laws.engineTurn_scale hp]
  cases hm : frame p s.pal16 s.pair s.mem with
  | none => exact .inr ⟨rfl, Laws.completeScale_of_none hm⟩
  | some m => exact .inl ⟨m, rfl, Laws.completeScale_of_some hm⟩

/-- A SCALE whose frame meets an index out of range makes the WAIT the fault INDEX_RANGE. -/
theorem run_wait_scale_faults (hf : s.faulted = none) (hi : s.inputs = .wait :: rest)
    (hp : s.inflight = .scale p) (hm : frame p s.pal16 s.pair s.mem = none) :
    core.run 3 s = faultContract .indexRange (freeDestination p (polled s (.wait :: rest))) :=
  run_wait_faults hf hi (busy_of_inflight hp (by simp))
    ((Laws.engineTurn_scale (s := polled s (.wait :: rest)) hp).trans
      (Laws.completeScale_of_none hm))

/-- Settles O59: the idle block by one poll, the busy one by what the engine's turn between the two polls
does; a poll changes nothing that this turn reads. -/
theorem waitObservesIdle : Obligations.WaitObservesIdle := by
  intro s rest past hpast hf hi
  have past_polled {u : State} (hu : u.busy = false) : past (polled u rest) :=
    (hpast _).2 (polled_observes_idle hu rest)
  refine ⟨fun hidle => ?_, fun n hn => ?_, fun p hp hfmt => ?_, fun p hp _ => ?_⟩
  · have hb : s.busy = false := Laws.busy_eq_false.2 hidle
    exact ⟨polled s rest, step_wait_idle hf hi hb, past_polled hb, rfl⟩
  · have hrun := run_wait_completes hf hi (busy_of_inflight hn (by simp))
      (Laws.engineTurn_palette hn) hf rfl rfl
    exact ⟨_, hrun, past_polled rfl, rfl, rfl⟩
  · obtain ⟨m, hm⟩ := Laws.frame_packed hfmt s.pal16 s.pair s.mem
    exact ⟨_, run_wait_scale hf hi hp hm, past_polled rfl⟩
  · obtain ⟨m, hm, hturn⟩ | ⟨hm, hturn⟩ := engineTurn_scale_cases hp
    · simp only [hturn]
      refine ⟨?_, ?_, .inl ⟨_, rfl⟩⟩
      · rintro u ⟨⟩
        exact ⟨_, run_wait_scale hf hi hp hm, past_polled rfl, rfl⟩
      · rintro r ⟨⟩
    · simp only [hturn]
      refine ⟨?_, ?_, .inr ⟨_, rfl⟩⟩
      · rintro u ⟨⟩
      · rintro r ⟨⟩
        exact ⟨_, run_wait_scale_faults hf hi hp hm, rfl⟩

end Sys2Proof.Proofs.Wait
end

section
/-! PROOFS. The palette (40_palette.md R130 to R132): what `pack16` makes of an entry, and the two tables
that the completion of a SETPAL leaves. -/

namespace Sys2Proof.Proofs.PaletteCompletion

open Sys2Proof.Machine PaletteTables

/-! ## `pack16` (R130) -/

/-- The three channels of `pack16`, side by side. -/
theorem pack16_eq_append (e : Word) :
    pack16 e = e.extractLsb' 19 5 ++ e.extractLsb' 10 6 ++ e.extractLsb' 3 5 := by
  apply BitVec.eq_of_getLsbD_eq
  intro i hi
  simp only [pack16, BitVec.getLsbD_append, BitVec.getLsbD_or, BitVec.getLsbD_shiftLeft,
    BitVec.getLsbD_setWidth, BitVec.getLsbD_extractLsb']
  interval_cases i <;> simp

theorem redOf_append (r : BitVec 5) (g : BitVec 6) (b : BitVec 5) :
    redOf (r ++ g ++ b) = r.toNat := by
  rw [redOf, BitVec.extractLsb'_append_eq_of_le (by decide), BitVec.extractLsb'_append_eq_left]

theorem greenOf_append (r : BitVec 5) (g : BitVec 6) (b : BitVec 5) :
    greenOf (r ++ g ++ b) = g.toNat := by
  rw [greenOf, BitVec.extractLsb'_append_eq_of_le (by decide), BitVec.extractLsb'_append_eq_right]

theorem blueOf_append (r : BitVec 5) (g : BitVec 6) (b : BitVec 5) :
    blueOf (r ++ g ++ b) = b.toNat := by
  rw [blueOf, BitVec.extractLsb'_append_eq_right]

/-- Dropping the low `k` bits of a field divides it by `2 ^ k`. -/
theorem toNat_extractLsb'_add {w : Nat} (e : BitVec w) (start k len : Nat) :
    (e.extractLsb' (start + k) len).toNat = (e.extractLsb' start (k + len)).toNat / 2 ^ k := by
  simp only [BitVec.extractLsb'_toNat, Nat.shiftRight_eq_div_pow, Nat.pow_add,
    Nat.mod_mul_right_div_self, Nat.div_div_eq_div_mul]

/-- Settles O41: each channel of `pack16` is its byte without the low bits, and all three lie below
bit 24. -/
theorem pack16Truncates : Obligations.Pack16Truncates := by
  intro e
  rw [pack16_eq_append, redOf_append, greenOf_append, blueOf_append]
  refine ⟨toNat_extractLsb'_add e 16 3 5, toNat_extractLsb'_add e 8 2 6,
    toNat_extractLsb'_add e 0 3 5, fun alpha => ?_⟩
  have below {start len : Nat} (h : start + len ≤ 24) :
      (alpha ++ e.extractLsb' 0 24).extractLsb' start len = e.extractLsb' start len := by
    rw [BitVec.extractLsb'_append_eq_of_add_le h,
      BitVec.extractLsb'_extractLsb'_of_le h]
  rw [pack16_eq_append, below (by decide), below (by decide), below (by decide)]

/-! ## The tables after a SETPAL (R131, R132) -/

/-- The rebuilt single table, entry by entry (R131). -/
theorem tableGet_rebuildPal16 (stage : Table 32) (n i : Nat) :
    tableGet (rebuildPal16 stage n) i =
      if i < 256 ∧ i < n then (tableGet stage i).map pack16 else none := by
  ext x
  rw [tableGet_eq_some_iff (rebuildPal16_wf stage n).1, mem_rebuildPal16]
  simp only [Option.ite_none_right_eq_some, Option.map_eq_some_iff, and_assoc]

/-- Settles O31: the completion is `completePalette`, whose single table is the rebuilt one. -/
theorem setpalCompletion : Obligations.SetpalCompletion := by
  intro s n hn hle
  refine ⟨completePalette n s, Laws.engineTurn_palette hn, rfl, rfl, fun i hi => ?_, fun i hi => ?_⟩
  · rw [Laws.completePalette_pal16, tableGet_rebuildPal16, if_pos ⟨by omega, hi⟩]
  · rw [Laws.completePalette_pal16, tableGet_rebuildPal16, if_neg (by omega)]

/-- `pair(lo, hi)` is its two pixels side by side (00_scope.md R20). -/
theorem pairWord_eq_append (lo hi : Pixel) : pairWord lo hi = hi ++ lo := by
  apply BitVec.eq_of_getLsbD_eq
  intro i hi'
  simp only [pairWord, BitVec.getLsbD_append, BitVec.getLsbD_or, BitVec.getLsbD_shiftLeft,
    BitVec.getLsbD_setWidth]
  interval_cases i <;> simp

/-- After the completion of a SETPAL the paired table matches the single one, whatever the two held
before (R132, R134). -/
theorem completePalette_pairMatches (n : BitVec 9) (s : State) :
    PairMatches (completePalette n s).pal16 (completePalette n s).pair :=
  rebuildPair_matches _

/-- Settles O32: the completion leaves a paired table that matches the single one. -/
theorem pairTableIsTheCrossProduct : Obligations.PairTableIsTheCrossProduct := by
  intro s t n hn ht i j hi hj
  obtain rfl : completePalette n s = t := by
    rw [Laws.engineTurn_palette hn] at ht
    exact Host.Outcome.next.inj ht
  have hget := completePalette_pairMatches n s i j hi hj
  refine ⟨fun ci cj hci hcj => ?_, fun hundef => ?_⟩
  · rw [hget, hci, hcj, ← pairWord_eq_append]
  · rw [hget]
    rcases hundef with hci | hcj
    · rw [hci]
    · rw [hcj]
      cases tableGet (completePalette n s).pal16 i <;> rfl

end Sys2Proof.Proofs.PaletteCompletion
end

section
/-! PROOFS. Index bytes out of range (40_palette.md R136 to R139): which source lines they leave undefined.
The two lookups agree, so one account of a source line serves the NATIVE and the scaled routes. -/

namespace Sys2Proof.Proofs.SourceLines

open Sys2Proof.Machine

variable {s : State} {p : FrameRecord} {pal16 : Table 16} {pair : Table 32} {m : Memory} {l : Nat}

/-! ## The two lookups (R137 to R139) -/

theorem palLookup_eq_none_iff {n : BitVec 9} {b : Byte} : palLookup pal16 n b = none ↔
    ¬ (b.toNat < n.toNat ∧ (tableGet pal16 b.toNat).isSome = true) := by
  rw [palLookup, ite_eq_right_iff, not_and, Bool.not_eq_true, Option.isSome_eq_false_iff,
    Option.isNone_iff_eq_none]

/-- With the paired table the cross product of the single one, a lookup of two index bytes at once is
the two lookups of R137 (R135, R138). -/
theorem pairLookup_append (h : PairMatches pal16 pair) (n : BitVec 9) (p0 p1 : Byte) :
    pairLookup pair n (p1 ++ p0) =
      (palLookup pal16 n p0).bind fun c0 => (palLookup pal16 n p1).map (pairWord c0) := by
  have hkey : (p1 ++ p0).toNat = p1.toNat * 256 + p0.toNat := by
    rw [BitVec.toNat_append, ← Nat.shiftLeft_add_eq_or_of_lt p0.isLt, Nat.shiftLeft_eq]
  have hget := h p1.toNat p0.toNat p1.isLt p0.isLt
  rw [pairLookup, BitVec.extractLsb'_append_eq_right, BitVec.extractLsb'_append_eq_left, hkey, hget]
  by_cases h0 : p0.toNat < n.toNat <;> by_cases h1 : p1.toNat < n.toNat
  · rw [if_pos ⟨h0, h1⟩, palLookup, palLookup, if_pos h0, if_pos h1]
    cases tableGet pal16 p0.toNat <;> cases tableGet pal16 p1.toNat <;> rfl
  all_goals simp [palLookup, h0, h1]

/-- `SrcWordIdx(L, k)` (R139), lookup by lookup. -/
theorem srcWord_indexed (hf : p.fmt = .indexed8) (pal16 : Table 16) (m : Memory) (l k : Nat) :
    srcWord p pal16 m l k =
      (palLookup pal16 p.palN (m.read (srcLineAddr p l + 2 * k))).bind fun c0 =>
        (palLookup pal16 p.palN (m.read (srcLineAddr p l + 2 * k + 1))).map (pairWord c0) := by
  simp only [srcWord, hf, srcWordIdx]
  cases palLookup pal16 p.palN (m.read (srcLineAddr p l + 2 * k)) <;>
    cases palLookup pal16 p.palN (m.read (srcLineAddr p l + 2 * k + 1)) <;> rfl

theorem srcWord_packed (hf : p.fmt = .packed16) (pal16 : Table 16) (m : Memory) (l k : Nat) :
    srcWord p pal16 m l k = some (m.readLE (srcLineAddr p l + 4 * k) .word) := by
  simp only [srcWord, hf]

theorem srcWord_eq_none_iff (hf : p.fmt = .indexed8) {k : Nat} : srcWord p pal16 m l k = none ↔
    palLookup pal16 p.palN (m.read (srcLineAddr p l + 2 * k)) = none ∨
      palLookup pal16 p.palN (m.read (srcLineAddr p l + 2 * k + 1)) = none := by
  rw [srcWord_indexed hf]
  cases palLookup pal16 p.palN (m.read (srcLineAddr p l + 2 * k)) <;> simp

/-! ## Lines of the source -/

/-- A line of the NATIVE route is the source line: which of the two tables a path reads cannot be
observed (R139). -/
theorem nativeLine_eq_srcLine (h : p.fmt = .indexed8 → PairMatches pal16 pair) (m : Memory) (l : Nat) :
    nativeLine p pair m l = srcLine p pal16 m l := by
  cases hf : p.fmt with
  | packed16 =>
    simp only [nativeLine, srcLine, hf]
    refine (Laws.collect_eq_some.2 ?_).symm
    rw [List.map_map]
    exact List.map_congr_left fun k _ => srcWord_packed hf pal16 _ l k
  | indexed8 =>
    simp only [nativeLine, srcLine, hf, Laws.readLE_half, pairLookup_append (h hf)]
    exact congrArg collect (List.map_congr_left fun k _ => (srcWord_indexed hf pal16 _ l k).symm)

/-- An INDEXED8 source line is undefined where the lookup of one of its 320 index bytes is. -/
theorem srcLine_eq_none_iff_lookup (hf : p.fmt = .indexed8) : srcLine p pal16 m l = none ↔
    ∃ x < 320, palLookup pal16 p.palN (m.read (srcLineAddr p l + x)) = none := by
  simp only [Laws.srcLine_eq, Laws.collect_eq_none, List.mem_map, List.mem_range, Config.srcWords,
    srcWord_eq_none_iff hf]
  constructor
  · rintro ⟨k, hk, h | h⟩
    · exact ⟨2 * k, by omega, h⟩
    · exact ⟨2 * k + 1, by omega, h⟩
  · rintro ⟨x, hx, h⟩
    refine ⟨x / 2, by omega, ?_⟩
    obtain hx2 | hx2 : x = 2 * (x / 2) ∨ x = 2 * (x / 2) + 1 := by omega
    · rw [hx2] at h
      exact .inl h
    · rw [hx2] at h
      exact .inr h

/-- A source line is undefined exactly where an index byte of it is illegal (R136). -/
theorem srcLine_eq_none_iff : srcLine p s.pal16 s.mem l = none ↔ ¬ LineIndicesLegal s p l := by
  cases hf : p.fmt with
  | packed16 =>
    obtain ⟨ws, hws⟩ := Laws.srcLine_packed hf s.pal16 s.mem l
    simp [hws, LineIndicesLegal, hf]
  | indexed8 =>
    simp only [srcLine_eq_none_iff_lookup hf, palLookup_eq_none_iff, LineIndicesLegal, sourceIndex,
      srcLineAddr, srcPitch, hf, forall_const, not_forall, exists_prop]

end Sys2Proof.Proofs.SourceLines
end

section
/-! PROOFS. INDEX_RANGE (60_exceptions.md R271): a frame is refused exactly where a line its schedule reads
is undefined. The lines emitted before such a line change nothing of what is still to be read. -/

namespace Sys2Proof.Proofs.IndexRange

open Sys2Proof.Machine SourceLines

variable {s : State} {p : FrameRecord} {pal16 : Table 16} {pair : Table 32} {m : Memory}

/-! ## Emitted lines and the source region (20_memory.md R75, R77, R82) -/

/-- Emitting a line of the destination region changes no line of the source. -/
theorem srcLine_emitLine (hap : (srcRegion p).meets (destRegion p) = false) {y : Nat} {d : List Word}
    (hy : y < destHeight p.geom) (hd : 4 * d.length ≤ destPitch p.geom) (m : Memory) {l : Nat}
    (hl : l < 240) : srcLine p pal16 (emitLine p y d m) l = srcLine p pal16 m l := by
  rw [Laws.srcLine_eq, Laws.srcLine_eq]
  refine congrArg collect (List.map_congr_left fun k hk => ?_)
  refine Laws.srcWord_congr (List.mem_range.1 hk) fun x hlow hhigh => ScaleMemory.emitLine_read ?_
  have hsrc : (srcRegion p).holds x = true := by
    have hline : (l + 1) * srcPitch p.fmt ≤ 240 * srcPitch p.fmt := Nat.mul_le_mul_right _ hl
    rw [Nat.succ_mul] at hline
    simp only [BusMemory.holds_iff, srcRegion, Config.srcHeight, srcLineAddr] at hlow hhigh ⊢
    omega
  by_contra hin
  have hdest : (destRegion p).holds x = true := by
    have hend := FrameMemory.destLineAddr_le hy
    have hstart : (destRegion p).base ≤ destLineAddr p y := Nat.le_add_right _ _
    rw [BusMemory.holds_iff]
    omega
  exact Bool.false_ne_true (hap.symm.trans (BusMemory.meets_iff_holds.2 ⟨x, hsrc, hdest⟩))

/-! ## The NATIVE route -/

/-- Lines of the NATIVE route are refused exactly where one of their source lines is undefined. -/
theorem nativeLines_eq_none_iff (hpair : p.fmt = .indexed8 → PairMatches pal16 pair)
    (hap : (srcRegion p).meets (destRegion p) = false) {n l : Nat} (hl : l + n ≤ 240) :
    nativeLines p pair n l m = none ↔ ∃ k < n, srcLine p pal16 m (l + k) = none := by
  induction n generalizing l m with
  | zero => simp [nativeLines]
  | succ n ih =>
    rw [nativeLines, Nat.exists_lt_succ_left, Nat.add_zero, ← nativeLine_eq_srcLine hpair]
    cases hd : nativeLine p pair m l with
    | none => simp
    | some d =>
      have hy : l < destHeight p.geom := by cases p.geom <;> simp only [destHeight] <;> omega
      have hlen : 4 * d.length ≤ destPitch p.geom := by
        rw [Laws.length_nativeLine hd]
        cases p.geom <;> decide
      simp only [ih (m := emitLine p l d m) (l := l + 1) (by omega), reduceCtorEq, false_or]
      refine exists_congr fun k => and_congr_right fun hk => ?_
      rw [srcLine_emitLine hap hy hlen m (by omega), Nat.add_right_comm, Nat.add_assoc]

/-! ## The scaled routes: the schedule (42_vertical.md R185, R187, R188) -/

theorem destHeight_pos (g : Geometry) : 0 < destHeight g := by cases g <;> decide

/-- The accumulator at the start of line `y`: quotient and remainder of `y * VINC` by DH (R187). -/
theorem iterate_vStep (hv : p.vinc.toNat ≤ destHeight p.geom) (y : Nat) :
    (vStep p)^[y] vStart =
      { e := y * p.vinc.toNat % destHeight p.geom, dh := y * p.vinc.toNat / destHeight p.geom,
        y := y } := by
  induction y with
  | zero => simp [vStart]
  | succ y ih =>
    have hpos := destHeight_pos p.geom
    have hmod := Nat.mod_lt (y * p.vinc.toNat) hpos
    have hdiv := Nat.mod_add_div (y * p.vinc.toNat) (destHeight p.geom)
    have divMod {q r : Nat} (hsum : r + destHeight p.geom * q = (y + 1) * p.vinc.toNat)
        (hr : r < destHeight p.geom) : (y + 1) * p.vinc.toNat / destHeight p.geom = q ∧
          (y + 1) * p.vinc.toNat % destHeight p.geom = r :=
      (Nat.div_mod_unique hpos).2 ⟨hsum, hr⟩
    rw [Nat.succ_mul] at divMod
    rw [Function.iterate_succ_apply', ih, Nat.succ_mul]
    simp only [vStep]
    split
    · next hcarry =>
      obtain ⟨hq, hr⟩ := divMod (q := y * p.vinc.toNat / destHeight p.geom + 1)
        (r := y * p.vinc.toNat % destHeight p.geom + p.vinc.toNat - destHeight p.geom)
        (by rw [Nat.mul_succ]; omega) (by omega)
      rw [hq, hr]
    · next hcarry =>
      obtain ⟨hq, hr⟩ := divMod (q := y * p.vinc.toNat / destHeight p.geom)
        (r := y * p.vinc.toNat % destHeight p.geom + p.vinc.toNat) (by omega) (by omega)
      rw [hq, hr]

/-- Under a legal VCFG no destination line is made from a line past the frame (R188). -/
theorem firstLine_lt_of_vcfgLegal (h : vcfgLegal p = true) {y : Nat} (hy : y < destHeight p.geom) :
    firstLine p y + 1 < 240 := by
  simp only [vcfgLegal, Bool.and_eq_true, decide_eq_true_eq] at h
  obtain ⟨-, hlast⟩ := h
  have hmono : y * p.vinc.toNat / destHeight p.geom ≤
      (destHeight p.geom - 1) * p.vinc.toNat / destHeight p.geom :=
    Nat.div_le_div_right (Nat.mul_le_mul_right _ (Nat.le_sub_one_of_lt hy))
  rw [firstLine]
  omega

/-! ## The scaled routes: lines and frames -/

/-- `VLine` is undefined where its first source line is, or its second where the line blends (R184). -/
theorem vLine_eq_none_iff {v : VState} : vLine p pal16 m v = none ↔
    srcLine p pal16 m (p.topskip.toNat + v.dh) = none ∨
      (midHeight p ≤ v.e ∧ srcLine p pal16 m (p.topskip.toNat + v.dh + 1) = none) := by
  simp only [vLine]
  cases srcLine p pal16 m (p.topskip.toNat + v.dh) with
  | none => simp
  | some ws => by_cases hmid : midHeight p ≤ v.e <;> simp [hmid]

/-- Emitting a line of the destination region changes no line of the vertical stage. -/
theorem vLine_emitLine (hap : (srcRegion p).meets (destRegion p) = false) {y : Nat} {d : List Word}
    (hy : y < destHeight p.geom) (hd : 4 * d.length ≤ destPitch p.geom) (m : Memory) {v : VState}
    (hv : p.topskip.toNat + v.dh + 1 < 240) :
    vLine p pal16 (emitLine p y d m) v = vLine p pal16 m v := by
  simp only [vLine, srcLine_emitLine hap hy hd m hv,
    srcLine_emitLine hap hy hd m (Nat.lt_of_succ_lt hv)]

/-- Lines of a scaled route are refused exactly where the vertical stage makes no line for one of them. -/
theorem scaledLines_eq_none_iff (hap : (srcRegion p).meets (destRegion p) = false)
    (hg : p.geom ≠ .native) (hr : p.route = selectRoute p.geom true) {n : Nat} {v : VState}
    (hy : v.y + n ≤ destHeight p.geom)
    (hlines : ∀ i < n, p.topskip.toNat + ((vStep p)^[i] v).dh + 1 < 240) :
    scaledLines p pal16 n v m = none ↔ ∃ i < n, vLine p pal16 m ((vStep p)^[i] v) = none := by
  induction n generalizing v m with
  | zero => simp [scaledLines]
  | succ n ih =>
    rw [scaledLines, Nat.exists_lt_succ_left, Function.iterate_zero_apply]
    cases hd : vLine p pal16 m v with
    | none => simp
    | some ws =>
      have hlen : 4 * (scaleLine p.route ws).length ≤ destPitch p.geom := by
        rw [hr, Laws.length_scaleLine hg (Laws.length_vLine hd), destPitch]
        omega
      have hstep : (vStep p v).y = v.y + 1 := by unfold vStep; simp only; split <;> rfl
      have hrest : ∀ i < n, p.topskip.toNat + ((vStep p)^[i] (vStep p v)).dh + 1 < 240 :=
        fun i hi => hlines (i + 1) (by omega)
      simp only [ih (v := vStep p v) (by omega) hrest, reduceCtorEq, false_or,
        Function.iterate_succ_apply]
      refine exists_congr fun i => and_congr_right fun hi => ?_
      rw [vLine_emitLine hap (by omega) hlen m (hrest i hi)]

/-- `VLine` for destination line `y` of a frame is undefined exactly where a line it reads has an illegal
index byte (40_palette.md R136). -/
theorem vLine_schedule_eq_none_iff (hv : p.vinc.toNat ≤ destHeight p.geom) {y : Nat} :
    vLine p s.pal16 s.mem ((vStep p)^[y] vStart) = none ↔
      ¬ (LineIndicesLegal s p (firstLine p y) ∧
        (blends p y = true → LineIndicesLegal s p (firstLine p y + 1))) := by
  rw [iterate_vStep hv, vLine_eq_none_iff, srcLine_eq_none_iff, srcLine_eq_none_iff, not_and_or,
    Classical.not_imp, blends, decide_eq_true_eq]
  rfl

/-! ## Frames (44_commands.md R250) -/

/-- A NATIVE frame is refused exactly where one of the 240 source lines has an illegal index byte. -/
theorem frame_native_eq_none_iff (hr : p.route = .native)
    (hpair : p.fmt = .indexed8 → PairMatches s.pal16 s.pair)
    (hap : (srcRegion p).meets (destRegion p) = false) :
    frame p s.pal16 s.pair s.mem = none ↔ ∃ y < 240, ¬ LineIndicesLegal s p y := by
  rw [ScaleMemory.frame_native hr, nativeLines_eq_none_iff hpair hap le_rfl]
  simp only [Nat.zero_add, srcLine_eq_none_iff]

theorem frame_scaled (hg : p.geom ≠ .native) (hr : p.route = selectRoute p.geom true) :
    frame p pal16 pair m = scaledLines p pal16 (destHeight p.geom) vStart m := by
  cases hgeom : p.geom with
  | native => exact absurd hgeom hg
  | g400 | g480 =>
    rw [hgeom] at hr
    simp only [frame, hr, selectRoute, hgeom, if_true]

/-- A scaled frame is refused exactly where a line its schedule reads has an illegal index byte. -/
theorem frame_scaled_eq_none_iff (hg : p.geom ≠ .native) (hr : p.route = selectRoute p.geom true)
    (hv : vcfgLegal p = true) (hap : (srcRegion p).meets (destRegion p) = false) :
    frame p s.pal16 s.pair s.mem = none ↔ ¬ ReadLinesLegal s p := by
  have hvinc : p.vinc.toNat ≤ destHeight p.geom := by
    simp only [vcfgLegal, Bool.and_eq_true, decide_eq_true_eq] at hv
    obtain ⟨⟨⟨-, hle⟩, -⟩, -⟩ := hv
    exact hle
  have hlines : ∀ y < destHeight p.geom, p.topskip.toNat + ((vStep p)^[y] vStart).dh + 1 < 240 := by
    intro y hy
    rw [iterate_vStep hvinc]
    exact firstLine_lt_of_vcfgLegal hv hy
  rw [frame_scaled hg hr, scaledLines_eq_none_iff hap hg hr (by simp [vStart]) hlines]
  simp only [vLine_schedule_eq_none_iff hvinc, ReadLinesLegal, not_forall, exists_prop]

/-- The completion of a refused frame: FAULTED, and free bytes in the destination region only (R271). -/
theorem engineTurn_of_frame_none (hp : s.inflight = .scale p)
    (h : frame p s.pal16 s.pair s.mem = none) :
    ∃ t, engineTurn s = .fault (.contract .indexRange t) ∧
      t = { s with mem := t.mem, freeIndex := t.freeIndex, faulted := some .indexRange } ∧
      ∀ a, (a < (destRegion p).base ∨ (destRegion p).base + (destRegion p).bytes ≤ a) →
        t.mem.read a = s.mem.read a :=
  ⟨_, (Laws.engineTurn_scale hp).trans (Laws.completeScale_of_none h), rfl,
    fun a ha => Laws.freeDestination_read p s a ha⟩

/-- Settles O36: the line with the illegal index refuses the frame, whatever the lines before it wrote. -/
theorem nativeIndexOutOfRangeFaults : Obligations.NativeIndexOutOfRangeFaults :=
  fun _ _ hp hr _ hap hpair hbad =>
    engineTurn_of_frame_none hp ((frame_native_eq_none_iff hr (fun _ => hpair) hap).2 hbad)

/-- Settles O38: as on the NATIVE route, with the lines that the schedule of a legal VCFG reads. -/
theorem scaledIndexOutOfRangeFaults : Obligations.ScaledIndexOutOfRangeFaults :=
  fun _ _ hp hg hr hv hap hbad =>
    engineTurn_of_frame_none hp ((frame_scaled_eq_none_iff hg hr hv hap).2 hbad)

end Sys2Proof.Proofs.IndexRange
end

section
/-! PROOFS. The horizontal interpolator (41_horizontal.md). Words and pixels are their lanes and channels
side by side; every expression of the file moves or halves such fields, and even-masking is what keeps a
halved field to itself (R150). -/

namespace Sys2Proof.Proofs.Horizontal

open Sys2Proof.Machine

/-! ## Fields side by side (R150) -/

section Fields

variable {m n : Nat}

theorem toNat_append_eq_mul_add (x : BitVec m) (y : BitVec n) :
    (x ++ y).toNat = x.toNat * 2 ^ n + y.toNat := by
  rw [BitVec.toNat_append, ← Nat.shiftLeft_add_eq_or_of_lt y.isLt, Nat.shiftLeft_eq]

/-- No carry out of the low field: a sum is taken field by field. -/
theorem append_add_append {a c : BitVec m} {b d : BitVec n} (h : b.toNat + d.toNat < 2 ^ n) :
    (a ++ b) + (c ++ d) = (a + c) ++ (b + d) := by
  have hsum : a.toNat * 2 ^ n + b.toNat + (c.toNat * 2 ^ n + d.toNat) =
      2 ^ n * (a.toNat + c.toNat) + (b.toNat + d.toNat) := by ring
  apply BitVec.eq_of_toNat_eq
  simp only [toNat_append_eq_mul_add, BitVec.toNat_add, BitVec.toNat_add_of_lt h, hsum]
  rw [Nat.pow_add, Nat.mul_comm (2 ^ m), Nat.mod_mul, Nat.mul_add_mod, Nat.mod_eq_of_lt h,
    Nat.mul_add_div (Nat.two_pow_pos n), Nat.div_eq_of_lt h, Nat.add_zero]
  ring

theorem append_add_append_zero (a c : BitVec m) (b : BitVec n) :
    (a ++ b) + (c ++ 0#n) = (a + c) ++ b := by
  rw [append_add_append (by simpa using b.isLt), BitVec.add_zero]

theorem append_zero_add_append (a c : BitVec m) (d : BitVec n) :
    (a ++ 0#n) + (c ++ d) = (a + c) ++ d := by
  rw [append_add_append (by simpa using d.isLt), BitVec.zero_add]

/-! ## Halving a field (R151) -/

/-- Two halves of a field fit the field. -/
theorem toNat_half_add_half_lt (x y : BitVec n) :
    (x >>> 1).toNat + (y >>> 1).toNat < 2 ^ n := by
  have hx := x.isLt
  have hy := y.isLt
  simp only [BitVec.toNat_ushiftRight, Nat.shiftRight_one]
  omega

theorem toNat_half_add_half (x y : BitVec n) :
    (x >>> 1 + y >>> 1).toNat = x.toNat / 2 + y.toNat / 2 := by
  rw [BitVec.toNat_add_of_lt (toNat_half_add_half_lt x y), BitVec.toNat_ushiftRight,
    BitVec.toNat_ushiftRight, Nat.shiftRight_one, Nat.shiftRight_one]

/-- An even field loses no bit to the field below it when the two are halved at once. -/
theorem append_half {x : BitVec m} (hx : x.toNat % 2 = 0) (y : BitVec n) :
    (x ++ y) >>> 1 = x >>> 1 ++ y >>> 1 := by
  obtain ⟨k, hk⟩ := Nat.dvd_of_mod_eq_zero hx
  apply BitVec.eq_of_toNat_eq
  simp only [toNat_append_eq_mul_add, BitVec.toNat_ushiftRight, Nat.shiftRight_one, hk,
    Nat.mul_assoc, Nat.mul_add_div Nat.two_pos, Nat.mul_div_cancel_left _ Nat.two_pos]

/-- The mask of a field clears its lowest bit, so what is left is even. -/
theorem toNat_and_not_one_mod_two (x : BitVec n) : (x &&& ~~~1#n).toNat % 2 = 0 := by
  have hbit : (x &&& ~~~1#n).getLsbD 0 = false := by simp
  rw [BitVec.getLsbD, Nat.testBit_zero, decide_eq_false_iff_not] at hbit
  exact Nat.mod_two_ne_one.1 hbit

/-- The bit the mask clears is the one that halving drops. -/
theorem and_not_one_half (x : BitVec n) : (x &&& ~~~1#n) >>> 1 = x >>> 1 := by
  ext i hi
  simpa using BitVec.lt_of_getLsbD

end Fields

/-! ## Channels of a pixel (R151, R153) -/

/-- Every pixel is its red, green and blue field side by side (00_scope.md R26). -/
theorem channels_eq (p : Pixel) :
    p.extractLsb' 11 5 ++ p.extractLsb' 5 6 ++ p.extractLsb' 0 5 = p := by
  simp only [BitVec.extractLsb'_append_extractLsb'_eq_extractLsb']
  exact BitVec.extractLsb'_eq_self

/-- Even-masking clears the lowest bit of each channel. -/
theorem even16_channels (r : BitVec 5) (g : BitVec 6) (b : BitVec 5) :
    even16 (r ++ g ++ b) = (r &&& ~~~1#5) ++ (g &&& ~~~1#6) ++ (b &&& ~~~1#5) := by
  rw [← BitVec.and_append, ← BitVec.and_append]
  rfl

theorem even16_toNat_mod_two (p : Pixel) : (even16 p).toNat % 2 = 0 := by
  have hb := toNat_and_not_one_mod_two (p.extractLsb' 0 5)
  rw [← channels_eq p, even16_channels, toNat_append_eq_mul_add]
  omega

theorem even16_channels_half (r : BitVec 5) (g : BitVec 6) (b : BitVec 5) :
    even16 (r ++ g ++ b) >>> 1 = r >>> 1 ++ g >>> 1 ++ b >>> 1 := by
  have hrg : ((r &&& ~~~1#5) ++ (g &&& ~~~1#6)).toNat % 2 = 0 := by
    have hg := toNat_and_not_one_mod_two g
    rw [toNat_append_eq_mul_add]
    omega
  rw [even16_channels, append_half hrg, append_half (toNat_and_not_one_mod_two r),
    and_not_one_half, and_not_one_half, and_not_one_half]

theorem avg16_eq (u v : Pixel) : avg16 u v = even16 u >>> 1 + even16 v >>> 1 := rfl

/-- `avg16` averages each channel in its own field. -/
theorem avg16_channels (r r' : BitVec 5) (g g' : BitVec 6) (b b' : BitVec 5) :
    avg16 (r ++ g ++ b) (r' ++ g' ++ b') =
      (r >>> 1 + r' >>> 1) ++ (g >>> 1 + g' >>> 1) ++ (b >>> 1 + b' >>> 1) := by
  rw [avg16_eq, even16_channels_half, even16_channels_half,
    append_add_append (toNat_half_add_half_lt b b'),
    append_add_append (toNat_half_add_half_lt g g')]

/-- Settles O42: `avg16` is the sum of the halves in each field, and that sum fits the field. -/
theorem avg16PerChannel : Obligations.Avg16PerChannel := by
  intro u v
  rw [← channels_eq u, ← channels_eq v, avg16_channels]
  simp only [PaletteCompletion.redOf_append, PaletteCompletion.greenOf_append,
    PaletteCompletion.blueOf_append, toNat_half_add_half, and_self]

/-! ## Lanes of a word (R152, R154, R155) -/

theorem hiPixel_append_loPixel (w : Word) : hiPixel w ++ loPixel w = w :=
  BitVec.extractLsb'_append_extractLsb'

theorem even32_append (h l : Pixel) : even32 (h ++ l) = even16 h ++ even16 l :=
  BitVec.and_append (x₂ := 0xF7DE#16) (y₂ := 0xF7DE#16)

theorem average_append (h l h' l' : Pixel) :
    average (h ++ l) (h' ++ l') = avg16 h h' ++ avg16 l l' :=
  calc average (h ++ l) (h' ++ l')
      = even32 (h ++ l) >>> 1 + even32 (h' ++ l') >>> 1 := rfl
    _ = (even16 h >>> 1 ++ even16 l >>> 1) + (even16 h' >>> 1 ++ even16 l' >>> 1) := by
      rw [even32_append, even32_append, append_half (even16_toNat_mod_two h),
        append_half (even16_toNat_mod_two h')]
    _ = avg16 h h' ++ avg16 l l' := append_add_append (toNat_half_add_half_lt _ _)

/-! ## Masks and shifts that pick or move a lane (R154, R155, R157, R160) -/

theorem append_and_low (h l : Pixel) : (h ++ l) &&& 0xFFFF#32 = 0#16 ++ l := by
  rw [show 0xFFFF#32 = 0#16 ++ BitVec.allOnes 16 from rfl, BitVec.and_append, BitVec.and_zero,
    BitVec.and_allOnes]

theorem append_and_high (h l : Pixel) : (h ++ l) &&& 0xFFFF0000#32 = h ++ 0#16 := by
  rw [show 0xFFFF0000#32 = BitVec.allOnes 16 ++ 0#16 from rfl, BitVec.and_append, BitVec.and_zero,
    BitVec.and_allOnes]

theorem append_and_lowEven (h l : Pixel) : (h ++ l) &&& 0xF7DE#32 = 0#16 ++ even16 l := by
  rw [show 0xF7DE#32 = 0#16 ++ 0xF7DE#16 from rfl, BitVec.and_append, BitVec.and_zero, even16]

theorem append_and_highEven (h l : Pixel) : (h ++ l) &&& 0xF7DE0000#32 = even16 h ++ 0#16 := by
  rw [show 0xF7DE0000#32 = 0xF7DE#16 ++ 0#16 from rfl, BitVec.and_append, BitVec.and_zero, even16]

theorem append_ushiftRight_sixteen (h l : Pixel) : (h ++ l) >>> 16 = 0#16 ++ h := by
  apply BitVec.eq_of_toNat_eq
  have hl := l.isLt
  simp only [toNat_append_eq_mul_add, BitVec.toNat_ushiftRight, Nat.shiftRight_eq_div_pow,
    BitVec.toNat_ofNat]
  omega

theorem append_shiftLeft_sixteen (h l : Pixel) : (h ++ l) <<< 16 = l ++ 0#16 := by
  apply BitVec.eq_of_toNat_eq
  have hl := l.isLt
  simp only [toNat_append_eq_mul_add, BitVec.toNat_shiftLeft, Nat.shiftLeft_eq, BitVec.toNat_ofNat]
  omega

/-- Right by 17 is right by a lane, then a half. -/
theorem append_ushiftRight_seventeen (h l : Pixel) : (h ++ l) >>> 17 = 0#16 ++ h >>> 1 := by
  rw [BitVec.shiftRight_add _ 16 1, append_ushiftRight_sixteen, append_half rfl,
    BitVec.zero_ushiftRight]

/-- Left by 15 is, for an even lane, a half, then left by a lane. -/
theorem append_shiftLeft_fifteen {l : Pixel} (hl : l.toNat % 2 = 0) :
    (0#16 ++ l) <<< 15 = l >>> 1 ++ 0#16 := by
  apply BitVec.eq_of_toNat_eq
  have hlt := l.isLt
  simp only [toNat_append_eq_mul_add, BitVec.toNat_shiftLeft, Nat.shiftLeft_eq,
    BitVec.toNat_ushiftRight, Nat.shiftRight_one, BitVec.toNat_ofNat]
  omega

/-- The right lane of one word and the left lane of the next, joined. -/
theorem join_lanes (h l h' l' : Pixel) : (h ++ l) >>> 16 + (h' ++ l') <<< 16 = l' ++ h := by
  rw [append_ushiftRight_sixteen, append_shiftLeft_sixteen, append_add_append_zero, BitVec.zero_add]

/-! ## The averages as one lane (R154, R155) -/

theorem averageHi_append (h l : Pixel) : averageHi (h ++ l) = avg16 l h ++ 0#16 := by
  rw [averageHi, append_and_highEven, append_and_lowEven, append_half (even16_toNat_mod_two h),
    append_shiftLeft_fifteen (even16_toNat_mod_two l), append_add_append_zero, avg16_eq,
    BitVec.add_comm, BitVec.zero_ushiftRight]

theorem averageLo_append (h l : Pixel) : averageLo (h ++ l) = 0#16 ++ avg16 l h := by
  rw [averageLo, append_and_highEven, append_and_lowEven, append_half rfl,
    append_ushiftRight_seventeen, append_add_append (toNat_half_add_half_lt _ _), avg16_eq,
    BitVec.zero_ushiftRight, BitVec.zero_add]

/-- Settles O43: a word is its two lanes, and each of the three expressions is known on two
lanes (AVERAGEHI and AVERAGELO as the spec reconstructs them, notes/assumptions/14.md). -/
theorem averagesPerLane : Obligations.AveragesPerLane := by
  intro z x
  refine ⟨?_, ?_, ?_⟩
  · rw [← average_append, hiPixel_append_loPixel, hiPixel_append_loPixel]
  · rw [← averageHi_append, hiPixel_append_loPixel]
  · rw [← averageLo_append, hiPixel_append_loPixel]

/-! ## The groups (R156 to R158, R160, R161) -/

section Groups

variable {u v : Pixel}

theorem avg16_of_even (hu : even16 u = u) (hv : even16 v = v) :
    avg16 u v = u >>> 1 + v >>> 1 := by
  rw [avg16_eq, hu, hv]

theorem toNat_mod_two_of_even (hu : even16 u = u) : u.toNat % 2 = 0 := by
  rw [← hu]
  exact even16_toNat_mod_two u

/-- D1 of the 5:4 group, from its two words `ab` and `cd` (R157). -/
theorem h54Second_append (t d : Pixel) (hu : even16 u = u) (hv : even16 v = v) :
    (u ++ t) >>> 17 + ((d ++ v) &&& 0xFFFF#32) >>> 1 + (d ++ v) <<< 16 = v ++ avg16 u v := by
  rw [append_ushiftRight_seventeen, append_and_low, append_half rfl, append_shiftLeft_sixteen,
    append_add_append (toNat_half_add_half_lt u v), append_add_append_zero, avg16_of_even hu hv,
    BitVec.zero_ushiftRight, BitVec.zero_add, BitVec.zero_add]

/-- D3 of the 5:4 group, from its two words `ef` and `gh` (R157). -/
theorem h54Fourth_append (e h : Pixel) (hu : even16 u = u) (hv : even16 v = v) :
    (u ++ e) >>> 16 + ((u ++ e) &&& 0xFFFF0000#32) >>> 1 + ((h ++ v) &&& 0xFFFF#32) <<< 15 =
      avg16 u v ++ u := by
  rw [append_ushiftRight_sixteen, append_and_high, append_half (toNat_mod_two_of_even hu),
    append_and_low, append_shiftLeft_fifteen (toNat_mod_two_of_even hv), avg16_of_even hu hv,
    BitVec.zero_ushiftRight, append_add_append_zero, append_add_append_zero, BitVec.zero_add]

end Groups

/-- Settles O44: only D1 and D3 average, and there the even mask keeps each half in its lane. -/
theorem h54GroupLaneForm : Obligations.H54GroupLaneForm := by
  intro a b c d e f g h _ hb hc _ _ hf hg _
  rw [h54Group, h54Second_append a d hb hc, join_lanes, h54Fourth_append e h hf hg]

/-- Settles O45: D1 joins two source pixels, and D0 and D2 put an average beside one. -/
theorem h32GroupLaneForm : Obligations.H32GroupLaneForm := by
  intro a b c d _ _ _ _
  rw [h32Group, averageHi_append, averageLo_append, append_and_low, append_and_low, append_and_high,
    append_add_append_zero, append_zero_add_append, BitVec.zero_add, BitVec.add_zero,
    join_lanes]

/-! ## Uniform lines (R159, R162, R163) -/

theorem even16_even16 (p : Pixel) : even16 (even16 p) = even16 p := by
  rw [even16, even16, BitVec.and_assoc, BitVec.and_self]

theorem avg16_self (p : Pixel) : avg16 p p = even16 p := by
  have heven := even16_toNat_mod_two p
  apply BitVec.eq_of_toNat_eq
  rw [avg16_eq, toNat_half_add_half]
  omega

/-- If the group keeps a word given four times, it keeps it along a whole line of copies. -/
theorem h54Line_replicate {w : Word} (h : h54Group w w w w = List.replicate 5 w) (n : Nat) :
    h54Line (List.replicate (4 * n) w) = List.replicate (5 * n) w := by
  induction n with
  | zero => rfl
  | succ n ih =>
    calc h54Line (List.replicate (4 * n + 4) w)
        = h54Group w w w w ++ h54Line (List.replicate (4 * n) w) := rfl
      _ = List.replicate (5 * (n + 1)) w := by
        rw [h, ih, List.replicate_append_replicate, Nat.mul_succ, Nat.add_comm]

theorem h32Line_replicate {w : Word} (h : h32Group w w = List.replicate 3 w) (n : Nat) :
    h32Line (List.replicate (2 * n) w) = List.replicate (3 * n) w := by
  induction n with
  | zero => rfl
  | succ n ih =>
    calc h32Line (List.replicate (2 * n + 2) w)
        = h32Group w w ++ h32Line (List.replicate (2 * n) w) := rfl
      _ = List.replicate (3 * (n + 1)) w := by
        rw [h, ih, List.replicate_append_replicate, Nat.mul_succ, Nat.add_comm]

/-- Settles O46: on equal even-masked pixels the lane forms of both groups keep the word, for an average
of two equal pixels is their even mask. -/
theorem uniformLineStaysUniform : Obligations.UniformLineStaysUniform := by
  intro p
  have heven := even16_even16 p
  have havg : avg16 (even16 p) (even16 p) = even16 p := by rw [avg16_self, heven]
  rw [List.map_replicate, even32_append]
  constructor
  · refine h54Line_replicate ?_ 40
    rw [h54GroupLaneForm _ _ _ _ _ _ _ _ heven heven heven heven heven heven heven heven, havg]
    rfl
  · refine h32Line_replicate ?_ 80
    rw [h32GroupLaneForm _ _ _ _ heven heven heven heven, havg]
    rfl

end Sys2Proof.Proofs.Horizontal
end

section
/-! PROOFS. The vertical schedule (42_vertical.md R185 to R188): the closed form of its accumulator, and
the place of the source lines it reads. -/

namespace Sys2Proof.Proofs.Vertical

open Sys2Proof.Machine IndexRange

variable {p : FrameRecord}

/-- Settles O39: after DH steps the quotient is DH * VINC / DH. -/
theorem accumulatorClosedForm : Obligations.AccumulatorClosedForm := by
  intro p _ hle
  have hclosed := iterate_vStep hle
  refine ⟨hclosed, ?_⟩
  rw [hclosed]
  exact Nat.mul_div_cancel_left _ (destHeight_pos p.geom)

/-- Each of the 240 lines of the source frame ends inside the source region (20_memory.md R75). -/
theorem srcLineAddr_add_srcPitch_le {l : Nat} (hl : l < 240) :
    srcLineAddr p l + srcPitch p.fmt ≤ (srcRegion p).base + (srcRegion p).bytes :=
  calc srcLineAddr p l + srcPitch p.fmt
      = p.srcBase.toNat + (l + 1) * srcPitch p.fmt := by rw [srcLineAddr, Nat.succ_mul, Nat.add_assoc]
    _ ≤ p.srcBase.toNat + 240 * srcPitch p.fmt :=
      Nat.add_le_add_left (Nat.mul_le_mul_right _ hl) _

/-- Settles O40: a legal VCFG keeps the blend line below line 240, and such a line is in the region. -/
theorem legalVcfgReadsInsideTheFrame : Obligations.LegalVcfgReadsInsideTheFrame := by
  intro p y hv hy
  have hline := firstLine_lt_of_vcfgLegal hv hy
  exact ⟨Nat.le_of_lt_succ hline, srcLineAddr_add_srcPitch_le hline⟩

end Sys2Proof.Proofs.Vertical
end

section
/-! PROOFS. Lines as their pixels: the words of a line hold two pixels each (00_scope.md R20, 20_memory.md
R74), and the source lines, the vertical stage and the two line functions act on them pixel by pixel. -/

namespace Sys2Proof.Proofs.LinePixels

open Sys2Proof.Machine PaletteCompletion SourceLines IndexRange Horizontal

variable {s : State} {p : FrameRecord}

/-! ## The words of a row of pixels (R20) -/

/-- The `n` words that hold pixels 0 to `2 * n - 1` of the row `f`, the even one of each pair low. -/
def rowWords (n : Nat) (f : Nat → Pixel) : List Word :=
  (List.range n).map fun k => f (2 * k + 1) ++ f (2 * k)

@[simp] theorem length_rowWords (n : Nat) (f : Nat → Pixel) : (rowWords n f).length = n := by
  simp [rowWords]

/-- The words of a row are those of its first `2 * a` pixels, then those of the rest. -/
theorem rowWords_add (a b : Nat) (f : Nat → Pixel) :
    rowWords (a + b) f = rowWords a f ++ rowWords b fun x => f (2 * a + x) := by
  simp only [rowWords, List.range_add, List.map_append, List.map_map, Function.comp_def,
    Nat.mul_add, Nat.add_assoc]

/-- An even-masked line is the line of the even-masked pixels (41_horizontal.md R153). -/
theorem map_even32_rowWords (n : Nat) (f : Nat → Pixel) :
    (rowWords n f).map even32 = rowWords n fun x => even16 (f x) := by
  simp only [rowWords, List.map_map, Function.comp_def, even32_append]

/-- Two lines blend pixel by pixel (42_vertical.md R184). -/
theorem zipWith_blendWord_rowWords (n : Nat) (f g : Nat → Pixel) :
    List.zipWith blendWord (rowWords n f) (rowWords n g) =
      rowWords n fun x => even16 (avg16 (even16 (f x)) (g x)) := by
  simp only [rowWords, List.zipWith_map, List.zipWith_self, blendWord, even32_append,
    average_append]

/-! ## Source lines (20_memory.md R74, 40_palette.md R137) -/

/-- A legal index byte shows its source pixel. -/
theorem palLookup_eq_sourcePixel {l x : Nat} (hf : p.fmt = .indexed8) (hl : LineIndicesLegal s p l)
    (hx : x < 320) :
    palLookup s.pal16 p.palN (s.mem.read (srcLineAddr p l + x)) = some (sourcePixel s p l x) := by
  obtain ⟨hlt, hsome⟩ := hl hf x hx
  obtain ⟨c, hc⟩ := Option.isSome_iff_exists.1 hsome
  have hpixel : sourcePixel s p l x = c := by simp only [sourcePixel, hf, hc, Option.getD_some]
  simp only [sourceIndex] at hlt hc
  simp only [palLookup, srcLineAddr, srcPitch, hf]
  rw [if_pos hlt, hc, hpixel]

/-- A 32-bit read is two pixels, the one at the lower address low (20_memory.md R72). -/
theorem readLE_word_eq_memPixel_append (m : Memory) (a : Nat) :
    m.readLE a .word = memPixel m (a + 2) ++ memPixel m a := by
  rw [Laws.readLE_word]
  exact BitVec.append_assoc

/-- A source word is its two source pixels. -/
theorem srcWord_eq_sourcePixels {l k : Nat} (hl : LineIndicesLegal s p l) (hk : k < 160) :
    srcWord p s.pal16 s.mem l k =
      some (sourcePixel s p l (2 * k + 1) ++ sourcePixel s p l (2 * k)) := by
  cases hf : p.fmt with
  | packed16 =>
    rw [srcWord_packed hf, readLE_word_eq_memPixel_append]
    simp only [sourcePixel, hf, srcLineAddr, srcPitch, Nat.mul_add, ← Nat.mul_assoc, Nat.add_assoc]
  | indexed8 =>
    rw [srcWord_indexed hf, palLookup_eq_sourcePixel hf hl (by omega), Nat.add_assoc,
      palLookup_eq_sourcePixel hf hl (by omega)]
    simp only [Option.bind_some, Option.map_some, pairWord_eq_append]

/-- A source line with legal indices is the row of its source pixels. -/
theorem srcLine_eq_rowWords {l : Nat} (hl : LineIndicesLegal s p l) :
    srcLine p s.pal16 s.mem l = some (rowWords 160 (sourcePixel s p l)) := by
  rw [Laws.srcLine_eq, Laws.collect_eq_some, rowWords, List.map_map]
  exact List.map_congr_left fun k hk => srcWord_eq_sourcePixels hl (List.mem_range.1 hk)

/-! ## The vertical stage (42_vertical.md R184, R187) -/

/-- The vertical stage makes, for destination line `y`, the row of the closed form's pixels. -/
theorem vLine_eq_rowWords {y : Nat} (hv : p.vinc.toNat ≤ destHeight p.geom)
    (hfirst : LineIndicesLegal s p (firstLine p y))
    (hsecond : blends p y = true → LineIndicesLegal s p (firstLine p y + 1)) :
    vLine p s.pal16 s.mem ((vStep p)^[y] vStart) = some (rowWords 160 (verticalPixel s p y)) := by
  have hblends : blends p y = true ↔
      midHeight p ≤ y * p.vinc.toNat % destHeight p.geom := decide_eq_true_iff
  have hline : srcLine p s.pal16 s.mem (p.topskip.toNat + y * p.vinc.toNat / destHeight p.geom) =
    some (rowWords 160 (sourcePixel s p (firstLine p y))) := srcLine_eq_rowWords hfirst
  rw [iterate_vStep hv]
  simp only [vLine, hline]
  by_cases hb : blends p y = true
  · have hnext : srcLine p s.pal16 s.mem
        (p.topskip.toNat + y * p.vinc.toNat / destHeight p.geom + 1) =
      some (rowWords 160 (sourcePixel s p (firstLine p y + 1))) := srcLine_eq_rowWords (hsecond hb)
    rw [if_pos (hblends.1 hb), hnext, Option.map_some, zipWith_blendWord_rowWords]
    exact congrArg some (congrArg (rowWords 160) (funext fun x => (if_pos hb).symm))
  · rw [if_neg (mt hblends.2 hb), map_even32_rowWords]
    exact congrArg some (congrArg (rowWords 160) (funext fun x => (if_neg hb).symm))

theorem even16_verticalPixel (s : State) (p : FrameRecord) (y x : Nat) :
    even16 (verticalPixel s p y x) = verticalPixel s p y x := by
  unfold verticalPixel
  split <;> exact even16_even16 _

/-! ## The line functions (41_horizontal.md R158, R159, R161, R162) -/

/-- Pixel `x` of a row after the 5:4 stretch of `f`, by the lane form of R158. -/
def h54Pixel (f : Nat → Pixel) (x : Nat) : Pixel :=
  let v := fun j => f (8 * (x / 10) + j)
  match x % 10 with
  | 0 => v 0
  | 1 => v 1
  | 2 => avg16 (v 1) (v 2)
  | 3 => v 2
  | 4 => v 3
  | 5 => v 4
  | 6 => v 5
  | 7 => avg16 (v 5) (v 6)
  | 8 => v 6
  | _ => v 7

/-- Pixel `x` of a row after the 3:2 stretch of `f`, by the lane form of R161. -/
def h32Pixel (f : Nat → Pixel) (x : Nat) : Pixel :=
  let v := fun j => f (4 * (x / 6) + j)
  match x % 6 with
  | 0 => v 0
  | 1 => avg16 (v 0) (v 1)
  | 2 => v 1
  | 3 => v 2
  | 4 => avg16 (v 2) (v 3)
  | _ => v 3

theorem h54Pixel_add_ten (f : Nat → Pixel) (x : Nat) :
    h54Pixel f (10 + x) = h54Pixel (fun j => f (8 + j)) x := by
  simp only [h54Pixel, Nat.add_mod_left, Nat.add_div_left x (show 0 < 10 by decide), Nat.mul_succ,
    Nat.add_comm _ 8, Nat.add_assoc]

theorem h32Pixel_add_six (f : Nat → Pixel) (x : Nat) :
    h32Pixel f (6 + x) = h32Pixel (fun j => f (4 + j)) x := by
  simp only [h32Pixel, Nat.add_mod_left, Nat.add_div_left x (show 0 < 6 by decide), Nat.mul_succ,
    Nat.add_comm _ 4, Nat.add_assoc]

/-- The 5:4 line function on an even-masked row: group after group, its lane form. -/
theorem h54Line_rowWords {f : Nat → Pixel} (hf : ∀ x, even16 (f x) = f x) (n : Nat) :
    h54Line (rowWords (4 * n) f) = rowWords (5 * n) (h54Pixel f) := by
  induction n generalizing f with
  | zero => rfl
  | succ n ih =>
    have hgroup : h54Group (f 1 ++ f 0) (f 3 ++ f 2) (f 5 ++ f 4) (f 7 ++ f 6) =
        rowWords 5 (h54Pixel f) := by
      rw [h54GroupLaneForm _ _ _ _ _ _ _ _ (hf 0) (hf 1) (hf 2) (hf 3) (hf 4) (hf 5) (hf 6) (hf 7)]
      rfl
    calc h54Line (rowWords (4 * (n + 1)) f)
        = h54Line (rowWords 4 f ++ rowWords (4 * n) fun x => f (8 + x)) := by
          rw [Nat.mul_succ, Nat.add_comm, rowWords_add]
      _ = h54Group (f 1 ++ f 0) (f 3 ++ f 2) (f 5 ++ f 4) (f 7 ++ f 6) ++
            h54Line (rowWords (4 * n) fun x => f (8 + x)) := rfl
      _ = rowWords 5 (h54Pixel f) ++ rowWords (5 * n) fun x => h54Pixel f (10 + x) := by
          rw [hgroup, ih fun x => hf (8 + x)]
          simp only [h54Pixel_add_ten]
      _ = rowWords (5 * (n + 1)) (h54Pixel f) := by
          rw [Nat.mul_succ, Nat.add_comm, rowWords_add]

/-- The 3:2 line function on an even-masked row: group after group, its lane form. -/
theorem h32Line_rowWords {f : Nat → Pixel} (hf : ∀ x, even16 (f x) = f x) (n : Nat) :
    h32Line (rowWords (2 * n) f) = rowWords (3 * n) (h32Pixel f) := by
  induction n generalizing f with
  | zero => rfl
  | succ n ih =>
    have hgroup : h32Group (f 1 ++ f 0) (f 3 ++ f 2) = rowWords 3 (h32Pixel f) := by
      rw [h32GroupLaneForm _ _ _ _ (hf 0) (hf 1) (hf 2) (hf 3)]
      rfl
    calc h32Line (rowWords (2 * (n + 1)) f)
        = h32Line (rowWords 2 f ++ rowWords (2 * n) fun x => f (4 + x)) := by
          rw [Nat.mul_succ, Nat.add_comm, rowWords_add]
      _ = h32Group (f 1 ++ f 0) (f 3 ++ f 2) ++ h32Line (rowWords (2 * n) fun x => f (4 + x)) := rfl
      _ = rowWords 3 (h32Pixel f) ++ rowWords (3 * n) fun x => h32Pixel f (6 + x) := by
          rw [hgroup, ih fun x => hf (4 + x)]
          simp only [h32Pixel_add_six]
      _ = rowWords (3 * (n + 1)) (h32Pixel f) := by
          rw [Nat.mul_succ, Nat.add_comm, rowWords_add]

theorem scaledPixel_of_h54 (h : p.route = .h54) (y : Nat) :
    scaledPixel s p y = h54Pixel (verticalPixel s p y) := by
  funext x
  simp only [scaledPixel, h]
  rfl

theorem scaledPixel_of_h32 (h : p.route = .h32) (y : Nat) :
    scaledPixel s p y = h32Pixel (verticalPixel s p y) := by
  funext x
  simp only [scaledPixel, h]
  rfl

/-- A scaled route makes of the vertical stage's row the row of the closed form (43_packer.md R206). -/
theorem scaleLine_verticalPixel (hg : p.geom ≠ .native) (hr : p.route = selectRoute p.geom true)
    (y : Nat) :
    scaleLine p.route (rowWords 160 (verticalPixel s p y)) =
      rowWords (destWidth p.geom / 2) (scaledPixel s p y) := by
  have heven := even16_verticalPixel s p y
  cases hgeom : p.geom with
  | native => exact absurd hgeom hg
  | g400 =>
    have hroute : p.route = .h54 := by rw [hr, hgeom]; rfl
    rw [hroute, scaledPixel_of_h54 hroute]
    exact h54Line_rowWords heven 40
  | g480 =>
    have hroute : p.route = .h32 := by rw [hr, hgeom]; rfl
    rw [hroute, scaledPixel_of_h32 hroute]
    exact h32Line_rowWords heven 80

end Sys2Proof.Proofs.LinePixels
end

section
/-! PROOFS. The Output Packer (43_packer.md): a frame emits the rows of one picture, and each pixel of that
picture stands in the destination when the frame ends. -/

namespace Sys2Proof.Proofs.Packer

open Sys2Proof.Machine LinePixels SourceLines IndexRange

variable {s : State} {p : FrameRecord} {pal16 : Table 16} {pair : Table 32} {m : Memory}
  {w : Nat} {f : Nat → Nat → Pixel}

/-! ## Emitting a row (R207) -/

/-- The words of a line lie one after the other, each with its lowest byte first (20_memory.md R72). -/
theorem getD_lineBytes {d : List Word} {k j : Nat} (hk : k < d.length) (hj : j < 4) (b : Byte) :
    (lineBytes d).getD (4 * k + j) b = (d.getD k 0#32).extractLsb' (8 * j) 8 := by
  induction d generalizing k with
  | nil => exact absurd hk (Nat.not_lt_zero k)
  | cons w d ih =>
    have hsplit : lineBytes (w :: d) = bytesLE w .word ++ lineBytes d := rfl
    have hlen : (bytesLE w .word).length = 4 := rfl
    cases k with
    | zero =>
      rw [hsplit, List.getD_append _ _ _ _ (by omega), Nat.mul_zero, Nat.zero_add,
        BusMemory.getD_bytesLE w hj]
      rfl
    | succ k =>
      rw [hsplit, List.getD_append_right _ _ _ _ (by omega), hlen, List.getD_cons_succ,
        show 4 * (k + 1) + j - 4 = 4 * k + j by omega, ih (Nat.lt_of_succ_lt_succ hk)]

/-- An emitted line stands in memory byte by byte. -/
theorem read_emitLine {y k j : Nat} {d : List Word} (hk : k < d.length) (hj : j < 4) :
    (emitLine p y d m).read (destLineAddr p y + (4 * k + j)) =
      (d.getD k 0#32).extractLsb' (8 * j) 8 := by
  rw [emitLine, Laws.read_write, Laws.length_lineBytes, if_pos (by omega), Nat.add_sub_cancel_left,
    getD_lineBytes hk hj]

/-- The two lanes of a word are the two pixels at its address (20_memory.md R72). -/
theorem memPixel_emitLine {y k i : Nat} {d : List Word} (hk : k < d.length) (hi : i < 2) :
    memPixel (emitLine p y d m) (destLineAddr p y + (4 * k + 2 * i)) =
      (d.getD k 0#32).extractLsb' (16 * i) 16 := by
  have hlow := read_emitLine (p := p) (y := y) (m := m) hk (show 2 * i < 4 by omega)
  have hhigh := read_emitLine (p := p) (y := y) (m := m) hk (show 2 * i + 1 < 4 by omega)
  calc memPixel (emitLine p y d m) (destLineAddr p y + (4 * k + 2 * i))
      = (d.getD k 0#32).extractLsb' (8 * (2 * i + 1)) 8 ++
          (d.getD k 0#32).extractLsb' (8 * (2 * i)) 8 := congrArg₂ (· ++ ·) hhigh hlow
    _ = (d.getD k 0#32).extractLsb' (16 * i) 16 := by
      rw [BitVec.extractLsb'_append_extractLsb'_eq_extractLsb' (by omega),
        show 8 * (2 * i) = 16 * i by omega]

/-- The lanes of word `k` of a row are its pixels `2 * k` and `2 * k + 1`. -/
theorem extractLsb'_getD_rowWords {k i : Nat} {g : Nat → Pixel} (hk : k < w) (hi : i < 2) :
    ((rowWords w g).getD k 0#32).extractLsb' (16 * i) 16 = g (2 * k + i) := by
  have hword : (rowWords w g).getD k 0#32 = g (2 * k + 1) ++ g (2 * k) := by simp [rowWords, hk]
  rw [hword]
  interval_cases i
  · exact BitVec.extractLsb'_append_eq_right
  · exact BitVec.extractLsb'_append_eq_left

/-- An emitted row stands in memory pixel by pixel. -/
theorem memPixel_emitLine_rowWords {y x : Nat} {g : Nat → Pixel} (hx : x < 2 * w) :
    memPixel (emitLine p y (rowWords w g) m) (destLineAddr p y + 2 * x) = g x := by
  have hk : x / 2 < w := by omega
  have haddr : 2 * x = 4 * (x / 2) + 2 * (x % 2) := by omega
  rw [haddr, memPixel_emitLine (by simpa using hk) (Nat.mod_lt x two_pos),
    extractLsb'_getD_rowWords hk (Nat.mod_lt x two_pos), Nat.div_add_mod]

/-! ## Emitting a picture (R204 to R206) -/

/-- Memory with `n` rows of the picture `f`, `w` words of each, emitted from destination line `y` on. -/
def emitPicture (p : FrameRecord) (w : Nat) (f : Nat → Nat → Pixel) : Nat → Nat → Memory → Memory
  | 0, _, m => m
  | n + 1, y, m => emitPicture p w f n (y + 1) (emitLine p y (rowWords w (f y)) m)

/-- Rows that fit the pitch of the destination write no byte before the first of them. -/
theorem emitPicture_read_of_lt {n y a : Nat} (ha : a < destLineAddr p y) :
    (emitPicture p w f n y m).read a = m.read a := by
  induction n generalizing y m with
  | zero => rfl
  | succ n ih =>
    have hnext : destLineAddr p y ≤ destLineAddr p (y + 1) :=
      Nat.add_le_add_left (Nat.mul_le_mul_right _ y.le_succ) _
    rw [emitPicture, ih (by omega), ScaleMemory.emitLine_read (.inl ha)]

/-- Each pixel of an emitted picture stands in memory: the rows fit the pitch, so none overwrites another
(20_memory.md R76). -/
theorem memPixel_emitPicture (hw : 4 * w ≤ destPitch p.geom) {n l y x : Nat} (hl : l ≤ y)
    (hy : y < l + n) (hx : x < 2 * w) :
    memPixel (emitPicture p w f n l m) (destLineAddr p y + 2 * x) = f y x := by
  induction n generalizing l m with
  | zero => omega
  | succ n ih =>
    rw [emitPicture]
    obtain rfl | hlt : l = y ∨ l + 1 ≤ y := by omega
    · have hnext : destLineAddr p (l + 1) = destLineAddr p l + destPitch p.geom := by
        rw [destLineAddr, destLineAddr, Nat.succ_mul, Nat.add_assoc]
      rw [memPixel, emitPicture_read_of_lt (by omega), emitPicture_read_of_lt (by omega)]
      exact memPixel_emitLine_rowWords hx
    · exact ih hlt (by omega)

/-- A frame that emits a picture completes, and leaves the picture in the destination; everything but
memory and INFLIGHT stays (44_commands.md R250). -/
theorem engineTurn_of_emitPicture (hp : s.inflight = .scale p) (hw : 4 * w ≤ destPitch p.geom)
    {n : Nat} (hframe : frame p s.pal16 s.pair s.mem = some (emitPicture p w f n 0 s.mem)) :
    ∃ t, engineTurn s = .next t ∧ t = { s with mem := t.mem, inflight := .none } ∧
      ∀ y x, y < n → x < 2 * w → destPixel t.mem p y x = f y x :=
  ⟨_, (Laws.engineTurn_scale hp).trans (Laws.completeScale_of_some hframe), rfl,
    fun y _ hy hx => memPixel_emitPicture hw y.zero_le (by omega) hx⟩

/-! ## The NATIVE route (R204, R205) -/

/-- Every geometry has room for a NATIVE line (R203). -/
theorem four_mul_160_le_destPitch (g : Geometry) : 4 * 160 ≤ destPitch g := by cases g <;> decide

/-- If each of the 240 source lines is a row of the picture, the NATIVE route emits that picture. -/
theorem nativeLines_eq_emitPicture (hpair : p.fmt = .indexed8 → PairMatches pal16 pair)
    (hap : (srcRegion p).meets (destRegion p) = false) {n l : Nat} (hl : l + n ≤ 240)
    (hlines : ∀ y < 240, srcLine p pal16 m y = some (rowWords 160 (f y))) :
    nativeLines p pair n l m = some (emitPicture p 160 f n l m) := by
  induction n generalizing l m with
  | zero => rfl
  | succ n ih =>
    have hline := hlines l (by omega)
    have hy : l < destHeight p.geom := by cases p.geom <;> simp only [destHeight] <;> omega
    have hlen : 4 * (rowWords 160 (f l)).length ≤ destPitch p.geom := by
      rw [length_rowWords]
      exact four_mul_160_le_destPitch p.geom
    rw [nativeLines, nativeLine_eq_srcLine hpair, hline]
    refine ih (by omega) fun y hy' => ?_
    rw [srcLine_emitLine hap hy hlen m hy']
    exact hlines y hy'

/-- A NATIVE frame with legal indices leaves the source's picture, with everything but memory and INFLIGHT
kept. -/
theorem engineTurn_native (hp : s.inflight = .scale p) (hr : p.route = .native)
    (hap : (srcRegion p).meets (destRegion p) = false)
    (hpair : p.fmt = .indexed8 → PairMatches s.pal16 s.pair)
    (hlegal : ∀ y < 240, LineIndicesLegal s p y) :
    ∃ t, engineTurn s = .next t ∧ t = { s with mem := t.mem, inflight := .none } ∧
      ∀ y x, y < 240 → x < 320 → destPixel t.mem p y x = sourcePixel s p y x := by
  have hframe : frame p s.pal16 s.pair s.mem =
      some (emitPicture p 160 (sourcePixel s p) 240 0 s.mem) := by
    rw [ScaleMemory.frame_native hr]
    exact nativeLines_eq_emitPicture hpair hap le_rfl fun y hy => srcLine_eq_rowWords (hlegal y hy)
  exact engineTurn_of_emitPicture hp (four_mul_160_le_destPitch p.geom) hframe

/-- Settles O34: PACKED16 reads no index, so every line is legal. -/
theorem nativePackedIsTheIdentity : Obligations.NativePackedIsTheIdentity := by
  intro s p hp hr hf hap
  have hne : p.fmt ≠ .indexed8 := by rw [hf]; decide
  exact engineTurn_native hp hr hap (fun h => absurd h hne) fun y _ h => absurd h hne

/-- Settles O35: a legal index names a defined entry, which is the source pixel. -/
theorem nativeIndexedShowsThePalette : Obligations.NativeIndexedShowsThePalette := by
  intro s p hp hr hf hap hpair hlegal
  obtain ⟨t, hturn, hkept, hpixel⟩ := engineTurn_native hp hr hap (fun _ => hpair) hlegal
  refine ⟨t, hturn, hkept, fun y x hy hx => ?_⟩
  obtain ⟨-, hsome⟩ := hlegal y hy hf x hx
  rw [hpixel y x hy hx]
  obtain ⟨c, hc⟩ := Option.isSome_iff_exists.1 hsome
  simp only [sourcePixel, hf, hc, Option.getD_some]

/-! ## The scaled routes (R206) -/

theorem vinc_le_of_vcfgLegal (hv : vcfgLegal p = true) : p.vinc.toNat ≤ destHeight p.geom := by
  simp only [vcfgLegal, Bool.and_eq_true, decide_eq_true_eq] at hv
  obtain ⟨⟨⟨-, hle⟩, -⟩, -⟩ := hv
  exact hle

/-- If a row of the picture is made for each destination line, a scaled route emits that picture: the
lines emitted so far change nothing of what is still to be read. -/
theorem scaledLines_eq_emitPicture (hap : (srcRegion p).meets (destRegion p) = false)
    (hv : vcfgLegal p = true) (hw : 4 * w ≤ destPitch p.geom) {n l : Nat}
    (hl : l + n ≤ destHeight p.geom)
    (hlines : ∀ y < destHeight p.geom, ∃ ws,
      vLine p pal16 m ((vStep p)^[y] vStart) = some ws ∧ scaleLine p.route ws = rowWords w (f y)) :
    scaledLines p pal16 n ((vStep p)^[l] vStart) m = some (emitPicture p w f n l m) := by
  have hclosed := iterate_vStep (vinc_le_of_vcfgLegal hv)
  induction n generalizing l m with
  | zero => rfl
  | succ n ih =>
    obtain ⟨ws, hws, hrow⟩ := hlines l (by omega)
    have hline : ((vStep p)^[l] vStart).y = l := by rw [hclosed]
    have hlen : 4 * (rowWords w (f l)).length ≤ destPitch p.geom := by rwa [length_rowWords]
    simp only [scaledLines, hws, hrow, hline, ← Function.iterate_succ_apply' (vStep p)]
    refine ih (by omega) fun y hy => ?_
    have hread : p.topskip.toNat + ((vStep p)^[y] vStart).dh + 1 < 240 := by
      rw [hclosed]
      exact firstLine_lt_of_vcfgLegal hv hy
    rw [vLine_emitLine hap (by omega) hlen m hread]
    exact hlines y hy

/-- Settles O37: the vertical stage makes the closed form's row of each destination line, and the line
function of the route stretches it. -/
theorem scaledFrameIsTheClosedForm : Obligations.ScaledFrameIsTheClosedForm := by
  intro s p hp hg hr hv hap hlegal
  have hw : 4 * (destWidth p.geom / 2) ≤ destPitch p.geom := by cases p.geom <;> decide
  have hwidth : destWidth p.geom = 2 * (destWidth p.geom / 2) := by cases p.geom <;> decide
  have hframe : frame p s.pal16 s.pair s.mem =
      some (emitPicture p (destWidth p.geom / 2) (scaledPixel s p) (destHeight p.geom) 0 s.mem) := by
    rw [frame_scaled hg hr]
    refine scaledLines_eq_emitPicture (l := 0) hap hv hw (Nat.zero_add _).le fun y hy => ?_
    obtain ⟨hfirst, hsecond⟩ := hlegal y hy
    exact ⟨_, vLine_eq_rowWords (vinc_le_of_vcfgLegal hv) hfirst hsecond,
      scaleLine_verticalPixel hg hr y⟩
  rw [hwidth]
  exact engineTurn_of_emitPicture hp hw hframe

end Sys2Proof.Proofs.Packer
end

section
/-! PROOFS. The register accesses (44_commands.md R220 to R229): what a write does while BUSY is 1 and while
it is 0, and what a read answers. -/

namespace Sys2Proof.Proofs.RegisterAccesses

open Sys2Proof.Machine Encoding

variable {s s' : State}

/-! ## The guard of a write (R222) -/

theorem writeWhenIdle_of_busy (hb : s.busy = true) :
    writeWhenIdle s s' = .next (recordError .writeBusy s) := if_pos hb

theorem writeWhenIdle_of_idle (hb : s.busy = false) : writeWhenIdle s s' = .next s' :=
  if_neg (Bool.eq_false_iff.1 hb)

/-- A write to CMD is refused before its word is looked at (R230). -/
theorem execWrCmd_of_busy (hb : s.busy = true) (c : Word) :
    execWrCmd c s = .next (recordError .cmdBusy s) := if_pos hb

/-- Settles O11: five registers have the guard, CMD its own, and STATUS and unmapped offsets none. -/
theorem registerWriteWhileBusyIsRefused : Obligations.RegisterWriteWhileBusyIsRefused := by
  intro s v
  refine ⟨fun hb => ?_, rfl, fun _ _ => rfl⟩
  have guarded (s' : State) : writeWhenIdle s s' = .next (recordError .writeBusy s) :=
    writeWhenIdle_of_busy hb
  exact ⟨guarded _, guarded _, guarded _, guarded _, guarded _, execWrCmd_of_busy hb v⟩

/-! ## Reads and ignored accesses (R220, R221, R223, R225) -/

theorem palAddrWord_eq_append (s : State) : palAddrWord s = 0#24 ++ s.palAddr :=
  BitVec.setWidth_eq_append (by decide)

/-- Settles O14: each read is `answer` of its word. -/
theorem plainReadsAnswer : Obligations.PlainReadsAnswer := by
  intro s
  refine ⟨rfl, rfl, rfl, rfl, ?_⟩
  rw [← palAddrWord_eq_append]
  rfl

/-- Settles O22: these accesses do not look at the state. -/
theorem statusAndUnmappedAccesses : Obligations.StatusAndUnmappedAccesses :=
  fun _ _ _ _ => ⟨rfl, rfl, rfl⟩

/-! ## RD STATUS (R224) -/

/-- The ten fields of STATUS (10_state.md R34). -/
theorem statusFields (v : Word) :
    v.extractLsb' 21 11 ++ v.extractLsb' 12 9 ++ v.extractLsb' 11 1 ++ v.extractLsb' 10 1 ++
      v.extractLsb' 8 2 ++ v.extractLsb' 4 4 ++ v.extractLsb' 3 1 ++ v.extractLsb' 2 1 ++
      v.extractLsb' 1 1 ++ v.extractLsb' 0 1 = v := by
  simp only [BitVec.extractLsb'_append_extractLsb'_eq_extractLsb']
  exact BitVec.extractLsb'_eq_self

theorem setWidth_append_eq_or {v w n : Nat} (x : BitVec v) (y : BitVec w) :
    (x ++ y).setWidth n = y.setWidth n ||| x.setWidth n <<< w := by
  apply BitVec.eq_of_getLsbD_eq
  intro i hi
  simp only [BitVec.getLsbD_setWidth, BitVec.getLsbD_append, BitVec.getLsbD_or,
    BitVec.getLsbD_shiftLeft]
  by_cases h : i < w
  · simp [h]
  · have hn : i - w < n := by omega
    simp [h, hi, hn, BitVec.getLsbD_of_ge y i (Nat.le_of_not_lt h)]

/-- The word RD STATUS answers is the fields side by side, most significant first: each lies where the
widths below it put it. -/
theorem statusWord_eq_append (s : State) :
    statusWord s = (0#11 ++ s.palN ++ s.actFmt.bit ++ BitVec.ofBool s.actScaleEn ++
      (if s.geomValid = true then geometryCode s.actGeom else 0#2) ++ s.errCode.bits ++
      BitVec.ofBool s.err ++ BitVec.ofBool s.geomValid ++ BitVec.ofBool s.palValid ++
      BitVec.ofBool s.busy).setWidth 32 := by
  have hgeom : (if s.geomValid = true then (geometryCode s.actGeom).setWidth 32 else 0#32) =
      (if s.geomValid = true then geometryCode s.actGeom else 0#2).setWidth 32 := by
    split
    · rfl
    · rfl
  simp only [setWidth_append_eq_or, BitVec.shiftLeft_or_distrib, ← BitVec.shiftLeft_add,
    BitVec.setWidth_zero, BitVec.zero_shiftLeft, BitVec.or_zero]
  simp only [statusWord, bitWord, hgeom, BitVec.or_assoc, Nat.reduceAdd]

/-- A field of one bit, as a bit of its word. -/
theorem getLsbD_of_extractLsb'_one {v : Word} {i : Nat} {b : BitVec 1}
    (h : v.extractLsb' i 1 = b) : v.getLsbD i = b.getLsbD 0 := by
  simp [← h]

theorem getLsbD_of_extractLsb'_ofBool {v : Word} {i : Nat} {b : Bool}
    (h : v.extractLsb' i 1 = BitVec.ofBool b) : v.getLsbD i = b :=
  (getLsbD_of_extractLsb'_one h).trans (by simp)

theorem bit_getLsbD_zero (f : Format) : f.bit.getLsbD 0 = true ↔ f = .packed16 := by
  cases f with
  | indexed8 => decide
  | packed16 => decide

/-- Settles O16: the fields of the answer are those that the state puts side by side. -/
theorem statusReadsItsFields : Obligations.StatusReadsItsFields := by
  intro s
  have h := (statusFields (statusWord s)).trans ((statusWord_eq_append s).trans (BitVec.setWidth_eq _))
  simp only [append_eq_append_iff] at h
  obtain ⟨⟨⟨⟨⟨⟨⟨⟨⟨hzero, hpalN⟩, hfmt⟩, hen⟩, hgeom⟩, hcode⟩, herr⟩, hgv⟩, hpv⟩, _⟩ := h
  refine ⟨statusWord s, rfl, ?_, getLsbD_of_extractLsb'_ofBool hpv, getLsbD_of_extractLsb'_ofBool hgv,
    getLsbD_of_extractLsb'_ofBool herr, hcode, hgeom, getLsbD_of_extractLsb'_ofBool hen, ?_, hpalN,
    hzero⟩
  · rw [Laws.statusWord_bit0]
    exact Laws.busy_eq_true
  · rw [getLsbD_of_extractLsb'_one hfmt]
    exact bit_getLsbD_zero s.actFmt

/-! ## The writes (R226 to R229) -/

/-- Settles O18: both writes are the guard around one update. -/
theorem baseRegisterWrites : Obligations.BaseRegisterWrites := fun _ _ =>
  ⟨fun hb => ⟨writeWhenIdle_of_busy hb, writeWhenIdle_of_busy hb⟩,
    fun hb => ⟨writeWhenIdle_of_idle hb, writeWhenIdle_of_idle hb⟩⟩

/-- Settles O20: the write is the guard around one update. -/
theorem palAddrWrite : Obligations.PalAddrWrite := fun _ _ =>
  ⟨fun hb => writeWhenIdle_of_busy hb, fun hb => writeWhenIdle_of_idle hb⟩

/-- The fields of a word in the places of VCFG (10_state.md R40). -/
theorem vcfgFields (v : Word) :
    v.extractLsb' 31 1 ++ v.extractLsb' 28 3 ++ v.extractLsb' 25 3 ++ v.extractLsb' 16 9 ++
      v.extractLsb' 8 8 ++ v.extractLsb' 0 8 = v := by
  simp only [BitVec.extractLsb'_append_extractLsb'_eq_extractLsb']
  exact BitVec.extractLsb'_eq_self

/-- The mask of the three stored fields is all ones on them and zeros between them. -/
theorem and_vcfgMask (v : Word) : v &&& 0x71FF00FF#32 =
    0#1 ++ v.extractLsb' 28 3 ++ 0#3 ++ v.extractLsb' 16 9 ++ 0#8 ++ v.extractLsb' 0 8 := by
  have fields (top : BitVec 1) (thr gap : BitVec 3) (vinc : BitVec 9) (low topskip : BitVec 8) :
      (top ++ thr ++ gap ++ vinc ++ low ++ topskip) &&&
          (0#1 ++ BitVec.allOnes 3 ++ 0#3 ++ BitVec.allOnes 9 ++ 0#8 ++ BitVec.allOnes 8) =
        0#1 ++ thr ++ 0#3 ++ vinc ++ 0#8 ++ topskip := by
    simp only [BitVec.and_append, BitVec.and_allOnes, BitVec.and_zero]
  have h := fields (v.extractLsb' 31 1) (v.extractLsb' 28 3) (v.extractLsb' 25 3)
    (v.extractLsb' 16 9) (v.extractLsb' 8 8) (v.extractLsb' 0 8)
  rwa [vcfgFields] at h

/-- Settles O19: a read puts the stored fields back in their places, which is the mask on the value. -/
theorem vcfgWriteStoresThreeFields : Obligations.VcfgWriteStoresThreeFields := by
  intro s v
  refine ⟨fun hb => writeWhenIdle_of_busy hb, fun hb => ⟨_, writeWhenIdle_of_idle hb, rfl, ?_⟩⟩
  rw [and_vcfgMask]
  exact congrArg (answer · _) (StateRules.vcfgWord_eq_append _)

/-- Settles O21: what the staging palette reads after the write is the law of `tablePut`. -/
theorem palDataWrite : Obligations.PalDataWrite := by
  intro s v
  refine ⟨fun hb => writeWhenIdle_of_busy hb, fun hb => ⟨_, writeWhenIdle_of_idle hb, rfl, ?_, ?_, ?_⟩⟩
  · exact (Laws.tableGet_tablePut _ _ _ _).trans (if_pos rfl)
  · intro i hi
    exact (Laws.tableGet_tablePut _ _ _ _).trans (if_neg hi.symm)
  · exact BitVec.toNat_add s.palAddr 1#8

end Sys2Proof.Proofs.RegisterAccesses
end

section
/-! PROOFS. The commands at acceptance (44_commands.md R230, R236 to R253), as command statements and as
the data of WR CMD. -/

namespace Sys2Proof.Proofs.AcceptedCommands

open Sys2Proof.Machine Encoding RefusedCommands BusMemory ScaleMemory

variable {s : State}

/-! ## WR CMD and the first checks of a command (R230) -/

/-- Settles O6: the masks of R109 are the reserved fields of R102 to R106. -/
theorem wrCmdIsTheCommandOfItsWord : Obligations.WrCmdIsTheCommandOfItsWord :=
  fun s c => (exec_decodeCommand s c).symm

/-- Settles O10: WR CMD tests BUSY first, and the command statement is WR CMD of its word. -/
theorem commandWhileBusyIsRefused : Obligations.CommandWhileBusyIsRefused := by
  intro s c hb
  have hwrite : exec (.wrCmd c) s = .next (recordError .cmdBusy s) :=
    RegisterAccesses.execWrCmd_of_busy hb c
  exact ⟨hwrite, (exec_decodeCommand s c).trans hwrite⟩

theorem commandWhenIdle_of_idle {accept : State → Result} (hb : s.busy = false) :
    commandWhenIdle false accept s = accept s := by
  simp [commandWhenIdle, hb]

/-! ## SETPAL, SETFMT, CLRERR (R236, R239, R253) -/

theorem exec_setpal_of_legal {n : BitVec 9} (hb : s.busy = false) (h1 : 1 ≤ n.toNat)
    (h256 : n.toNat ≤ 256) :
    exec (.setpal n 0#19) s = .next { s with palValid := false, inflight := .palette n } := by
  have hn : ¬ (n.toNat < 1 ∨ 256 < n.toNat) := by omega
  exact (commandWhenIdle_of_idle hb).trans (if_neg hn)

theorem exec_setfmt (hb : s.busy = false) (f : Format) :
    exec (.setfmt f 0#27) s = .next { s with actFmt := f } := commandWhenIdle_of_idle hb

theorem exec_clrerr (hb : s.busy = false) :
    exec (.clrerr 0#28) s = .next { s with err := false, errCode := .none } :=
  commandWhenIdle_of_idle hb

/-- Settles O23: a COUNT of 0 or above 256 is the one test of SETPAL. -/
theorem setpalAtAcceptance : Obligations.SetpalAtAcceptance := by
  intro s n hb
  refine ⟨fun hn => exec_setpal_of_legal hb hn.1 hn.2, fun hn => ?_⟩
  have hbad : n.toNat < 1 ∨ 256 < n.toNat := hn.imp_left Nat.lt_one_iff.2
  exact (commandWhenIdle_of_idle hb).trans (if_pos hbad)

/-- Settles O24: SETFMT has no check of its own. -/
theorem setfmtSelectsTheFormat : Obligations.SetfmtSelectsTheFormat := fun _ f hb => exec_setfmt hb f

/-- Settles O29: CLRERR has no check of its own. -/
theorem clrerrClearsTheRecord : Obligations.ClrerrClearsTheRecord := fun _ hb => exec_clrerr hb

/-! ## SELGEOM (R241) -/

theorem geometryOfCode_eq_none_iff : ∀ c : BitVec 2, geometryOfCode c = none ↔ c = 3#2 := by decide

theorem geometryOfCode_geometryCode (g : Geometry) : geometryOfCode (geometryCode g) = some g := by
  cases g with
  | native => rfl
  | g400 => rfl
  | g480 => rfl

/-- SUPP has no bit for code 3, so a code names a supported geometry where its bit of SUPP is 1. -/
theorem any_supported_geometryOfCode : ∀ (supp : BitVec 3) (c : BitVec 2),
    (geometryOfCode c).any (supported supp) = supp.getLsbD c.toNat := by decide

/-- The search of SELGEOM over the geometries its slots name is a search for a slot whose bit is 1. -/
theorem find?_supported (supp : BitVec 3) (slots : List (BitVec 2)) :
    ((slots.map geometryOfCode).filterMap id).find? (supported supp) =
      (slots.find? fun c => supp.getLsbD c.toNat).bind geometryOfCode := by
  rw [List.filterMap_map, Function.id_comp, List.find?_filterMap]
  simp only [any_supported_geometryOfCode]

section Selgeom

variable {en : Bool} {n p0 p1 p2 : BitVec 2} {supp : BitVec 3} {slot : Nat → BitVec 2}

theorem none_notMem_geometries {slots : List (BitVec 2)} (h : 3#2 ∉ slots) :
    none ∉ slots.map geometryOfCode := by
  intro hm
  obtain ⟨c, hc, hnone⟩ := List.mem_map.1 hm
  exact h ((geometryOfCode_eq_none_iff c).1 hnone ▸ hc)

theorem acceptSelgeom_of_find?_some {g : Geometry} (h3 : 3#2 ∉ usedSlots n p0 p1 p2)
    (h : (usedSlots n p0 p1 p2).find? (fun c => supp.getLsbD c.toNat) = some (geometryCode g)) :
    acceptSelgeom en n p0 p1 p2 supp s =
      .next { s with actGeom := g, actScaleEn := en, geomValid := true } := by
  simp only [acceptSelgeom, if_neg (none_notMem_geometries h3), find?_supported, h,
    Option.bind_some, geometryOfCode_geometryCode]

theorem acceptSelgeom_of_find?_none (h3 : 3#2 ∉ usedSlots n p0 p1 p2)
    (h : (usedSlots n p0 p1 p2).find? (fun c => supp.getLsbD c.toNat) = none) :
    acceptSelgeom en n p0 p1 p2 supp s = raiseError .noGeometry s := by
  simp only [acceptSelgeom, if_neg (none_notMem_geometries h3), find?_supported, h,
    Option.bind_none]

/-- The used slots are those with a number below NPREF, which is at most 3 (30_encoding.md R104). -/
theorem usedSlots_eq_map_range (n : BitVec 2) (slot : Nat → BitVec 2) :
    usedSlots n (slot 0) (slot 1) (slot 2) = (List.range n.toNat).map slot := by
  have hn : n.toNat ≤ 3 := Nat.le_of_lt_succ n.isLt
  calc usedSlots n (slot 0) (slot 1) (slot 2)
      = ((List.range 3).map slot).take n.toNat := rfl
    _ = (List.range n.toNat).map slot := by
      rw [← List.map_take, List.take_range, min_eq_left hn]

theorem code3_notMem_usedSlots (h : ∀ k, k < n.toNat → slot k ≠ 3#2) :
    3#2 ∉ usedSlots n (slot 0) (slot 1) (slot 2) := by
  rw [usedSlots_eq_map_range]
  intro hm
  obtain ⟨k, hk, hcode⟩ := List.mem_map.1 hm
  exact h k (List.mem_range.1 hk) hcode

theorem exec_selgeom_of_first {k : Nat} {g : Geometry} (hb : s.busy = false)
    (h3 : ∀ k, k < n.toNat → slot k ≠ 3#2) (hk : k < n.toNat) (hg : slot k = geometryCode g)
    (hsupp : supp.getLsbD (slot k).toNat = true)
    (hfirst : ∀ j, j < k → supp.getLsbD (slot j).toNat = false) :
    exec (.selgeom en n (slot 0) (slot 1) (slot 2) supp 0#1 0#2 0#13) s =
      .next { s with actGeom := g, actScaleEn := en, geomValid := true } := by
  have hfind : (List.range n.toNat).find? ((fun c => supp.getLsbD c.toNat) ∘ slot) = some k :=
    List.find?_range_eq_some.2 ⟨hsupp, List.mem_range.2 hk, fun j hj => by simp [hfirst j hj]⟩
  refine (commandWhenIdle_of_idle hb).trans
    (acceptSelgeom_of_find?_some (code3_notMem_usedSlots h3) ?_)
  rw [usedSlots_eq_map_range, List.find?_map, hfind, Option.map_some, hg]

theorem exec_selgeom_of_none (hb : s.busy = false) (h3 : ∀ k, k < n.toNat → slot k ≠ 3#2)
    (hnone : ∀ k, k < n.toNat → supp.getLsbD (slot k).toNat = false) :
    exec (.selgeom en n (slot 0) (slot 1) (slot 2) supp 0#1 0#2 0#13) s =
      .next (recordError .noGeometry s) := by
  refine (commandWhenIdle_of_idle hb).trans
    (acceptSelgeom_of_find?_none (code3_notMem_usedSlots h3) ?_)
  rw [usedSlots_eq_map_range, List.find?_map, Option.map_eq_none_iff, List.find?_eq_none]
  intro k hk
  exact Bool.eq_false_iff.1 (hnone k (List.mem_range.1 hk))

theorem exec_selgeom_of_code3 {k : Nat} (hb : s.busy = false) (hk : k < n.toNat)
    (hcode : slot k = 3#2) :
    exec (.selgeom en n (slot 0) (slot 1) (slot 2) supp 0#1 0#2 0#13) s =
      .next (recordError .reserved s) := by
  refine commandWhenIdle_of_reserved hb (.inr (acceptSelgeom_of_code3 ?_))
  rw [usedSlots_eq_map_range, ← hcode]
  exact List.mem_map_of_mem (List.mem_range.2 hk)

end Selgeom

/-- Settles O25: a code 3 in a used slot, a first slot that SUPP reports, or none. -/
theorem selgeomTakesTheFirstSupported : Obligations.SelgeomTakesTheFirstSupported := by
  rintro s en n _ _ _ supp slot hb rfl rfl rfl
  refine ⟨fun ⟨k, hk, hcode⟩ => exec_selgeom_of_code3 hb hk hcode, fun h3 => ⟨?_, ?_⟩⟩
  · intro k g hk hg hsupp hfirst
    exact exec_selgeom_of_first hb h3 hk hg hsupp hfirst
  · intro hnone
    exact exec_selgeom_of_none hb h3 hnone

/-! ## SCALE (R248) -/

/-- The alignment test of both bases, in numbers. -/
theorem misaligned_iff : (s.srcBase.extractLsb' 0 2 ≠ 0#2 ∨ s.dstBase.extractLsb' 0 2 ≠ 0#2) ↔
    s.srcBase.toNat % 4 ≠ 0 ∨ s.dstBase.toNat % 4 ≠ 0 := by
  simp only [ne_eq, lowBits_eq_zero_iff]

theorem not_misaligned (ha : s.srcBase.toNat % 4 = 0 ∧ s.dstBase.toNat % 4 = 0) :
    ¬ (s.srcBase.extractLsb' 0 2 ≠ 0#2 ∨ s.dstBase.extractLsb' 0 2 ≠ 0#2) := by
  rw [misaligned_iff]
  omega

theorem selectRoute_scaled {g : Geometry} (hg : g ≠ .native) : selectRoute g true ≠ .native := by
  cases g with
  | native => exact absurd rfl hg
  | g400 => decide
  | g480 => decide

/-- The four tests of `VcfgCheck`, failed (42_vertical.md R181). -/
theorem vcfgLegal_eq_false_iff {p : FrameRecord} : vcfgLegal p = false ↔
    p.vinc.toNat < 1 ∨ destHeight p.geom < p.vinc.toNat ∨ 4 < p.thr.toNat ∨
      239 < p.topskip.toNat + (destHeight p.geom - 1) * p.vinc.toNat / destHeight p.geom + 1 := by
  simp only [vcfgLegal, Bool.and_eq_false_iff, decide_eq_false_iff_not, not_le, or_assoc]

/-- Where both regions end inside memory and no two of the three share a byte, no contract is broken
(20_memory.md R82). -/
theorem regionCheck_of_ready (h : ScaleReady s) : regionCheck (latchedRecord s) s = none := by
  have inside {r : Region} (hr : r.base + r.bytes ≤ 2 ^ 32) : ¬ r.wraps = true := by
    rw [Laws.wraps_iff]
    exact Nat.not_lt.2 hr
  have clear {r q : Region} (hrq : Apart r.base r.bytes q.base q.bytes) : ¬ r.meets q = true :=
    Bool.eq_false_iff.1 (meets_eq_false_of_apart hrq)
  obtain ⟨hsrcTop, hdstTop⟩ := h.top
  obtain ⟨hsrcWindow, hdstWindow⟩ := h.window
  exact (if_neg (not_or.2 ⟨inside hsrcTop, inside hdstTop⟩)).trans
    (if_neg (not_or.2 ⟨clear h.apart, not_or.2 ⟨clear hsrcWindow, clear hdstWindow⟩⟩))

/-- With every check passed SCALE latches its record. -/
theorem exec_scale_of_ready (hb : s.busy = false) (h : ScaleReady s) :
    exec (.scale 0#28) s = .next { s with inflight := .scale (latchedRecord s) } := by
  have hpal : ¬ (s.actFmt = .indexed8 ∧ s.palValid = false) :=
    fun ⟨hf, hn⟩ => Bool.eq_false_iff.1 hn (h.palette hf)
  have hvcfg : ¬ ((latchedRecord s).route ≠ .native ∧ vcfgLegal (latchedRecord s) = false) :=
    fun ⟨hroute, hn⟩ => Bool.eq_false_iff.1 hn (vcfgLegal_of_passes h.vcfg hroute)
  rw [exec_scale_of_idle hb, acceptScale, if_neg (ne_false_of_eq_true h.geometry), if_neg hpal,
    if_neg (not_misaligned h.aligned), if_neg hvcfg, regionCheck_of_ready h]

/-- Settles O26: the premises are `ScaleReady`, and the record named field by field is the latched one. -/
theorem scaleIsAccepted : Obligations.ScaleIsAccepted := by
  rintro s hb hg hp hs hd hv _ _ rfl rfl hsrcTop hdstTop hapart hsrcWindow hdstWindow
    ⟨_, _, _, _, _, _, _, _, _⟩ rfl rfl rfl rfl rfl rfl rfl rfl rfl
  exact exec_scale_of_ready hb
    ⟨hg, hp, ⟨hs, hd⟩, hv, ⟨hsrcTop, hdstTop⟩, hapart, ⟨hsrcWindow, hdstWindow⟩⟩

/-- Settles O27: the checks stand in this order in `acceptScale`. -/
theorem scaleRefusalsInOrder : Obligations.ScaleRefusalsInOrder := by
  intro s hb
  rw [exec_scale_of_idle hb, acceptScale]
  refine ⟨fun hg => if_pos hg, fun hg => ?_⟩
  rw [if_neg (ne_false_of_eq_true hg)]
  refine ⟨fun hpal => if_pos hpal, fun hpal => ?_⟩
  rw [if_neg hpal]
  refine ⟨fun ha => if_pos (misaligned_iff.2 ha), fun ha hen hgeom hbad => ?_⟩
  have hroute : (latchedRecord s).route ≠ .native := by
    rw [Laws.latchedRecord_route, hen]
    exact selectRoute_scaled hgeom
  rw [if_neg (not_misaligned ha)]
  exact if_pos ⟨hroute, vcfgLegal_eq_false_iff.2 hbad⟩

/-! ## WR CMD of a legal word (R230) -/

/-- Settles O30: each word decodes to its command, and WR CMD of it is that command. -/
theorem wrCmdIssuesTheCommand : Obligations.WrCmdIssuesTheCommand := by
  intro s hb
  have issues {c : Word} {i : Instr} {r : Result} (hd : decodeCommand c = i) (hi : exec i s = r) :
      exec (.wrCmd c) s = r := by
    rw [← exec_decodeCommand, hd, hi]
  refine ⟨fun n h1 h256 => issues (decodeCommand_setpal n 0#19) (exec_setpal_of_legal hb h1 h256),
    fun b => ?_, ?_, ?_, issues (decodeCommand_clrerr 0#28) (exec_clrerr hb)⟩
  · have hd := decodeCommand_setfmt (Format.ofBit b) 0#27
    rw [bit_ofBit] at hd
    exact issues hd (exec_setfmt hb _)
  · rintro en n _ _ _ supp slot k g rfl rfl rfl h3 hk hg hsupp hfirst
    exact issues (decodeCommand_selgeom en n _ _ _ supp 0#1 0#2 0#13)
      (exec_selgeom_of_first hb h3 hk hg hsupp hfirst)
  · rintro _ rfl hready
    exact issues (decodeCommand_scale 0#28) (exec_scale_of_ready hb hready)

end Sys2Proof.Proofs.AcceptedCommands
end

section
/-! PROOFS. Which meaning a turn has: the engine's turn (44_commands.md R258, R259), and a turn with an
access to the register window, a register's or of another shape (44_commands.md R219). -/

namespace Sys2Proof.Proofs.Turns

open Sys2Proof.Machine

variable {s : State}

/-- Settles O5: taking the engine's turn off the list is what a step does before it performs it. -/
theorem stepRunsTheEngine : Obligations.StepRunsTheEngine :=
  fun _ hf => ⟨Laws.step_nil hf, fun _ hi => Laws.step_cons hf hi⟩

/-- For an access that touches the window, the test of `decodeAccess` is the shape of R219: a 32-bit
access at a multiple of 4 from its base. -/
theorem registerShape_iff {base : Word} {a : BusAccess} (h : touchesWindow base a = true) :
    (a.size = .word ∧ base.toNat ≤ a.addr.toNat ∧ (a.addr - base).extractLsb' 0 2 = 0#2) ↔
      a.size = .word ∧ ∃ k, k < 16 ∧ a.addr.toNat = base.toNat + 4 * k := by
  obtain ⟨htop, _⟩ := (Laws.touchesWindow_iff base a).1 h
  have hsub (hle : base.toNat ≤ a.addr.toNat) :
      (a.addr - base).toNat = a.addr.toNat - base.toNat :=
    BitVec.toNat_sub_of_le (BitVec.le_def.2 hle)
  rw [ScaleMemory.lowBits_eq_zero_iff]
  refine and_congr_right fun _ => ⟨fun ⟨hle, hlow⟩ => ?_, fun ⟨k, _, haddr⟩ => ?_⟩
  · rw [hsub hle] at hlow
    exact ⟨(a.addr.toNat - base.toNat) / 4, by omega, by omega⟩
  · have hle : base.toNat ≤ a.addr.toNat := by omega
    rw [hsub hle]
    omega

/-- A turn with an access to the window of another shape is the contract fault REG_ACCESS. -/
theorem step_of_accessShape {a : BusAccess} {rest : List HostOp} (hf : s.faulted = none)
    (hi : s.inputs = .port (.access a) :: rest)
    (hd : decodeAccess s.regBase a = .error .accessShape) :
    step s = faultContract .regAccess (s.withInputs rest) := by
  have hd' : decodeAccess (s.withInputs rest).regBase a = .error .accessShape := by
    rwa [Laws.withInputs_regBase]
  rw [Laws.step_cons hf hi]
  simp only [perform, runPort, hd']

/-- Settles O7: a shared byte is what the decoder calls touching the window, and there the shape alone
decides between a register and the fault. -/
theorem windowAccessShape : Obligations.WindowAccessShape := by
  rintro s a rest hf hi ⟨x, hax, hxa, hwx, hxw⟩
  have htouch : touchesWindow s.regBase a = true :=
    (Laws.touchesWindow_iff _ _).2 ⟨by omega, by omega⟩
  rw [← registerShape_iff htouch]
  refine ⟨fun hshape => ⟨_, (if_pos htouch).trans (if_pos hshape)⟩, fun hshape => ?_⟩
  exact step_of_accessShape hf hi ((if_pos htouch).trans (if_neg hshape))

end Sys2Proof.Proofs.Turns
end

section
/-! PROOFS. Errors and contract faults (60_exceptions.md): the error record and its numbers, and everything
a contract fault can leave of the state it stops. -/

namespace Sys2Proof.Proofs.ContractFaults

open Sys2Proof.Machine

variable {s t : State} {k : ContractKind} {f : Fault}

/-! ## The error record (60_exceptions.md R261, R262) -/

/-- Settles O8: whether ERR is 1 is the one test of the error record. -/
theorem errorRecordKeepsTheFirst : Obligations.ErrorRecordKeepsTheFirst := fun _ code =>
  ⟨fun h => congrArg Host.Outcome.next (Laws.recordError_of_err h code),
    fun h => congrArg Host.Outcome.next (Laws.recordError_of_no_err h code)⟩

theorem errorCode_bits_le (c : ErrorCode) : c.bits.toNat ≤ 10 := by
  cases c <;> decide

/-- Settles O17: the eleven rows of the table. -/
theorem errorCodeNumbers : Obligations.ErrorCodeNumbers :=
  ⟨rfl, rfl, rfl, rfl, rfl, rfl, rfl, rfl, rfl, rfl, rfl, errorCode_bits_le⟩

/-! ## Of the operations on the port only the acceptance of a SCALE can fault -/

theorem next_ne_fault : (.next s : Result) ≠ .fault f := nofun

theorem raiseError_ne_fault {c : ErrorCode} : raiseError c s ≠ .fault f := next_ne_fault

theorem answer_ne_fault {v : Word} : answer v s ≠ .fault f := next_ne_fault

theorem writeWhenIdle_ne_fault {s' : State} : writeWhenIdle s s' ≠ .fault f := by
  unfold writeWhenIdle
  split
  · exact raiseError_ne_fault
  · exact next_ne_fault

theorem acceptSetpal_ne_fault {n : BitVec 9} : acceptSetpal n s ≠ .fault f := by
  unfold acceptSetpal
  split
  · exact raiseError_ne_fault
  · exact next_ne_fault

theorem acceptSetfmt_ne_fault {m : Format} : acceptSetfmt m s ≠ .fault f := next_ne_fault

theorem acceptSelgeom_ne_fault {en : Bool} {n p0 p1 p2 : BitVec 2} {supp : BitVec 3} :
    acceptSelgeom en n p0 p1 p2 supp s ≠ .fault f := by
  unfold acceptSelgeom
  simp only
  split
  · exact raiseError_ne_fault
  split
  · exact next_ne_fault
  · exact raiseError_ne_fault

theorem acceptClrerr_ne_fault : acceptClrerr s ≠ .fault f := next_ne_fault

/-- The first checks of a command refuse and do not fault, so a command faults in its own effect only. -/
theorem commandWhenIdle_fault {r : Bool} {accept : State → Result}
    (h : commandWhenIdle r accept s = .fault f) : accept s = .fault f := by
  unfold commandWhenIdle at h
  split at h
  · exact absurd h raiseError_ne_fault
  split at h
  · exact absurd h raiseError_ne_fault
  · exact h

theorem execWrCmd_fault {c : Word} (h : execWrCmd c s = .fault f) : acceptScale s = .fault f := by
  unfold execWrCmd at h
  simp only at h
  split at h
  · exact absurd h raiseError_ne_fault
  split at h
  · exact absurd h raiseError_ne_fault
  split at h
  · exact absurd h raiseError_ne_fault
  split at h
  · exact absurd h acceptSetpal_ne_fault
  · exact absurd h acceptSetfmt_ne_fault
  · exact absurd h acceptSelgeom_ne_fault
  · exact h
  · exact absurd h acceptClrerr_ne_fault

theorem exec_fault {i : Instr} (h : exec i s = .fault f) : acceptScale s = .fault f := by
  cases i with
  | setpal n r => exact absurd (commandWhenIdle_fault h) acceptSetpal_ne_fault
  | setfmt m r => exact absurd (commandWhenIdle_fault h) acceptSetfmt_ne_fault
  | selgeom en n p0 p1 p2 supp r7 r14 r19 =>
    exact absurd (commandWhenIdle_fault h) acceptSelgeom_ne_fault
  | scale r => exact commandWhenIdle_fault h
  | clrerr r => exact absurd (commandWhenIdle_fault h) acceptClrerr_ne_fault
  | illegal op rest =>
    simp only [exec, execIllegal] at h
    split at h
    · exact absurd h raiseError_ne_fault
    · exact absurd h raiseError_ne_fault
  | wrCmd c => exact execWrCmd_fault h
  | wrStatus v => cases h
  | wrSrcBase v | wrDstBase v | wrVcfg v | wrPalAddr v | wrPalData v =>
    exact absurd h writeWhenIdle_ne_fault
  | rdCmd | rdStatus | rdSrcBase | rdDstBase | rdVcfg | rdPalAddr | rdPalData =>
    exact absurd h answer_ne_fault
  | rdWrUnmapped off a =>
    cases a with
    | read => exact absurd h answer_ne_fault
    | write v => cases h

/-! ## What a contract fault can leave of the state it stops (60_exceptions.md R270 to R272) -/

/-- Everything a turn that ends in a contract fault does to the state. -/
inductive FaultEffect (s : State) : ContractKind → State → Prop
  | marked (k : ContractKind) (hk : k ≠ .indexRange) : FaultEffect s k { s with faulted := some k }
  | badIndex (p : FrameRecord) (hp : s.inflight = .scale p) : FaultEffect s .indexRange
      { freeDestination p s with faulted := some .indexRange }

theorem FaultEffect.stopped_eq (h : FaultEffect s k t) :
    t = { s with mem := t.mem, freeIndex := t.freeIndex, faulted := some k } := by
  cases h with
  | marked => rfl
  | badIndex p _ => rfl

theorem FaultEffect.stopped_faulted (h : FaultEffect s k t) : t.faulted = some k :=
  congrArg State.faulted h.stopped_eq

theorem FaultEffect.mem_of_ne_indexRange (h : FaultEffect s k t) (hk : k ≠ .indexRange) :
    t.mem = s.mem ∧ t.freeIndex = s.freeIndex := by
  cases h with
  | marked => exact ⟨rfl, rfl⟩
  | badIndex p _ => exact absurd rfl hk

/-- No byte changes outside the destination region of a SCALE in flight. -/
theorem FaultEffect.read_of_outside (h : FaultEffect s k t) {a : Nat}
    (ha : ∀ p, s.inflight = .scale p →
      a < (destRegion p).base ∨ (destRegion p).base + (destRegion p).bytes ≤ a) :
    t.mem.read a = s.mem.read a := by
  cases h with
  | marked => rfl
  | badIndex p hp => exact Laws.freeDestination_read p s a (ha p hp)

theorem faultContract_effect {j : ContractKind} (hj : j ≠ .indexRange)
    (h : faultContract j s = .fault (.contract k t)) : FaultEffect s k t := by
  cases h
  exact .marked _ hj

theorem regionCheck_ne_indexRange (p : FrameRecord) : regionCheck p s ≠ some .indexRange := by
  unfold regionCheck
  split
  · decide
  split
  · decide
  · exact nofun

theorem acceptScale_effect (h : acceptScale s = .fault (.contract k t)) : FaultEffect s k t := by
  unfold acceptScale at h
  split at h
  · exact absurd h raiseError_ne_fault
  split at h
  · exact absurd h raiseError_ne_fault
  split at h
  · exact absurd h raiseError_ne_fault
  split at h
  · exact absurd h raiseError_ne_fault
  split at h
  · next j hj => exact faultContract_effect (fun he => regionCheck_ne_indexRange _ (he ▸ hj)) h
  · cases h

theorem hostMemory_effect {a : BusAccess} (h : hostMemory a s = .fault (.contract k t)) :
    FaultEffect s k t := by
  unfold hostMemory at h
  split at h
  · cases h
  split at h
  · exact faultContract_effect (by decide) h
  split at h
  · exact absurd h answer_ne_fault
  · cases h

theorem runPort_effect {p : PortInput} (h : runPort p s = .fault (.contract k t)) :
    FaultEffect s k t := by
  unfold runPort at h
  split at h
  · exact acceptScale_effect (exec_fault h)
  split at h
  · exact acceptScale_effect (exec_fault h)
  · exact faultContract_effect (by decide) h
  · exact hostMemory_effect h

theorem waitPoll_ne_fault : waitPoll s ≠ .fault f := by
  unfold waitPoll
  simp only
  split
  · exact next_ne_fault
  · exact next_ne_fault

theorem engineTurn_effect (h : engineTurn s = .fault (.contract k t)) : FaultEffect s k t := by
  unfold engineTurn at h
  split at h
  · cases h
  · cases h
  · next p hp =>
    unfold completeScale at h
    split at h
    · cases h
      exact .badIndex p hp
    · cases h

theorem perform_effect {op : HostOp} (h : perform op s = .fault (.contract k t)) :
    FaultEffect s k t := by
  cases op with
  | port p => exact runPort_effect h
  | wait => exact absurd h waitPoll_ne_fault
  | engine => exact engineTurn_effect h
  | reset => cases h

/-- From a running state a step that ends in a contract fault takes at most the turn off the list before
the fault has its effect. -/
theorem step_effect (hf : s.faulted = none) (h : step s = .fault (.contract k t)) :
    ∃ rest, FaultEffect (s.withInputs rest) k t := by
  cases hi : s.inputs with
  | nil =>
    rw [Laws.step_nil hf hi] at h
    exact ⟨s.inputs, engineTurn_effect h⟩
  | cons op rest =>
    rw [Laws.step_cons hf hi] at h
    exact ⟨rest, perform_effect h⟩

/-- A FAULTED state answers its own fault, with itself as the stopped state. -/
theorem step_of_faulted {j : ContractKind} (hj : s.faulted = some j)
    (h : step s = .fault (.contract k t)) : t = s ∧ k = j := by
  rw [Laws.step_faulted hj] at h
  cases h
  exact ⟨rfl, rfl⟩

theorem stopped_is_faulted (h : step s = .fault (.contract k t)) : t.faulted = some k := by
  cases hf : s.faulted with
  | none =>
    obtain ⟨rest, he⟩ := step_effect hf h
    exact he.stopped_faulted
  | some j =>
    obtain ⟨rfl, rfl⟩ := step_of_faulted hf h
    exact hf

/-- Settles O52: a contract fault of a running state has one of the two effects, and the state it stops is
FAULTED, so it answers the same fault. -/
theorem contractFaultOnlyMarks : Obligations.ContractFaultOnlyMarks := by
  intro s t k h
  refine ⟨fun hf => ?_, fun j hj => step_of_faulted hj h, Laws.step_faulted (stopped_is_faulted h)⟩
  obtain ⟨rest, he⟩ := step_effect hf h
  have hinputs : t.inputs = rest := congrArg State.inputs he.stopped_eq
  refine ⟨?_, he.mem_of_ne_indexRange, fun a ha => he.read_of_outside ha⟩
  rw [hinputs]
  exact he.stopped_eq

end Sys2Proof.Proofs.ContractFaults
end

section
/-! PROOFS. Reset and the hazards of a frame in flight (70_reset_and_hazards.md): what a reset makes of
bus memory, and what every turn leaves alone while a SCALE stays in flight. -/

namespace Sys2Proof.Proofs.ResetAndHazards

open Sys2Proof.Machine

variable {s t : State} {p : FrameRecord}

/-! ## The reset input (70_reset_and_hazards.md R290 to R292) -/

theorem abandon_of_scale (hp : s.inflight = .scale p) : abandon s = freeDestination p s := by
  simp only [abandon, hp]

/-- A reset that abandons a SCALE changes no byte outside its destination region. -/
theorem platformReset_read_of_outside (hp : s.inflight = .scale p) {a : Nat}
    (ha : a < (destRegion p).base ∨ (destRegion p).base + (destRegion p).bytes ≤ a) :
    (platformReset s).mem.read a = s.mem.read a := by
  rw [Laws.platformReset_mem, abandon_of_scale hp]
  exact Laws.freeDestination_read p s a ha

/-- A reset that abandons no SCALE leaves bus memory as it is. -/
theorem platformReset_mem_of_no_scale (hn : ∀ p, s.inflight ≠ .scale p) :
    (platformReset s).mem = s.mem :=
  (BusMemory.platformReset_mem_or s).resolve_right fun ⟨p, hp⟩ => hn p hp

/-- Settles O51: the turn taken off the list leaves what is in flight, and the reset of that state has the
reset values by definition; what is left to say is its memory. -/
theorem resetInput : Obligations.ResetInput := by
  intro s rest hf hi
  refine ⟨platformReset (s.withInputs rest), Laws.step_cons hf hi, rfl, ?_, ?_⟩
  · exact fun p hp a ha => platformReset_read_of_outside (s := s.withInputs rest) hp ha
  · exact fun hn => platformReset_mem_of_no_scale (s := s.withInputs rest) hn

/-! ## A frame that stays in flight (70_reset_and_hazards.md R301, R302) -/

/-- Nothing changes but the error record, bus memory, and the agents' turns and answers. -/
def BlockKept (s t : State) : Prop :=
  t = { s with err := t.err, errCode := t.errCode, mem := t.mem, inputs := t.inputs,
               lastRead := t.lastRead }

theorem BlockKept.of_withInputs {l : List HostOp} (h : BlockKept (s.withInputs l) t) :
    BlockKept s t := h

theorem recordError_blockKept (c : ErrorCode) (s : State) : BlockKept s (recordError c s) := by
  cases he : s.err with
  | true => rw [Laws.recordError_of_err he]; rfl
  | false => rw [Laws.recordError_of_no_err he]; rfl

/-- While BUSY is 1 no operation on the port is accepted, and any other keeps the block. -/
theorem portEffect_blockKept (hb : s.busy = true) (h : Laws.PortEffect s t) : BlockKept s t := by
  cases h with
  | refused c _ => exact recordError_blockKept c s
  | answered v => rfl
  | ignored => rfl
  | accepted _ hidle _ => rw [hidle] at hb; cases hb

theorem hostMemory_blockKept {a : BusAccess} (h : hostMemory a s = .next t) : BlockKept s t := by
  obtain ⟨_, _, ⟨_, rfl⟩ | ⟨_, _, rfl⟩⟩ := Laws.hostMemory_next h
  · rfl
  · rfl

theorem runPort_blockKept (hb : s.busy = true) {i : PortInput} (h : runPort i s = .next t) :
    BlockKept s t := by
  obtain ⟨_, _, h⟩ | ⟨_, _, _, h⟩ := Laws.runPort_next h
  · exact portEffect_blockKept hb (Laws.exec_next h)
  · exact hostMemory_blockKept h

theorem waitPoll_blockKept (h : waitPoll s = .next t) : BlockKept s t := by
  obtain rfl | rfl := Laws.waitPoll_next h
  · rfl
  · rfl

theorem engineTurn_ends_scale (hp : s.inflight = .scale p) (h : engineTurn s = .next t) :
    t.inflight = .none := by
  rw [Laws.engineTurn_scale hp] at h
  obtain ⟨_, _, rfl⟩ := Laws.completeScale_next h
  rfl

/-- A step with a SCALE in flight ends it (the engine's turn, a reset) or keeps the block (every other
turn). -/
theorem step_under_scale (hp : s.inflight = .scale p) (h : step s = .next t) :
    t.inflight = .none ∨ BlockKept s t := by
  have hb : s.busy = true := Laws.busy_eq_true.2 (by rw [hp]; exact nofun)
  obtain ⟨-, hturn⟩ := Laws.step_next h
  rcases hturn with ⟨_, h⟩ | ⟨i, rest, _, h⟩ | ⟨rest, _, h⟩ | ⟨rest, _, h⟩ | ⟨rest, _, rfl⟩
  · exact .inl (engineTurn_ends_scale hp h)
  · exact .inr (runPort_blockKept (s := s.withInputs rest) hb h).of_withInputs
  · exact .inr (waitPoll_blockKept h).of_withInputs
  · exact .inl (engineTurn_ends_scale (s := s.withInputs rest) hp h)
  · exact .inl (Laws.platformReset_inflight _)

/-- Settles O55: a turn that keeps the block keeps what is in flight and every field the statement names. -/
theorem nothingChangesUnderAFrame : Obligations.NothingChangesUnderAFrame := by
  intro s t p hp h
  refine (step_under_scale hp h).imp id fun hk => ?_
  rw [hk]
  exact ⟨hp, rfl, rfl, rfl, rfl, rfl, rfl, rfl, rfl, rfl, rfl, rfl, rfl, rfl, rfl, rfl⟩

end Sys2Proof.Proofs.ResetAndHazards
end
